-- ==== Sys2Proof/Word.lean ====
section
/-! DEFINITION. The words of the CORE block: every value is unsigned (00_scope.md R10). -/

namespace Sys2Proof

/-- A byte: one stream byte, one palette index (00_scope.md R8, `INDEX_BITS`). -/
abbrev Byte := BitVec 8

/-- A 16-bit colour word, opaque to the block (00_scope.md R9, `COLOR_BITS`). -/
abbrev Color := BitVec 16

/-- A 32-bit register or command word (10_state.md R18, 30_encoding.md R60). -/
abbrev Word := BitVec 32

/-- A 12-bit code (00_scope.md R8, `MAX_KEY`). -/
abbrev Code := BitVec 12

/-- `is_pow2(n)` (00_scope.md R10). -/
def isPow2 (n : Nat) : Bool := decide (0 < n) && decide (n &&& (n - 1) = 0)

end Sys2Proof
end

