-- ==== Sys2Proof/Syntax.lean ====
section
/-! DEFINITION. The command set: one constructor per row of opcode_table.json (30_encoding.md R62). -/

namespace Sys2Proof

/-- The palette a PAL_WRITE selects by SEL = w[4] (30_encoding.md R61). -/
inductive PalSel where
  /-- SEL = 0, the global palette GPAL -/
  | gpal
  /-- SEL = 1, the local palette LPAL -/
  | lpal
  deriving DecidableEq, Repr

/-- The seven commands, with the operand fields of 30_encoding.md R61. -/
inductive Instr where
  /-- INIT: open-time initialisation (42_compositor.md R103) -/
  | init
  /-- SKIP: discard one sub-block sequence (40_subblock_reader.md R75) -/
  | skip
  /-- DECODE: decode one image into FRAME (41_lzw.md R78) -/
  | decode
  /-- DISPOSE: the previous frame's disposal (42_compositor.md R104) -/
  | dispose
  /-- PAL_WRITE SEL, INDEX, COLOR: store one palette entry (42_compositor.md R102) -/
  | palWrite (sel : PalSel) (index : Byte) (color : Color)
  /-- BR_RESET: reset the bit reader (40_subblock_reader.md R76) -/
  | brReset
  /-- GET_KEY W: read one code of W bits (40_subblock_reader.md R77) -/
  | getKey (w : BitVec 4)
  deriving DecidableEq, Repr

/-- The opcode OP = w[3:0] of each command (30_encoding.md R62). -/
def Instr.opcode : Instr → BitVec 4
  | .init => 0x1
  | .skip => 0x2
  | .decode => 0x3
  | .dispose => 0x4
  | .palWrite _ _ _ => 0x5
  | .brReset => 0x6
  | .getKey _ => 0x7

end Sys2Proof
end

