-- ==== Sys2Proof/Decode.lean ====
section
/-! DEFINITION. The command decoder, total on 32-bit words, and the encoder (30_encoding.md R60 to R63). -/

namespace Sys2Proof

/-- Why a word is no command; the machine performs BadCommand for both (30_encoding.md R63). -/
inductive Reject where
  /-- OP is 0x0 or 0x8..0xF -/
  | reservedOp
  /-- a must-be-zero bit is one -/
  | mbzNotZero
  deriving DecidableEq, Repr

/-- What the decoder makes of a word: exactly one command, or a rejection by name. -/
inductive Decoded where
  | instr (i : Instr)
  | reject (r : Reject)
  deriving DecidableEq, Repr

/-- OP = w[3:0] (30_encoding.md R60). -/
def fieldOp (w : Word) : BitVec 4 := w.extractLsb' 0 4

/-- SEL = w[4]: 0 = GPAL, 1 = LPAL (30_encoding.md R61). -/
def fieldSel (w : Word) : PalSel := if w.extractLsb' 4 1 = 0 then .gpal else .lpal

/-- INDEX = w[15:8] (30_encoding.md R61). -/
def fieldIndex (w : Word) : Byte := w.extractLsb' 8 8

/-- COLOR = w[31:16] (30_encoding.md R61). -/
def fieldColor (w : Word) : Color := w.extractLsb' 16 16

/-- W = w[7:4] (30_encoding.md R61). -/
def fieldWidth (w : Word) : BitVec 4 := w.extractLsb' 4 4

/-- A command whose format has must-be-zero bits: the command if they are all zero (30_encoding.md R62). -/
def requireZero {n : Nat} (mbz : BitVec n) (i : Instr) : Decoded :=
  if mbz = 0 then .instr i else .reject .mbzNotZero

/-- `Dispatch(w)` of 30_encoding.md R62, as far as naming the command. -/
def decodeWord (w : Word) : Decoded :=
  match (fieldOp w).toNat with
  | 1 => requireZero (w.extractLsb' 4 28) .init
  | 2 => requireZero (w.extractLsb' 4 28) .skip
  | 3 => requireZero (w.extractLsb' 4 28) .decode
  | 4 => requireZero (w.extractLsb' 4 28) .dispose
  | 5 => requireZero (w.extractLsb' 5 3) (.palWrite (fieldSel w) (fieldIndex w) (fieldColor w))
  | 6 => requireZero (w.extractLsb' 4 28) .brReset
  | 7 => requireZero (w.extractLsb' 8 24) (.getKey (fieldWidth w))
  | _ => .reject .reservedOp

/-- The instruction of a decoded word, if it is one. -/
def Decoded.instr? : Decoded → Option Instr
  | .instr i => some i
  | .reject _ => none

/-- SEL as the bit w[4] (30_encoding.md R61). -/
def selBit : PalSel → BitVec 1
  | .gpal => 0
  | .lpal => 1

/-- Format N: MBZ in w[31:4], OP in w[3:0] (30_encoding.md R60). -/
def formatN (op : BitVec 4) : Word := (0 : BitVec 28) ++ op

/-- Format P: COLOR, INDEX, MBZ, SEL, OP (30_encoding.md R60). -/
def formatP (color : Color) (index : Byte) (sel : BitVec 1) (op : BitVec 4) : Word :=
  color ++ index ++ (0 : BitVec 3) ++ sel ++ op

/-- Format K: MBZ in w[31:8], W in w[7:4], OP in w[3:0] (30_encoding.md R60). -/
def formatK (width op : BitVec 4) : Word := (0 : BitVec 24) ++ width ++ op

/-- The command word of an instruction (30_encoding.md R60, R62). -/
def encode : Instr → Word
  | .init => formatN 0x1
  | .skip => formatN 0x2
  | .decode => formatN 0x3
  | .dispose => formatN 0x4
  | .palWrite sel index color => formatP color index (selBit sel) 0x5
  | .brReset => formatN 0x6
  | .getKey w => formatK w 0x7

/-- The instruction the decoder reads from the `nbits` low bits of `w`, numbered as opcode_table.json numbers them; a
command is one 32-bit word, so bits above `nbits` are zero. -/
def decodeTableWord (nbits w : Nat) : Option Instr :=
  (decodeWord (BitVec.ofNat 32 (w % 2 ^ nbits))).instr?

end Sys2Proof
end

