-- ==== Sys2Proof/Config.lean ====
section
/-! DEFINITION. The parameters of 00_scope.md R8: the fixed ones as numbers, the open host parameters as constants
without a body. CANVAS_W and CANVAS_H are the hardwired contents of CANVAS_DIM and stand in `Machine.State`
(notes/assumptions/1.md). -/

namespace Sys2Proof

/-- `TABLE_CAP`: entries of the code table (00_scope.md R8). -/
def Config.tableCap : Nat := 4096

/-- `MAX_KEY`: the widest code, in bits (00_scope.md R8). -/
def Config.maxKey : Nat := 12

/-- `MIN_READ_KEY`: the narrowest width GET_KEY accepts (00_scope.md R8). -/
def Config.minReadKey : Nat := 2

/-- `PAL_ENTRIES`: words of one palette (00_scope.md R8). -/
def Config.palEntries : Nat := 256

/-- `SENTINEL`: the PREFIX value that ends a chain (00_scope.md R8). -/
def Config.sentinel : Code := 0xFFF

/-- The smallest code-size byte DECODE accepts (00_scope.md R8, 41_lzw.md R80). -/
def Config.minCodeSize : Nat := 2

/-- The largest code-size byte DECODE accepts (00_scope.md R8, 41_lzw.md R80). -/
def Config.maxCodeSize : Nat := 8

/-- The largest `S_LEN`: 2^32 - 256 (00_scope.md R8, `POS_BITS`). -/
def Config.maxStreamLen : Nat := 4294967040

/-- The source's canvas size, 128 by 128 (00_scope.md R8). DESIGN CHOICE: `State.reset` has it (notes/assumptions/1.md). -/
def Config.sourceCanvas : BitVec 16 := 128

/-- `REG_BASE`: the host address of register offset 0x00 (20_memory.md R52). Open: no block rule reads it
(notes/assumptions/6.md). DESIGN CHOICE: a host address has 32 bits; the spec gives it no width (notes/assumptions/13.md). -/
opaque Config.regBase : Word

/-- The two values of the host parameter `GCE_POLICY` (00_scope.md R8). -/
inductive GcePolicy where
  /-- write the last GCE again -/
  | persist
  /-- write 0 -/
  | nextOnly
  deriving DecidableEq, Repr, Inhabited

/-- `GCE_POLICY`: what the host writes for an image with no GCE of its own (70_reset_and_hazards.md R126). Open: no
block rule reads it (notes/assumptions/6.md). -/
opaque Config.gcePolicy : GcePolicy

end Sys2Proof
end

