-- ==== Sys2Proof/Machine/State.lean ====
section
/-! DEFINITION. The state of a run (10_state.md R14), all of it plain data, its value after reset (10_state.md R36), and
the reasons a step can stop. -/

namespace Sys2Proof.Machine

/-- The status codes 0 to 9 (60_exceptions.md R111). Codes 10 to 15 are never written, so STATUS holds one of these. -/
inductive Status where
  /-- 0: the command completed -/
  | ok
  /-- 1: reserved OP or nonzero must-be-zero bits -/
  | badCommand
  /-- 2: the frame rectangle leaves the canvas -/
  | badRect
  /-- 3: code-size byte outside 2..8 -/
  | badCodeSize
  /-- 4: the first code is not the clear code -/
  | noClearCode
  /-- 5: a data code at or above NENTRIES -/
  | badCode
  /-- 6: a zero length byte where the code reader needed a new sub-block -/
  | endOfData
  /-- 7: an append at 4096 entries; no run raises it (41_lzw.md R99) -/
  | tableOverflow
  /-- 8: a byte read at POS >= S_LEN -/
  | streamEnd
  /-- 9: GET_KEY width outside 2..12 -/
  | badWidth
  deriving DecidableEq, Repr

/-- Why the machine stops with no end state. Every one is SAFE: the model stops where the spec gives no value, or where
no state of a well-formed run comes. -/
inductive Fault where
  /-- DISPOSE, FrameRead or View reads a FRAME cell that nothing has written (70_reset_and_hazards.md R124). SAFE. -/
  | unwrittenFrame
  /-- CanvasRead or View reads a CANVAS cell that nothing has written (70_reset_and_hazards.md R124). SAFE. -/
  | unwrittenCanvas
  /-- FrameRead, CanvasRead or View names a cell outside the canvas (20_memory.md R39, 42_compositor.md R109). SAFE. -/
  | noSuchCell
  /-- A loop of SKIP, GET_KEY or DECODE ran past every bound of 70_reset_and_hazards.md R136. SAFE: no state whose stream
  keeps the bound on S_LEN comes here (notes/assumptions/5.md). -/
  | endlessLoop
  deriving DecidableEq, Repr

/-- The refusals. No meaning of this model refuses. -/
inductive Refusal where
  /-- Raised by an arm of `exec` that has no meaning yet, with the mnemonic. SAFE. No arm raises it. -/
  | notModelled (mnemonic : String)
  deriving DecidableEq, Repr

/-- A memory: pairs of an index and its contents, indices strictly rising, no entry equal to what an unlisted index
reads as (`Memory.wf` in Machine/Ops.lean). `Memory Byte` is a list of `Host.Cell`. -/
abbrev Memory (α : Type) := List (Nat × α)

/-- One entry of the code table T (10_state.md R32). -/
structure Entry where
  /-- LEN, the length of the entry's string -/
  len : BitVec 16
  /-- PREFIX, the index of the rest of the string, 0xFFF for none -/
  parent : Code
  /-- SUFFIX, the string's last pixel -/
  suffix : Byte
  deriving DecidableEq, Repr

/-- FRAME_POS and FRAME_SIZE: the frame rectangle (10_state.md R22). -/
structure Rect where
  fx : BitVec 16
  fy : BitVec 16
  fw : BitVec 16
  fh : BitVec 16
  deriving DecidableEq, Repr

/-- FRAME_CTRL (10_state.md R23). -/
structure FrameCtrl where
  /-- INTERLACE, bit 0 -/
  interlace : Bool
  /-- LPAL_SEL, bit 1 -/
  lpalSel : Bool
  deriving DecidableEq, Repr

/-- GCE (10_state.md R24). -/
structure Gce where
  /-- DISPOSAL, bits 2..0 -/
  disposal : BitVec 3
  /-- TRANSP, bit 3 -/
  transp : Bool
  /-- TINDEX, bits 15..8 -/
  tindex : Byte
  /-- DELAY, bits 31..16 -/
  delay : BitVec 16
  deriving DecidableEq, Repr

/-- The LZW datapath registers (10_state.md R15). -/
structure Lzw where
  nentries : BitVec 13
  ks : BitVec 4
  initKs : BitVec 4
  full : Bool
  grow : Bool
  patchEn : Bool
  code : Code
  first : Byte
  prevLen : BitVec 16
  off : BitVec 32
  deriving DecidableEq, Repr

/-- The bit reader's registers (10_state.md R15). -/
structure BitReader where
  sbRem : Byte
  curByte : Byte
  shift : BitVec 3
  deriving DecidableEq, Repr

/-- One interaction of the host, the renderer or the platform with the block (70_reset_and_hazards.md R137, R123). DESIGN
CHOICE: a port address has 32 bits, of which the port reads bits 7 to 2; the spec gives it no width
(notes/assumptions/13.md). -/
inductive Interaction where
  /-- MemWrite(a, 4, v) at the register port; a write to CMD runs a command (20_memory.md R38, 10_state.md R31) -/
  | writeReg (addr : Word) (value : Word)
  /-- MemRead(a, 4) at the register port (20_memory.md R38) -/
  | readReg (addr : Word)
  /-- the host's own StreamRead8 (20_memory.md R43, R44) -/
  | streamRead
  /-- the host's own StreamSeek (20_memory.md R45) -/
  | streamSeek (p : BitVec 32)
  /-- the host's StreamPos (20_memory.md R46) -/
  | streamPos
  /-- the renderer's FrameRead(i) (20_memory.md R59) -/
  | frameRead (i : Nat)
  /-- the renderer's CanvasRead(i) (20_memory.md R59) -/
  | canvasRead (i : Nat)
  /-- the renderer's View(x, y) (42_compositor.md R109) -/
  | view (x y : Nat)
  /-- hardware reset, a platform input (70_reset_and_hazards.md R123) -/
  | hardReset
  deriving DecidableEq, Repr

/-- What an interaction gives back (70_reset_and_hazards.md R137). -/
inductive Reply where
  /-- a register's value -/
  | word (v : Word)
  /-- a stream byte -/
  | byte (b : Byte)
  /-- the host's own read at or past the end of the stream -/
  | streamEnd
  /-- the stream position -/
  | position (p : BitVec 32)
  /-- a FRAME cell -/
  | pixel (v : Byte)
  /-- a CANVAS cell or a pixel of the View -/
  | color (c : Color)
  deriving DecidableEq, Repr

/-- The state (10_state.md R14): (a) the host-visible registers, (b) the datapath registers, (c) the memories, (d) the
external stream with its position; then the model's record of the run (70_reset_and_hazards.md R138). -/
@[ext]
structure State where
  /-- CANVAS_DIM.W, hardwired to the parameter CANVAS_W (10_state.md R20) -/
  canvasW : BitVec 16
  /-- CANVAS_DIM.H, hardwired to the parameter CANVAS_H (10_state.md R20) -/
  canvasH : BitVec 16
  /-- STATUS (10_state.md R19) -/
  status : Status
  /-- BG.BG_INDEX (10_state.md R21) -/
  bg : Byte
  /-- FRAME_POS and FRAME_SIZE (10_state.md R22) -/
  rect : Rect
  /-- FRAME_CTRL (10_state.md R23) -/
  ctrl : FrameCtrl
  /-- GCE (10_state.md R24) -/
  gce : Gce
  /-- KEY_OUT.KEY (10_state.md R25) -/
  keyOut : Code
  /-- the LZW datapath (10_state.md R15, R26, R28 to R30) -/
  lzw : Lzw
  /-- the bit reader (10_state.md R15, R27) -/
  reader : BitReader
  /-- the code table T (10_state.md R32) -/
  table : Memory Entry
  /-- the palette GPAL (10_state.md R33) -/
  gpal : Memory Color
  /-- the palette LPAL (10_state.md R33) -/
  lpal : Memory Color
  /-- FRAME (10_state.md R34) -/
  frame : Memory Byte
  /-- CANVAS (10_state.md R34) -/
  canvas : Memory Color
  /-- the external byte stream S; S_LEN is its length (20_memory.md R43) -/
  stream : List Byte
  /-- POS (20_memory.md R43) -/
  pos : BitVec 32
  /-- the model's own: the interactions still to come (70_reset_and_hazards.md R138) -/
  pending : List Interaction
  /-- the model's own: what the interactions so far gave back, oldest first (70_reset_and_hazards.md R137) -/
  replies : List Reply
  /-- the sequence of STATUS values the run's commands produced, oldest first (70_reset_and_hazards.md R138) -/
  statuses : List Status
  deriving DecidableEq, Repr

/-- The datapath registers at reset (10_state.md R36). -/
def Lzw.reset : Lzw :=
  { nentries := 0, ks := 0, initKs := 0, full := false, grow := false, patchEn := false, code := 0, first := 0,
    prevLen := 0, off := 0 }

/-- The bit reader at reset (10_state.md R36). -/
def BitReader.reset : BitReader := { sbRem := 0, curByte := 0, shift := 0 }

/-- The block after hardware reset (10_state.md R36, 70_reset_and_hazards.md R123), for a canvas size and a stream:
every register 0, STATUS OK, both palettes 0x0000, T, FRAME and CANVAS with nothing listed, POS 0. -/
def State.resetFor (canvasW canvasH : BitVec 16) (stream : List Byte) : State :=
  { canvasW := canvasW, canvasH := canvasH, status := .ok, bg := 0,
    rect := { fx := 0, fy := 0, fw := 0, fh := 0 },
    ctrl := { interlace := false, lpalSel := false },
    gce := { disposal := 0, transp := false, tindex := 0, delay := 0 },
    keyOut := 0, lzw := Lzw.reset, reader := BitReader.reset,
    table := [], gpal := [], lpal := [], frame := [], canvas := [],
    stream := stream, pos := 0, pending := [], replies := [], statuses := [] }

/-- The machine right after reset. DESIGN CHOICE: the source's canvas size and an empty stream (notes/assumptions/1.md,
notes/assumptions/3.md). -/
def State.reset : State := State.resetFor Config.sourceCanvas Config.sourceCanvas []

end Sys2Proof.Machine
end

