-- ==== Sys2Proof/Machine/Ops.lean ====
section
/-! DEFINITION. The named operations over the state: memories, registers, the external stream, and the one way a command
ends, with OK or with a raised status (00_scope.md R11). -/

namespace Sys2Proof.Machine

/-! Memories. -/

/-- What an unlisted FRAME cell reads as: no value (70_reset_and_hazards.md R124). -/
def frameUnlisted : Option Byte := none

/-- What an unlisted CANVAS cell reads as: no value (70_reset_and_hazards.md R124). -/
def canvasUnlisted : Option Color := none

/-- What an unlisted palette entry reads as: the reset value 0x0000 (10_state.md R33). -/
def paletteUnlisted : Option Color := some 0

/-- The blank entry of T. DESIGN CHOICE: T has no defined contents at reset and no rule reads an entry that DECODE has
not written (41_lzw.md R93; notes/assumptions/2.md). -/
def Entry.blank : Entry := { len := 0, parent := 0, suffix := 0 }

/-- What an unlisted entry of T reads as. -/
def tableUnlisted : Option Entry := some Entry.blank

/-- Read index `a`; `d` is what an unlisted index reads as. -/
def Memory.read {α : Type} (d : Option α) : Memory α → Nat → Option α
  | [], _ => d
  | (b, v) :: m, a => if a = b then some v else Memory.read d m a

/-- List `v` at index `a`, in place. -/
def Memory.insert {α : Type} : Memory α → Nat → α → Memory α
  | [], a, v => [(a, v)]
  | (b, w) :: m, a, v =>
    if a < b then (a, v) :: (b, w) :: m
    else if a = b then (a, v) :: m
    else (b, w) :: Memory.insert m a v

/-- Unlist index `a`. -/
def Memory.erase {α : Type} : Memory α → Nat → Memory α
  | [], _ => []
  | (b, w) :: m, a => if a = b then Memory.erase m a else (b, w) :: Memory.erase m a

/-- Write `v` at index `a`; the value an unlisted index reads as is kept unlisted. -/
def Memory.write {α : Type} [DecidableEq α] (d : Option α) (m : Memory α) (a : Nat) (v : α) : Memory α :=
  if d = some v then Memory.erase m a else Memory.insert m a v

/-- The canonical form: indices strictly rising and below `n`, no entry equal to what an unlisted index reads as. -/
abbrev Memory.wf {α : Type} [DecidableEq α] (d : Option α) (n : Nat) (m : Memory α) : Prop :=
  m.Pairwise (fun x y => x.1 < y.1) ∧ ∀ c ∈ m, c.1 < n ∧ d ≠ some c.2

/-- A memory of `n` cells that all hold `v`. -/
def Memory.filled {α : Type} (n : Nat) (v : α) : Memory α := (List.range n).map fun i => (i, v)

/-- Write `v` at every index of a list, in order. -/
def Memory.fillAt {α : Type} [DecidableEq α] (d : Option α) (v : α) : List Nat → Memory α → Memory α
  | [], m => m
  | a :: rest, m => Memory.fillAt d v rest (Memory.write d m a v)

/-! The updates of one field. -/

/-- Write STATUS. -/
def State.setStatus (s : State) (v : Status) : State := { s with status := v }

/-- Write BG_INDEX. -/
def State.setBg (s : State) (v : Byte) : State := { s with bg := v }

/-- Write FRAME_POS and FRAME_SIZE. -/
def State.setRect (s : State) (v : Rect) : State := { s with rect := v }

/-- Write FRAME_CTRL. -/
def State.setCtrl (s : State) (v : FrameCtrl) : State := { s with ctrl := v }

/-- Write GCE. -/
def State.setGce (s : State) (v : Gce) : State := { s with gce := v }

/-- Write KEY_OUT. -/
def State.setKeyOut (s : State) (v : Code) : State := { s with keyOut := v }

/-- Write the LZW datapath registers. -/
def State.setLzw (s : State) (v : Lzw) : State := { s with lzw := v }

/-- Write SB_REM, CUR_BYTE and SHIFT. -/
def State.setReader (s : State) (v : BitReader) : State := { s with reader := v }

/-- Write T. -/
def State.setTable (s : State) (v : Memory Entry) : State := { s with table := v }

/-- Write GPAL. -/
def State.setGpal (s : State) (v : Memory Color) : State := { s with gpal := v }

/-- Write LPAL. -/
def State.setLpal (s : State) (v : Memory Color) : State := { s with lpal := v }

/-- Write FRAME. -/
def State.setFrame (s : State) (v : Memory Byte) : State := { s with frame := v }

/-- Write CANVAS. -/
def State.setCanvas (s : State) (v : Memory Color) : State := { s with canvas := v }

/-- Write POS. -/
def State.setPos (s : State) (v : BitVec 32) : State := { s with pos := v }

/-- Write the interactions still to come. -/
def State.setPending (s : State) (v : List Interaction) : State := { s with pending := v }

/-- Write what the interactions gave back. -/
def State.setReplies (s : State) (v : List Reply) : State := { s with replies := v }

/-- Write the sequence of STATUS values. -/
def State.setStatuses (s : State) (v : List Status) : State := { s with statuses := v }

/-! Cells of the memories. -/

/-- CANVAS_W as a number. -/
def State.width (s : State) : Nat := s.canvasW.toNat

/-- CANVAS_H as a number. -/
def State.height (s : State) : Nat := s.canvasH.toNat

/-- How many cells FRAME and CANVAS have (10_state.md R34). -/
def State.cells (s : State) : Nat := s.width * s.height

/-- The row-major index of pixel (x, y) (20_memory.md R39). -/
def State.cellIndex (s : State) (x y : Nat) : Nat := y * s.width + x

/-- FRAME[i], no value if nothing has written it (70_reset_and_hazards.md R124). -/
def State.frameAt (s : State) (i : Nat) : Option Byte := Memory.read frameUnlisted s.frame i

/-- CANVAS[i], no value if nothing has written it (70_reset_and_hazards.md R124). -/
def State.canvasAt (s : State) (i : Nat) : Option Color := Memory.read canvasUnlisted s.canvas i

/-- GPAL[i] (10_state.md R33). -/
def State.gpalAt (s : State) (i : Byte) : Color := (Memory.read paletteUnlisted s.gpal i.toNat).getD 0

/-- LPAL[i] (10_state.md R33). -/
def State.lpalAt (s : State) (i : Byte) : Color := (Memory.read paletteUnlisted s.lpal i.toNat).getD 0

/-- T[i] (10_state.md R32). -/
def State.entryAt (s : State) (i : Nat) : Entry := (Memory.read tableUnlisted s.table i).getD Entry.blank

/-- FRAME[i] <- v. -/
def State.writeFrame (s : State) (i : Nat) (v : Byte) : State := s.setFrame (Memory.write frameUnlisted s.frame i v)

/-- GPAL[i] <- c. -/
def State.writeGpal (s : State) (i : Byte) (c : Color) : State :=
  s.setGpal (Memory.write paletteUnlisted s.gpal i.toNat c)

/-- LPAL[i] <- c. -/
def State.writeLpal (s : State) (i : Byte) (c : Color) : State :=
  s.setLpal (Memory.write paletteUnlisted s.lpal i.toNat c)

/-- T[i] <- e. -/
def State.writeEntry (s : State) (i : Nat) (e : Entry) : State := s.setTable (Memory.write tableUnlisted s.table i e)

/-! How a command ends. -/

/-- The numeric code of a status, STATUS.CODE[3:0] (60_exceptions.md R111). -/
def Status.toCode : Status → BitVec 4
  | .ok => 0
  | .badCommand => 1
  | .badRect => 2
  | .badCodeSize => 3
  | .noClearCode => 4
  | .badCode => 5
  | .endOfData => 6
  | .tableOverflow => 7
  | .streamEnd => 8
  | .badWidth => 9

/-- What a part of a command comes to: done with a value, a status raised with everything written so far kept
(60_exceptions.md R114), or a fault. -/
inductive Res (α : Type) where
  | done (a : α) (s : State)
  | raised (st : Status) (s : State)
  | faulted (f : Fault)
  deriving DecidableEq, Repr

/-- Go on with what is done; a raised status or a fault skips the rest of the command (00_scope.md R11). -/
def Res.andThen {α β : Type} (r : Res α) (next : α → State → Res β) : Res β :=
  match r with
  | .done a s => next a s
  | .raised st s => .raised st s
  | .faulted f => .faulted f

/-- The end of every command: `finish OK` writes STATUS <- 0 and `raise` writes STATUS <- the status; both are next
states (00_scope.md R11, 60_exceptions.md R114). -/
def endCommand (r : Res Unit) : Host.Outcome State Fault Refusal :=
  match r with
  | .done _ s => .next (s.setStatus .ok)
  | .raised st s => .next (s.setStatus st)
  | .faulted f => .fault f

/-! The external byte stream. -/

/-- `StreamRead8()` (20_memory.md R44). -/
def streamRead8 (s : State) : Res Byte :=
  match s.stream[s.pos.toNat]? with
  | some b => .done b (s.setPos (s.pos + 1))
  | none => .raised .streamEnd s

/-- `StreamSeek(p)` (20_memory.md R45). -/
def streamSeek (p : BitVec 32) (s : State) : State := s.setPos p

/-- `StreamPos()` (20_memory.md R46). -/
def streamPos (s : State) : BitVec 32 := s.pos

/-! Hardware reset and the record of the run. -/

/-- Hardware reset: every piece of block state takes its reset value; S and POS, the hardwired canvas size and the record
of the run stay (70_reset_and_hazards.md R123). -/
def State.hardReset (s : State) : State :=
  { State.resetFor s.canvasW s.canvasH s.stream with
    pos := s.pos, pending := s.pending, replies := s.replies, statuses := s.statuses }

/-- Record what an interaction gives back (70_reset_and_hazards.md R137). -/
def State.reply (s : State) (r : Reply) : State := s.setReplies (s.replies ++ [r])

/-- Record the STATUS a command left (70_reset_and_hazards.md R138). -/
def State.logStatus (s : State) : State := s.setStatuses (s.statuses ++ [s.status])

end Sys2Proof.Machine
end

