-- ==== Sys2Proof/Machine/Operands.lean ====
section
/-! DEFINITION. What the commands take their operands from: the active palette, the frame rectangle and the transparent
index, and the register port through which the host sets them (10_state.md R18 to R31, 20_memory.md R38). -/

namespace Sys2Proof.Machine

/-! The active palette. -/

/-- ACT[i]: LPAL[i] when LPAL_SEL = 1, else GPAL[i] (42_compositor.md R101). -/
def State.actAt (s : State) (i : Byte) : Color := if s.ctrl.lpalSel then s.lpalAt i else s.gpalAt i

/-- A pixel of index `idx` is transparent: TRANSP = 1 and idx = TINDEX (42_compositor.md R108). -/
def State.transparent (s : State) (idx : Byte) : Bool := s.gce.transp && idx == s.gce.tindex

/-! The frame rectangle. -/

/-- FX + FW <= CANVAS_W and FY + FH <= CANVAS_H, the sums without wrapping (41_lzw.md R79, 42_compositor.md R105). -/
def State.rectFits (s : State) : Bool :=
  decide (s.rect.fx.toNat + s.rect.fw.toNat ≤ s.width) && decide (s.rect.fy.toNat + s.rect.fh.toNat ≤ s.height)

/-- Pixel (x, y) lies in the frame rectangle (42_compositor.md R109). -/
def State.inRect (s : State) (x y : Nat) : Bool :=
  decide (s.rect.fx.toNat ≤ x) && decide (x < s.rect.fx.toNat + s.rect.fw.toNat) &&
    (decide (s.rect.fy.toNat ≤ y) && decide (y < s.rect.fy.toNat + s.rect.fh.toNat))

/-- The cells of the frame rectangle, row by row (42_compositor.md R104). -/
def State.rectCells (s : State) : List Nat :=
  (List.range s.rect.fh.toNat).flatMap fun y =>
    (List.range s.rect.fw.toNat).map fun x => s.cellIndex (s.rect.fx.toNat + x) (s.rect.fy.toNat + y)

/-! The register port. -/

/-- The registers of 10_state.md R18. -/
inductive Reg where
  | cmd
  | status
  | canvasDim
  | bg
  | framePos
  | frameSize
  | frameCtrl
  | gce
  | keyOut
  | lzwState
  | brState
  | lzwOff
  | lzwLast
  | lzwPlen
  /-- offsets 0x38 to 0xFC: read 0, writes ignored -/
  | reserved
  deriving DecidableEq, Repr

/-- The register at a port address: word offset a[7:2]; a[1:0] and the bits above a[7] are not decoded
(20_memory.md R38). -/
def regAt (addr : Word) : Reg :=
  match (addr.extractLsb' 2 6).toNat with
  | 0 => .cmd
  | 1 => .status
  | 2 => .canvasDim
  | 3 => .bg
  | 4 => .framePos
  | 5 => .frameSize
  | 6 => .frameCtrl
  | 7 => .gce
  | 8 => .keyOut
  | 9 => .lzwState
  | 10 => .brState
  | 11 => .lzwOff
  | 12 => .lzwLast
  | 13 => .lzwPlen
  | _ => .reserved

/-- The byte offset of a register (10_state.md R18); for the reserved ones, the first of them. -/
def Reg.offset : Reg → Word
  | .cmd => 0x00
  | .status => 0x04
  | .canvasDim => 0x08
  | .bg => 0x0C
  | .framePos => 0x10
  | .frameSize => 0x14
  | .frameCtrl => 0x18
  | .gce => 0x1C
  | .keyOut => 0x20
  | .lzwState => 0x24
  | .brState => 0x28
  | .lzwOff => 0x2C
  | .lzwLast => 0x30
  | .lzwPlen => 0x34
  | .reserved => 0x38

/-- FRAME_CTRL as a word: INTERLACE[0], LPAL_SEL[1] (10_state.md R23). -/
def FrameCtrl.toWord (c : FrameCtrl) : Word := (0 : BitVec 30) ++ BitVec.ofBool c.lpalSel ++ BitVec.ofBool c.interlace

/-- FRAME_CTRL from a word (10_state.md R23). -/
def FrameCtrl.ofWord (v : Word) : FrameCtrl := { interlace := v.getLsbD 0, lpalSel := v.getLsbD 1 }

/-- GCE as a word: DISPOSAL[2:0], TRANSP[3], TINDEX[15:8], DELAY[31:16] (10_state.md R24). -/
def Gce.toWord (g : Gce) : Word := g.delay ++ g.tindex ++ (0 : BitVec 4) ++ BitVec.ofBool g.transp ++ g.disposal

/-- GCE from a word; bits [7:4] are reserved (10_state.md R24). -/
def Gce.ofWord (v : Word) : Gce :=
  { disposal := v.extractLsb' 0 3, transp := v.getLsbD 3, tindex := v.extractLsb' 8 8, delay := v.extractLsb' 16 16 }

/-- LZW_STATE: NENTRIES[12:0], KS[19:16], INIT_KS[23:20], FULL[24], GROW[25], PATCH_EN[26] (10_state.md R26). -/
def Lzw.stateWord (l : Lzw) : Word :=
  (0 : BitVec 5) ++ BitVec.ofBool l.patchEn ++ BitVec.ofBool l.grow ++ BitVec.ofBool l.full ++ l.initKs ++ l.ks ++
    (0 : BitVec 3) ++ l.nentries

/-- LZW_LAST: CODE[11:0], FIRST[23:16] (10_state.md R29). -/
def Lzw.lastWord (l : Lzw) : Word := (0 : BitVec 8) ++ l.first ++ (0 : BitVec 4) ++ l.code

/-- BR_STATE: SB_REM[7:0], CUR_BYTE[15:8], SHIFT[18:16] (10_state.md R27). -/
def BitReader.toWord (r : BitReader) : Word := (0 : BitVec 13) ++ r.shift ++ r.curByte ++ r.sbRem

/-- The value a host read of a register returns; CMD and the reserved offsets read 0 (10_state.md R18 to R31). -/
def State.readReg (s : State) : Reg → Word
  | .cmd => 0
  | .status => s.status.toCode.setWidth 32
  | .canvasDim => s.canvasH ++ s.canvasW
  | .bg => s.bg.setWidth 32
  | .framePos => s.rect.fy ++ s.rect.fx
  | .frameSize => s.rect.fh ++ s.rect.fw
  | .frameCtrl => s.ctrl.toWord
  | .gce => s.gce.toWord
  | .keyOut => s.keyOut.setWidth 32
  | .lzwState => s.lzw.stateWord
  | .brState => s.reader.toWord
  | .lzwOff => s.lzw.off
  | .lzwLast => s.lzw.lastWord
  | .lzwPlen => s.lzw.prevLen.setWidth 32
  | .reserved => 0

/-- A host write of a register other than CMD: read-write registers take their fields, read-only and reserved ones
ignore it (10_state.md R18). A CMD write runs a command (Machine/HostPort.lean) and writes nothing here. -/
def State.writeReg (s : State) (r : Reg) (v : Word) : State :=
  match r with
  | .cmd => s
  | .status => s
  | .canvasDim => s
  | .bg => s.setBg (v.extractLsb' 0 8)
  | .framePos => s.setRect { s.rect with fx := v.extractLsb' 0 16, fy := v.extractLsb' 16 16 }
  | .frameSize => s.setRect { s.rect with fw := v.extractLsb' 0 16, fh := v.extractLsb' 16 16 }
  | .frameCtrl => s.setCtrl (FrameCtrl.ofWord v)
  | .gce => s.setGce (Gce.ofWord v)
  | .keyOut => s
  | .lzwState => s
  | .brState => s
  | .lzwOff => s
  | .lzwLast => s
  | .lzwPlen => s
  | .reserved => s

end Sys2Proof.Machine
end

