-- ==== Sys2Proof/Machine/Compositor.lean ====
section
/-! DEFINITION. The frame compositor: INIT, PAL_WRITE, DISPOSE and the renderer's ports (42_compositor.md R101 to R110,
20_memory.md R59). -/

namespace Sys2Proof.Machine

/-- INIT's writes: both buffers filled, the frame registers and GCE cleared (42_compositor.md R103). -/
def initState (s : State) : State :=
  ((((s.setFrame (Memory.filled s.cells s.bg)).setCanvas (Memory.filled s.cells (s.gpalAt s.bg))).setRect
    { fx := 0, fy := 0, fw := 0, fh := 0 }).setCtrl { interlace := false, lpalSel := false }).setGce
    { disposal := 0, transp := false, tindex := 0, delay := 0 }

/-- INIT (42_compositor.md R103). -/
def execInit (s : State) : Host.Outcome State Fault Refusal := endCommand (.done () (initState s))

/-- PAL_WRITE's write: GPAL[INDEX] or LPAL[INDEX] <- COLOR (42_compositor.md R102). -/
def palWriteState (sel : PalSel) (index : Byte) (color : Color) (s : State) : State :=
  match sel with
  | .gpal => s.writeGpal index color
  | .lpal => s.writeLpal index color

/-- PAL_WRITE (42_compositor.md R102). -/
def execPalWrite (sel : PalSel) (index : Byte) (color : Color) (s : State) : Host.Outcome State Fault Refusal :=
  endCommand (.done () (palWriteState sel index color s))

/-- The default branch of DISPOSE: draw the cells of a list from FRAME into a canvas, transparent ones skipped; no result
if a cell of FRAME holds no value (42_compositor.md R108, 70_reset_and_hazards.md R124). -/
def drawCells (s : State) : List Nat → Memory Color → Option (Memory Color)
  | [], canvas => some canvas
  | i :: rest, canvas =>
    match s.frameAt i with
    | none => none
    | some idx =>
      drawCells s rest
        (if s.transparent idx then canvas else Memory.write canvasUnlisted canvas i (s.actAt idx))

/-- Disposal 2: the rectangle takes ACT[BG_INDEX] (42_compositor.md R106). -/
def disposeToBackground (s : State) : State :=
  s.setCanvas (Memory.fillAt canvasUnlisted (s.actAt s.bg) s.rectCells s.canvas)

/-- Disposal 0, 1 and 4 to 7: the rectangle's pixels are drawn (42_compositor.md R108). -/
def disposeByDrawing (s : State) : Res Unit :=
  match drawCells s s.rectCells s.canvas with
  | some canvas => .done () (s.setCanvas canvas)
  | none => .faulted .unwrittenFrame

/-- DISPOSE as a part that may raise (42_compositor.md R104 to R108). -/
def disposeCommand (s : State) : Res Unit :=
  if s.rectFits then
    match s.gce.disposal.toNat with
    | 2 => .done () (disposeToBackground s)
    | 3 => .done () s
    | _ => disposeByDrawing s
  else .raised .badRect s

/-- DISPOSE (42_compositor.md R104). -/
def execDispose (s : State) : Host.Outcome State Fault Refusal := endCommand (disposeCommand s)

/-! The renderer's ports. -/

/-- What a renderer port gives: a value, or the fault of a cell that has none. -/
inductive PortRead (α : Type) where
  | value (v : α)
  | faulted (f : Fault)
  deriving DecidableEq, Repr

/-- `FrameRead(i)` (20_memory.md R59). -/
def framePort (s : State) (i : Nat) : PortRead Byte :=
  if i < s.cells then
    match s.frameAt i with
    | some v => .value v
    | none => .faulted .unwrittenFrame
  else .faulted .noSuchCell

/-- `CanvasRead(i)` (20_memory.md R59). -/
def canvasPort (s : State) (i : Nat) : PortRead Color :=
  if i < s.cells then
    match s.canvasAt i with
    | some c => .value c
    | none => .faulted .unwrittenCanvas
  else .faulted .noSuchCell

/-- `View(x, y)`: the canvas with the current frame laid over it (42_compositor.md R109). -/
def viewPort (s : State) (x y : Nat) : PortRead Color :=
  if x < s.width && y < s.height then
    if s.rectFits && s.inRect x y then
      match s.frameAt (s.cellIndex x y) with
      | none => .faulted .unwrittenFrame
      | some idx => if s.transparent idx then canvasPort s (s.cellIndex x y) else .value (s.actAt idx)
    else canvasPort s (s.cellIndex x y)
  else .faulted .noSuchCell

end Sys2Proof.Machine
end

