-- ==== Sys2Proof/Machine/Flags.lean ====
section
/-! DEFINITION. The flags FULL, GROW and PATCH_EN with the registers written beside them: NENTRIES, KS and OFF
(10_state.md R17, 41_lzw.md R82 to R96). -/

namespace Sys2Proof.Machine

/-- The clear code 2^m (41_lzw.md R78). -/
def clearCode (m : Nat) : Nat := 2 ^ m

/-- The stop code 2^m + 1 (41_lzw.md R78). -/
def stopCode (m : Nat) : Nat := clearCode m + 1

/-- NENTRIES after a clear: 2^m + 2 (41_lzw.md R82, R84). -/
def firstFree (m : Nat) : BitVec 13 := BitVec.ofNat 13 (clearCode m + 2)

/-- DECODE's initialisation of the datapath; PATCH_EN, CODE, FIRST and PREV_LEN are not written (41_lzw.md R82). -/
def Lzw.start (m : Nat) (l : Lzw) : Lzw :=
  { l with initKs := BitVec.ofNat 4 (m + 1), ks := BitVec.ofNat 4 (m + 1), nentries := firstFree m, full := false,
           grow := false, off := 0 }

/-- The clear code's table step (41_lzw.md R84). -/
def Lzw.clear (m : Nat) (l : Lzw) : Lzw :=
  { l with ks := l.initKs, nentries := firstFree m, full := false, grow := false, patchEn := true }

/-- NENTRIES, FULL and GROW straight after an append, and PATCH_EN (41_lzw.md R85, R86). -/
def Lzw.appended (l : Lzw) : Lzw :=
  if l.nentries.toNat + 1 = Config.tableCap then
    { l with nentries := BitVec.ofNat 13 (l.nentries.toNat + 1), full := true, grow := false, patchEn := true }
  else if isPow2 (l.nentries.toNat + 1) then
    { l with nentries := BitVec.ofNat 13 (l.nentries.toNat + 1), grow := true, patchEn := true }
  else
    { l with nentries := BitVec.ofNat 13 (l.nentries.toNat + 1), patchEn := true }

/-- The table step of a data code when FULL = 1 (41_lzw.md R87). -/
def Lzw.frozen (l : Lzw) : Lzw := { l with patchEn := false }

/-- A signalled growth is applied after a data code has passed its check (41_lzw.md R90). -/
def Lzw.applyGrowth (l : Lzw) : Lzw := if l.grow then { l with ks := l.ks + 1, grow := false } else l

/-- The registers after a string of `len` pixels whose first is `first`: FIRST, OFF saturating at 2^32 - 1, PREV_LEN
(41_lzw.md R91, R96). -/
def Lzw.resolved (len : BitVec 16) (first : Byte) (l : Lzw) : Lzw :=
  { l with first := first, off := BitVec.ofNat 32 (min (l.off.toNat + len.toNat) 4294967295), prevLen := len }

end Sys2Proof.Machine
end

