-- ==== Sys2Proof/Machine/Reader.lean ====
section
/-! DEFINITION. The bitstream sub-block reader: BrReset, GetKey and SkipSubBlocks, and the commands SKIP, BR_RESET and
GET_KEY (40_subblock_reader.md R69 to R77). -/

namespace Sys2Proof.Machine

/-- `BrReset()` (40_subblock_reader.md R71). -/
def brReset (s : State) : State := s.setReader { sbRem := 0, shift := 0, curByte := 0 }

/-- The length byte of the next sub-block, read when the current one is exhausted; a zero raises EndOfData
(40_subblock_reader.md R72, R73). -/
def openSubBlock (s : State) : Res Unit :=
  if s.reader.sbRem = 0 then
    (streamRead8 s).andThen fun len s =>
      if len = 0 then .raised .endOfData s else .done () (s.setReader { s.reader with sbRem := len })
  else .done () s

/-- A fresh data byte into CUR_BYTE (40_subblock_reader.md R72). -/
def loadByte (s : State) : Res Unit :=
  (openSubBlock s).andThen fun _ s =>
    (streamRead8 s).andThen fun b s =>
      .done () (s.setReader { s.reader with curByte := b, sbRem := s.reader.sbRem - 1 })

/-- The offset `r` in CUR_BYTE of the bit to take after `n` bits (40_subblock_reader.md R72). -/
def bitOffset (s : State) (n : Nat) : Nat := (s.reader.shift.toNat + n) % 8

/-- The loop of `GetKey(w)`: `n` bits are taken and form `key`. Each round takes at least one bit, so `w` rounds are
enough (40_subblock_reader.md R72). -/
def getKeyLoop (w : Nat) : Nat → Nat → Nat → State → Res Nat
  | 0, n, key, s => if n < w then .faulted .endlessLoop else .done key s
  | fuel + 1, n, key, s =>
    if n < w then
      (if bitOffset s n = 0 then loadByte s else .done () s).andThen fun _ s =>
        let r := bitOffset s n
        let f := min (w - n) (8 - r)
        getKeyLoop w fuel (n + f) (key ||| (((s.reader.curByte.toNat >>> r) &&& (2 ^ f - 1)) <<< n)) s
    else .done key s

/-- `GetKey(w)` for w in 2..12: SHIFT is written only when the read succeeds (40_subblock_reader.md R72, R73). -/
def getKey (w : Nat) (s : State) : Res Code :=
  (getKeyLoop w w 0 0 s).andThen fun key s =>
    .done (BitVec.ofNat 12 key) (s.setReader { s.reader with shift := BitVec.ofNat 3 (s.reader.shift.toNat + w) })

/-- The loop of `SkipSubBlocks()`: each round reads one byte below S_LEN, so S_LEN + 1 rounds are enough
(40_subblock_reader.md R74, 70_reset_and_hazards.md R136). -/
def skipLoop : Nat → State → Res Unit
  | 0, _ => .faulted .endlessLoop
  | fuel + 1, s =>
    (streamRead8 s).andThen fun len s =>
      if len = 0 then .done () s else skipLoop fuel (streamSeek (s.pos + len.setWidth 32) s)

/-- `SkipSubBlocks()` (40_subblock_reader.md R74). -/
def skipSubBlocks (s : State) : Res Unit := skipLoop (s.stream.length + 1) s

/-- SKIP (40_subblock_reader.md R75). -/
def execSkip (s : State) : Host.Outcome State Fault Refusal := endCommand (skipSubBlocks s)

/-- BR_RESET (40_subblock_reader.md R76). -/
def execBrReset (s : State) : Host.Outcome State Fault Refusal := endCommand (.done () (brReset s))

/-- The width check of GET_KEY: W in 2..12 (40_subblock_reader.md R77). -/
def widthOk (w : BitVec 4) : Bool := decide (Config.minReadKey ≤ w.toNat) && decide (w.toNat ≤ Config.maxKey)

/-- GET_KEY as a part that may raise (40_subblock_reader.md R77). -/
def getKeyCommand (w : BitVec 4) (s : State) : Res Unit :=
  if widthOk w then (getKey w.toNat s).andThen fun k s => .done () (s.setKeyOut k) else .raised .badWidth s

/-- GET_KEY (40_subblock_reader.md R77). -/
def execGetKey (w : BitVec 4) (s : State) : Host.Outcome State Fault Refusal := endCommand (getKeyCommand w s)

end Sys2Proof.Machine
end

