-- ==== Sys2Proof/Machine/Decompressor.lean ====
section
/-! DEFINITION. The LZW decompressor: DECODE (41_lzw.md R78 to R100), in the steps of its pseudocode. -/

namespace Sys2Proof.Machine

/-! Pixel placement. -/

/-- `ILI(h, y)`: the display row of stored row y of an interlaced image of h rows (41_lzw.md R98). -/
def interlacedLine (h y : Nat) : Nat :=
  let n1 := (h + 7) / 8
  let n2 := (h + 3) / 8
  let n3 := (h + 1) / 4
  if y < n1 then 8 * y
  else if y < n1 + n2 then 8 * (y - n1) + 4
  else if y < n1 + n2 + n3 then 4 * (y - n1 - n2) + 2
  else 2 * (y - n1 - n2 - n3) + 1

/-- The rectangle row a stored row goes to: remapped when INTERLACE = 1 (41_lzw.md R97). -/
def State.displayRow (s : State) (y : Nat) : Nat :=
  if s.ctrl.interlace then interlacedLine s.rect.fh.toNat y else y

/-- The FRAME index of linear offset p of the frame rectangle (41_lzw.md R97). -/
def State.pixelCell (s : State) (p : Nat) : Nat :=
  s.cellIndex (s.rect.fx.toNat + p % s.rect.fw.toNat) (s.rect.fy.toNat + s.displayRow (p / s.rect.fw.toNat))

/-- `PutPixel(p, v)`: a pixel at or past FW * FH is dropped (41_lzw.md R97). -/
def putPixel (p : Nat) (v : Byte) (s : State) : State :=
  if s.rect.fw.toNat * s.rect.fh.toNat ≤ p then s else s.writeFrame (s.pixelCell p) v

/-! Initialisation. -/

/-- The literal alphabet: T[i] <- LEN 1, PREFIX 0xFFF, SUFFIX i for every i below `n` (41_lzw.md R82). -/
def writeLiterals : Nat → State → State
  | 0, s => s
  | n + 1, s =>
    (writeLiterals n s).writeEntry n { len := 1, parent := Config.sentinel, suffix := BitVec.ofNat 8 n }

/-- Initialisation, after the pre-scan (41_lzw.md R82). -/
def startDecode (m : Nat) (s : State) : State :=
  let s := writeLiterals (clearCode m) s
  brReset (s.setLzw (s.lzw.start m))

/-! One round of the loop. -/

/-- The new entry of an append: LEN = PREV_LEN + 1, PREFIX = CODE, SUFFIX = FIRST (41_lzw.md R85). -/
def newEntry (l : Lzw) : Entry :=
  { len := BitVec.ofNat 16 (l.prevLen.toNat + 1), parent := l.code, suffix := l.first }

/-- The table step for the code in CODE: clear, append or frozen (41_lzw.md R84, R85, R86, R87). -/
def tableStep (m : Nat) (s : State) : Res Unit :=
  if s.lzw.code.toNat = clearCode m then .done () (s.setLzw (s.lzw.clear m))
  else if s.lzw.full then .done () (s.setLzw s.lzw.frozen)
  else if s.lzw.nentries.toNat = Config.tableCap then .raised .tableOverflow s
  else
    let s := s.writeEntry s.lzw.nentries.toNat (newEntry s.lzw)
    .done () (s.setLzw s.lzw.appended)

/-- `CODE <- GetKey(KS)`: CODE is written only when the read succeeds (41_lzw.md R88, 40_subblock_reader.md R73). -/
def nextCode (s : State) : Res Code :=
  (getKey s.lzw.ks.toNat s).andThen fun k s => .done k (s.setLzw { s.lzw with code := k })

/-- The walk down a prefix chain from entry `e`, one pixel an entry; answers the root's suffix. A chain has at most
`TABLE_CAP` entries (41_lzw.md R91, R99, 70_reset_and_hazards.md R136). -/
def walkChain : Nat → Nat → State → Res Byte
  | 0, _, _ => .faulted .endlessLoop
  | fuel + 1, e, s =>
    let t := s.entryAt e
    let s := putPixel (s.lzw.off.toNat + t.len.toNat - 1) t.suffix s
    if t.parent = Config.sentinel then .done t.suffix s else walkChain fuel t.parent.toNat s

/-- Resolve the data code in CODE (41_lzw.md R91). -/
def resolveCode (s : State) : Res Unit :=
  let len := (s.entryAt s.lzw.code.toNat).len
  (walkChain Config.tableCap s.lzw.code.toNat s).andThen fun first s => .done () (s.setLzw (s.lzw.resolved len first))

/-- The fix-up: T[NENTRIES - 1].SUFFIX <- FIRST when PATCH_EN = 1 (41_lzw.md R92). -/
def fixUp (s : State) : State :=
  if s.lzw.patchEn then
    s.writeEntry (s.lzw.nentries.toNat - 1) { s.entryAt (s.lzw.nentries.toNat - 1) with suffix := s.lzw.first }
  else s

/-- A data code that has been read: the check, the growth, the resolve and the fix-up (41_lzw.md R89 to R92). -/
def dataCode (s : State) : Res Unit :=
  if s.lzw.nentries.toNat ≤ s.lzw.code.toNat then .raised .badCode s
  else (resolveCode (s.setLzw s.lzw.applyGrowth)).andThen fun _ s => .done () (fixUp s)

/-- One round of DECODE's loop; answers whether the loop goes on (41_lzw.md R78, R84 to R92). -/
def decodeRound (m : Nat) (s : State) : Res Bool :=
  (tableStep m s).andThen fun _ s =>
    (nextCode s).andThen fun k s =>
      if k.toNat = clearCode m then .done true s
      else if k.toNat = stopCode m then .done false s
      else (dataCode s).andThen fun _ s => .done true s

/-- DECODE's loop. Every round reads at least one bit of the stream, so 8 * S_LEN + 1 rounds are enough
(70_reset_and_hazards.md R136). -/
def decodeLoop (m : Nat) : Nat → State → Res Unit
  | 0, _ => .faulted .endlessLoop
  | fuel + 1, s =>
    (decodeRound m s).andThen fun goOn s => if goOn then decodeLoop m fuel s else .done () s

/-! The command. -/

/-- The first code, which must be the clear code, and then the loop (41_lzw.md R83). -/
def decodeCodes (m : Nat) (s : State) : Res Unit :=
  (nextCode s).andThen fun k s =>
    if k.toNat = clearCode m then decodeLoop m (8 * s.stream.length + 1) s else .raised .noClearCode s

/-- The part between the pre-scan and the tail, with the byte discarded after stop (41_lzw.md R82, R83, R94). -/
def decodeImage (m : Nat) (s : State) : Res Unit :=
  (decodeCodes m (startDecode m s)).andThen fun _ s => (streamRead8 s).andThen fun _ s => .done () s

/-- The tail: every exit after the pre-scan seeks to the pre-scanned end (41_lzw.md R94, R95). -/
def seekAtEnd (endPos : BitVec 32) (r : Res Unit) : Res Unit :=
  match r with
  | .done a s => .done a (streamSeek endPos s)
  | .raised st s => .raised st (streamSeek endPos s)
  | .faulted f => .faulted f

/-- The code-size byte (41_lzw.md R80). -/
def readCodeSize (s : State) : Res Nat :=
  (streamRead8 s).andThen fun m s =>
    if m.toNat < Config.minCodeSize || Config.maxCodeSize < m.toNat then .raised .badCodeSize s else .done m.toNat s

/-- DECODE as a part that may raise: the rectangle check, the code-size byte, the pre-scan and its rewind, then the image
(41_lzw.md R78 to R81). -/
def decodeCommand (s : State) : Res Unit :=
  if s.rectFits then
    (readCodeSize s).andThen fun m s =>
      let start := streamPos s
      (skipSubBlocks s).andThen fun _ s => seekAtEnd (streamPos s) (decodeImage m (streamSeek start s))
  else .raised .badRect s

/-- DECODE (41_lzw.md R78). -/
def execDecode (s : State) : Host.Outcome State Fault Refusal := endCommand (decodeCommand s)

end Sys2Proof.Machine
end

