-- ==== Sys2Proof/Machine/Dispatch.lean ====
section
/-! DEFINITION. One arm per command (30_encoding.md R62). -/

namespace Sys2Proof.Machine

def exec (i : Instr) (s : State) : Host.Outcome State Fault Refusal :=
  match i with
  | .init => Sys2Proof.Machine.execInit s
  | .skip => Sys2Proof.Machine.execSkip s
  | .decode => Sys2Proof.Machine.execDecode s
  | .dispose => Sys2Proof.Machine.execDispose s
  | .palWrite sel index color => Sys2Proof.Machine.execPalWrite sel index color s
  | .brReset => Sys2Proof.Machine.execBrReset s
  | .getKey w => Sys2Proof.Machine.execGetKey w s

end Sys2Proof.Machine
end

