-- ==== Sys2Proof/Machine/HostPort.lean ====
section
/-! DEFINITION. What the host, the renderer and the platform do to the block, one interaction at a time
(70_reset_and_hazards.md R137), a CMD write among them (10_state.md R31). -/

namespace Sys2Proof.Machine

/-- A reserved word performs BadCommand: STATUS only (30_encoding.md R63). -/
def badCommand (s : State) : Host.Outcome State Fault Refusal := endCommand (.raised .badCommand s)

/-- The command a word encodes, or BadCommand (30_encoding.md R62, R63). -/
def performWord (w : Word) (s : State) : Host.Outcome State Fault Refusal :=
  match decodeWord w with
  | .instr i => exec i s
  | .reject _ => badCommand s

/-- A command's end: the STATUS it left joins the run's sequence (70_reset_and_hazards.md R138). -/
def recordStatus (o : Host.Outcome State Fault Refusal) : Host.Outcome State Fault Refusal :=
  match o with
  | .next s => .next s.logStatus
  | .fault f => .fault f
  | .refused r => .refused r

/-- A host write of a CMD word (10_state.md R31). -/
def commandWrite (w : Word) (s : State) : Host.Outcome State Fault Refusal := recordStatus (performWord w s)

/-- `MemWrite(a, 4, v)` (20_memory.md R38): a CMD write performs a command, any other write is a register write. -/
def memWrite (addr v : Word) (s : State) : Host.Outcome State Fault Refusal :=
  match regAt addr with
  | .cmd => commandWrite v s
  | r => .next (s.writeReg r v)

/-- `MemRead(a, 4)` (20_memory.md R38): no side effect (20_memory.md R51). -/
def memRead (addr : Word) (s : State) : Word := s.readReg (regAt addr)

/-- The host's own StreamRead8 between commands: a byte, or the end of the stream with POS unchanged; the block does
nothing (20_memory.md R44, 70_reset_and_hazards.md R137; notes/assumptions/7.md). -/
def hostStreamRead (s : State) : State :=
  match s.stream[s.pos.toNat]? with
  | some b => (s.setPos (s.pos + 1)).reply (.byte b)
  | none => s.reply .streamEnd

/-- A renderer read: its value is given back, or the run has no end state (70_reset_and_hazards.md R138). -/
def answerPort {α : Type} (p : PortRead α) (wrap : α → Reply) (s : State) : Host.Outcome State Fault Refusal :=
  match p with
  | .value v => .next (s.reply (wrap v))
  | .faulted f => .fault f

/-- One interaction (70_reset_and_hazards.md R137, R123). -/
def interact (a : Interaction) (s : State) : Host.Outcome State Fault Refusal :=
  match a with
  | .writeReg addr v => memWrite addr v s
  | .readReg addr => .next (s.reply (.word (memRead addr s)))
  | .streamRead => .next (hostStreamRead s)
  | .streamSeek p => .next (streamSeek p s)
  | .streamPos => .next (s.reply (.position (streamPos s)))
  | .frameRead i => answerPort (framePort s i) .pixel s
  | .canvasRead i => answerPort (canvasPort s i) .color s
  | .view x y => answerPort (viewPort s x y) .color s
  | .hardReset => .next s.hardReset

/-- The next pending interaction is performed; with none pending the block is idle and holds its state
(60_exceptions.md R122, 70_reset_and_hazards.md R138). -/
def performNext (s : State) : Host.Outcome State Fault Refusal :=
  match s.pending with
  | [] => .next s
  | a :: rest => interact a (s.setPending rest)

/-- `s` with a CMD write of `w` as the next interaction. -/
def State.withCommand (s : State) (w : Word) : State := s.setPending (.writeReg Reg.cmd.offset w :: s.pending)

end Sys2Proof.Machine
end

