-- ==== Sys2Proof/Machine/HostProgram.lean ====
section
/-! DEFINITION. How a host program is written: the lines of 30_encoding.md R66, the pseudo-instructions of R67, the frame
step of 70_reset_and_hazards.md R126, and the two host parameters REG_BASE and GCE_POLICY. No rule of the block reads
anything here. -/

namespace Sys2Proof.Machine

/-- One line of a host program (30_encoding.md R66). -/
inductive Line where
  /-- a command -/
  | cmd (i : Instr)
  /-- WR register, value -/
  | wr (r : Reg) (v : Word)
  /-- RD register -/
  | rd (r : Reg)
  /-- SEEK p, the host's own stream move -/
  | seek (p : BitVec 32)
  deriving DecidableEq, Repr

/-- The interaction a line stands for (30_encoding.md R66). -/
def Line.interaction : Line → Interaction
  | .cmd i => .writeReg Reg.cmd.offset (encode i)
  | .wr r v => .writeReg r.offset v
  | .rd r => .readReg r.offset
  | .seek p => .streamSeek p

/-- SET_RECT x, y, w, h (30_encoding.md R67). -/
def setRectLines (x y w h : BitVec 16) : List Line :=
  [.wr .framePos ((y.setWidth 32 <<< 16) ||| x.setWidth 32), .wr .frameSize ((h.setWidth 32 <<< 16) ||| w.setWidth 32)]

/-- SET_CTRL il, lp (30_encoding.md R67). -/
def setCtrlLines (il lp : BitVec 1) : List Line := [.wr .frameCtrl ((lp.setWidth 32 <<< 1) ||| il.setWidth 32)]

/-- The GCE word of disposal d, transparency t, transparent index ti and delay dl (30_encoding.md R67). -/
def gceWord (d : BitVec 3) (t : BitVec 1) (ti : Byte) (dl : BitVec 16) : Word :=
  (dl.setWidth 32 <<< 16) ||| (ti.setWidth 32 <<< 8) ||| (t.setWidth 32 <<< 3) ||| d.setWidth 32

/-- SET_GCE d, t, ti, dl; the three-operand form has dl = 0 (30_encoding.md R67). -/
def setGceLines (d : BitVec 3) (t : BitVec 1) (ti : Byte) (dl : BitVec 16) : List Line := [.wr .gce (gceWord d t ti dl)]

/-- LOAD_PAL from entry `n` on (30_encoding.md R67). DESIGN CHOICE: past entry 255, where the spec gives no expansion, the
index goes on from 0 (notes/assumptions/14.md). -/
def loadPalFrom (sel : PalSel) : Nat → List Color → List Line
  | _, [] => []
  | n, c :: rest => .cmd (.palWrite sel (BitVec.ofNat 8 n) c) :: loadPalFrom sel (n + 1) rest

/-- LOAD_PAL G|L, c0, ..., cn (30_encoding.md R67); a list of more than 256 colours is not well formed (`paletteWf`). -/
def loadPalLines (sel : PalSel) (colors : List Color) : List Line := loadPalFrom sel 0 colors

/-- OPEN bg, c0, ..., cn (30_encoding.md R67, 70_reset_and_hazards.md R125). -/
def openLines (bg : Byte) (colors : List Color) : List Line :=
  .wr .bg (bg.setWidth 32) :: (loadPalLines .gpal colors ++ [.cmd .init])

/-- FRAME d, t, ti, x, y, w, h, il, lp (30_encoding.md R67). -/
def frameLines (d : BitVec 3) (t : BitVec 1) (ti : Byte) (x y w h : BitVec 16) (il lp : BitVec 1) : List Line :=
  .cmd .dispose :: (setGceLines d t ti 0 ++ setRectLines x y w h ++ setCtrlLines il lp ++ [.cmd .decode])

/-- What the host writes to GCE for an image: its own word, or by GCE_POLICY the last one again or 0
(70_reset_and_hazards.md R126). -/
def gceForImage (policy : GcePolicy) (last : Word) (own : Option Word) : Word :=
  match own with
  | some w => w
  | none =>
    match policy with
    | .persist => last
    | .nextOnly => 0

/-- One frame step of the host, with the image's own GCE word and local colour table if it has them; LPAL_SEL = 1 if and
only if the table is present (70_reset_and_hazards.md R126, R129). -/
def frameStepLines (policy : GcePolicy) (last : Word) (own : Option Word) (x y w h : BitVec 16) (il : BitVec 1)
    (table : Option (List Color)) (codeSizeAt : BitVec 32) : List Line :=
  .cmd .dispose ::
    (.wr .gce (gceForImage policy last own) ::
      (setRectLines x y w h ++ loadPalLines .lpal (table.getD []) ++
        setCtrlLines il (if table.isSome then 1 else 0) ++ [.seek codeSizeAt, .cmd .decode, .rd .status]))

/-- The frame step of a host that follows the parameter GCE_POLICY (70_reset_and_hazards.md R126). -/
def hostFrameStep (last : Word) (own : Option Word) (x y w h : BitVec 16) (il : BitVec 1)
    (table : Option (List Color)) (codeSizeAt : BitVec 32) : List Line :=
  frameStepLines Config.gcePolicy last own x y w h il table codeSizeAt

/-- The host address of a register: REG_BASE plus its offset (20_memory.md R52). DESIGN CHOICE: the sum is taken modulo
2^32 (notes/assumptions/13.md). -/
def hostAddress (r : Reg) : Word := Config.regBase + r.offset

/-- The port address the platform makes of a host address, by placing the window at REG_BASE (20_memory.md R38, R52;
DEDUCED, notes/assumptions/6.md). DESIGN CHOICE: the difference is taken modulo 2^32 (notes/assumptions/13.md). -/
def portAddress (addr : Word) : Word := addr - Config.regBase

/-- A state with a host program to run. -/
def State.withProgram (s : State) (lines : List Line) : State := s.setPending (lines.map Line.interaction ++ s.pending)

end Sys2Proof.Machine
end

