-- ==== Sys2Proof/WellFormed.lean ====
section
/-! DEFINITION. What is well formed before anything runs: a command word (30_encoding.md R60, R63), the stream's length
and the canvas size (00_scope.md R8). Every operand field of `Instr` has exactly the width of its encoding, so every term
of `Instr` is an instruction the encoding admits; a GET_KEY width outside 2..12 is well formed too, since it decodes and
the command itself ends BadWidth (95_test_vectors.md section 2). -/

namespace Sys2Proof

/-- Every term of `Instr` is encodable: its operands carry their widths in their types (30_encoding.md R61). -/
def Instr.wf : Instr → Bool
  | .init => true
  | .skip => true
  | .decode => true
  | .dispose => true
  | .palWrite _ _ _ => true
  | .brReset => true
  | .getKey _ => true

/-- OP is one of 0x1..0x7; 0x0 and 0x8..0xF are reserved (30_encoding.md R62, R63). -/
def opAssigned (w : Word) : Bool :=
  decide (1 ≤ (w.extractLsb' 0 4).toNat) && decide ((w.extractLsb' 0 4).toNat ≤ 7)

/-- The must-be-zero bits of the word's format are zero (30_encoding.md R60). -/
def mbzZero (w : Word) : Bool :=
  match (w.extractLsb' 0 4).toNat with
  | 5 => w.extractLsb' 5 3 == 0
  | 7 => w.extractLsb' 8 24 == 0
  | _ => w.extractLsb' 4 28 == 0

/-- A word that is exactly one command (30_encoding.md R62). -/
def commandWordWf (w : Word) : Bool := opAssigned w && mbzZero w

/-- The stream is no longer than S_LEN may be (00_scope.md R8). -/
def streamWf (bytes : List Byte) : Bool := decide (bytes.length ≤ Config.maxStreamLen)

/-- The colours of LOAD_PAL or OPEN have an entry each: at most PAL_ENTRIES of them (30_encoding.md R67). -/
def paletteWf (colors : List Color) : Bool := decide (colors.length ≤ Config.palEntries)

/-- CANVAS_W and CANVAS_H are each 1..65535 (00_scope.md R8). -/
def canvasWf (w h : BitVec 16) : Bool := decide (1 ≤ w.toNat) && decide (1 ≤ h.toNat)

end Sys2Proof
end

