-- ==== Sys2Proof/Safety.lean ====
section
/-! DEFINITION. The terms claims are made in: what a legal state is, what a run observes, and the functions the spec
describes in words (the code stream, the end of a sub-block sequence, the strings of the codes, the interlace passes),
written apart from the machine's own loops. -/

namespace Sys2Proof.Safety

open Sys2Proof.Machine

/-! Legal states. -/

/-- The ranges of the LZW registers a host can read: NENTRIES <= 4096, FULL exactly at 4096, KS <= 12, GROW only below 12
(10_state.md R15, 41_lzw.md R99). -/
def LzwLegal (l : Lzw) : Prop :=
  l.nentries.toNat ≤ Config.tableCap ∧ (l.full = true ↔ l.nentries.toNat = Config.tableCap) ∧
    l.ks.toNat ≤ Config.maxKey ∧ (l.grow = true → l.ks.toNat < Config.maxKey)

/-- Every memory is in canonical form, with entries only where the spec gives it cells (20_memory.md R37). -/
def MemoriesCanonical (s : State) : Prop :=
  Memory.wf tableUnlisted Config.tableCap s.table ∧ Memory.wf paletteUnlisted Config.palEntries s.gpal ∧
    Memory.wf paletteUnlisted Config.palEntries s.lpal ∧ Memory.wf frameUnlisted s.cells s.frame ∧
    Memory.wf canvasUnlisted s.cells s.canvas

/-- The parameters are in the ranges of 00_scope.md R8. -/
def ParamsLegal (s : State) : Prop := canvasWf s.canvasW s.canvasH = true ∧ streamWf s.stream = true

/-- The invariant of every step. -/
def LegalState (s : State) : Prop := ParamsLegal s ∧ MemoriesCanonical s ∧ LzwLegal s.lzw

/-- Every cell of FRAME and of CANVAS has a value, as after INIT (42_compositor.md R103). -/
def AllWritten (s : State) : Prop := ∀ i, i < s.cells → s.frameAt i ≠ none ∧ s.canvasAt i ≠ none

/-- A renderer read names a cell of the canvas (20_memory.md R39, R59); every other interaction is in range. -/
def InRange (s : State) : Interaction → Prop
  | .frameRead i => i < s.cells
  | .canvasRead i => i < s.cells
  | .view x y => x < s.width ∧ y < s.height
  | _ => True

/-- The statuses a command may end with (60_exceptions.md R111, R113), but for TableOverflow, which is unreachable
(41_lzw.md R99 point 5). -/
def mayEndWith : Instr → Status → Bool
  | .init, st => st == .ok
  | .skip, st => st == .ok || st == .streamEnd
  | .decode, st =>
    st == .ok || st == .badRect || st == .badCodeSize || st == .noClearCode || st == .badCode || st == .endOfData ||
      st == .streamEnd
  | .dispose, st => st == .ok || st == .badRect
  | .palWrite _ _ _, st => st == .ok
  | .brReset, st => st == .ok
  | .getKey _, st => st == .ok || st == .badWidth || st == .endOfData || st == .streamEnd

/-- The read-write registers (10_state.md R18). -/
def writable : Reg → Bool
  | .bg => true
  | .framePos => true
  | .frameSize => true
  | .frameCtrl => true
  | .gce => true
  | _ => false

/-- The bits of a read-write register that are fields (10_state.md R18, R21 to R24). -/
def fieldMask : Reg → Word
  | .bg => 0x000000FF
  | .framePos => 0xFFFFFFFF
  | .frameSize => 0xFFFFFFFF
  | .frameCtrl => 0x00000003
  | .gce => 0xFFFFFF0F
  | _ => 0

/-! The state of DECODE's loop. -/

/-- FULL, GROW, KS and NENTRIES fit together (41_lzw.md R86, R90, R99 points 1 and 2). -/
def WidthsFit (l : Lzw) : Prop :=
  (l.full = true → l.nentries.toNat = Config.tableCap ∧ l.ks.toNat = Config.maxKey ∧ l.grow = false) ∧
    (l.full = false → l.nentries.toNat < Config.tableCap ∧ l.ks.toNat ≤ Config.maxKey ∧
      (l.grow = true → l.nentries.toNat = 2 ^ l.ks.toNat) ∧
      (l.grow = false → 2 ^ (l.ks.toNat - 1) ≤ l.nentries.toNat ∧ l.nentries.toNat < 2 ^ l.ks.toNat))

/-- Code `k` is a data code that names a defined entry (41_lzw.md R89). -/
def DataCode (m : Nat) (l : Lzw) (k : Nat) : Prop := k < l.nentries.toNat ∧ k ≠ clearCode m ∧ k ≠ stopCode m

/-- The prefix chains of T: the literals, and above them entries that point down to defined data codes
(41_lzw.md R99 points 3 and 4). -/
def ChainsWellFormed (m : Nat) (s : State) : Prop :=
  (∀ i, i < clearCode m →
    s.entryAt i = { len := 1, parent := Config.sentinel, suffix := BitVec.ofNat 8 i }) ∧
    ∀ j, j < s.lzw.nentries.toNat → clearCode m + 2 ≤ j →
      (s.entryAt j).parent.toNat < j ∧ (s.entryAt j).parent.toNat ≠ clearCode m ∧
        (s.entryAt j).parent.toNat ≠ stopCode m ∧
        (s.entryAt j).len.toNat = (s.entryAt (s.entryAt j).parent.toNat).len.toNat + 1 ∧
        (s.entryAt j).len.toNat ≤ j - clearCode m

/-- What holds at the head of DECODE's loop (41_lzw.md R99). -/
def LoopInvariant (m : Nat) (s : State) : Prop :=
  Config.minCodeSize ≤ m ∧ m ≤ Config.maxCodeSize ∧ s.lzw.initKs.toNat = m + 1 ∧
    clearCode m + 2 ≤ s.lzw.nentries.toNat ∧ WidthsFit s.lzw ∧ ChainsWellFormed m s ∧
    (s.lzw.code.toNat = clearCode m ∨
      (DataCode m s.lzw s.lzw.code.toNat ∧ s.lzw.grow = false ∧
        s.lzw.prevLen = (s.entryAt s.lzw.code.toNat).len))

/-! The sub-block sequence as a function of the bytes. -/

/-- The data bytes of a sub-block sequence, with `rem` bytes of the current sub-block still to come
(40_subblock_reader.md R69, R70). -/
def payload : Nat → List Byte → List Byte
  | _, [] => []
  | 0, len :: rest => if len = 0 then [] else payload len.toNat rest
  | rem + 1, b :: rest => b :: payload rem rest

/-- The sequence ends in a terminator, not in the end of the stream (40_subblock_reader.md R69). -/
def hasTerminator : Nat → List Byte → Bool
  | _, [] => false
  | 0, len :: rest => len = 0 || hasTerminator len.toNat rest
  | rem + 1, _ :: rest => hasTerminator rem rest

/-- How far the discard routine moves POS: to just past the terminator, or to the length byte it cannot read
(40_subblock_reader.md R74, R75). -/
def discardLength : Nat → List Byte → Nat
  | rem, [] => rem
  | 0, len :: rest => if len = 0 then 1 else discardLength len.toNat rest + 1
  | rem + 1, _ :: rest => discardLength rem rest + 1

/-- How far the reader moves POS to take `n` data bytes: it reads a length byte only when it wants a data byte and the
current sub-block is exhausted (40_subblock_reader.md R72). -/
def readLength : Nat → Nat → List Byte → Nat
  | _, _, [] => 0
  | 0, _, _ :: _ => 0
  | n + 1, 0, len :: rest => readLength (n + 1) len.toNat rest + 1
  | n + 1, rem + 1, _ :: rest => readLength n rem rest + 1

/-- How many bytes of the current sub-block are left when the reader has taken `n` data bytes
(40_subblock_reader.md R72). -/
def blockLeft : Nat → Nat → List Byte → Nat
  | _, rem, [] => rem
  | 0, rem, _ :: _ => rem
  | n + 1, 0, len :: rest => blockLeft (n + 1) len.toNat rest
  | n + 1, rem + 1, _ :: rest => blockLeft n rem rest

/-! The code stream as a list of bits. -/

/-- The bits of a byte, least significant first (20_memory.md R47). -/
def byteBits (b : Byte) : List Bool := (List.range 8).map b.getLsbD

/-- The bits of a code of width `w`, least significant first (20_memory.md R47). -/
def codeBits (w : Nat) (k : Code) : List Bool := (List.range w).map k.getLsbD

/-- The unread bits of the byte in CUR_BYTE: none while SHIFT = 0 (40_subblock_reader.md R72). -/
def loadedBits (r : BitReader) : List Bool :=
  if r.shift = 0 then [] else (byteBits r.curByte).drop r.shift.toNat

/-- The code stream from the reader's state on: the unread bits of CUR_BYTE, then those of the data bytes that follow
(40_subblock_reader.md R70, 20_memory.md R47). -/
def unreadBits (s : State) : List Bool :=
  loadedBits s.reader ++ (payload s.reader.sbRem.toNat (s.stream.drop s.pos.toNat)).flatMap byteBits

/-- How many data bytes a read of `w` bits loads: those of the bits that CUR_BYTE does not hold
(40_subblock_reader.md R72). -/
def bytesNeeded (w : Nat) (r : BitReader) : Nat := (w - (loadedBits r).length + 7) / 8

/-! LZW as strings. -/

/-- The number whose bits, least significant first, are given. -/
def bitsToNat : List Bool → Nat
  | [] => 0
  | b :: rest => b.toNat + 2 * bitsToNat rest

/-- The width that addresses `n` entries: the bits of the largest index n - 1 (41_lzw.md R90, R99 point 2). -/
def codeWidth (n : Nat) : Nat := Nat.log2 (n - 1) + 1

/-- The string of a data code: a literal, an entry of the dictionary, or the entry being made, which is the previous
string with its own first pixel after it (41_lzw.md R85, R91). -/
def stringOf (m : Nat) (dict : List (List Byte)) (prev : List Byte) (c : Nat) : List Byte :=
  if c < clearCode m then [BitVec.ofNat 8 c]
  else (dict[c - (clearCode m + 2)]?).getD (prev ++ prev.take 1)

/-- The dictionary after a data code: the previous string with the first pixel of this one, unless there is no previous
string or the table is full (41_lzw.md R85, R87, R92). -/
def extendDict (full : Bool) (dict : List (List Byte)) (prev : Option (List Byte)) (str : List Byte) : List (List Byte) :=
  match prev with
  | some p => if full then dict else dict ++ [p ++ str.take 1]
  | none => dict

/-- How an image ends when it is decoded over whole strings. -/
structure ImageEnd where
  /-- the status it ends with -/
  status : Status
  /-- all its pixels -/
  pixels : List Byte
  /-- the last code read, if one was -/
  code : Option Nat
  /-- the string of the last data code, if there was one -/
  last : Option (List Byte)
  /-- the number of table entries, clear and stop codes counted -/
  entries : Nat
  /-- PATCH_EN as the last table step wrote it, if there was one -/
  patch : Option Bool
  /-- the bits of the code stream not yet taken -/
  rest : List Bool
  deriving DecidableEq, Repr

/-- The codes after the first clear, decoded over whole strings: `dict` holds the strings of the entries above the stop
code, `fresh` says that the code before was a clear, `e` is what has been done so far. Each code takes at least one bit, so
`fuel` above the number of bits never runs out (41_lzw.md R84 to R92, R94, R95). -/
def referenceCodes (m : Nat) : Nat → List (List Byte) → Bool → ImageEnd → ImageEnd
  | 0, _, _, e => e
  | fuel + 1, dict, fresh, e =>
    let prev := if fresh then none else e.last
    let full := decide (clearCode m + 2 + dict.length = Config.tableCap)
    let n := clearCode m + 2 + dict.length + (if prev.isSome && !full then 1 else 0)
    let w := codeWidth n
    let e := { e with entries := n, patch := some !full }
    if e.rest.length < w then { e with status := .endOfData }
    else
      let c := bitsToNat (e.rest.take w)
      let e := { e with code := some c, rest := e.rest.drop w }
      if c = clearCode m then referenceCodes m fuel [] true e
      else if c = stopCode m then { e with status := .ok }
      else if n ≤ c then { e with status := .badCode }
      else
        let str := stringOf m dict (prev.getD []) c
        referenceCodes m fuel (extendDict full dict prev str) false { e with last := some str, pixels := e.pixels ++ str }

/-- One image: the first code must be the clear code (41_lzw.md R83), then the codes. -/
def referenceImage (m : Nat) (bits : List Bool) : ImageEnd :=
  let e : ImageEnd :=
    { status := .endOfData, pixels := [], code := none, last := none, entries := clearCode m + 2, patch := none,
      rest := bits }
  if bits.length < m + 1 then e
  else
    let c := bitsToNat (bits.take (m + 1))
    let e := { e with code := some c, rest := bits.drop (m + 1) }
    if c = clearCode m then referenceCodes m (bits.length + 1) [] true e else { e with status := .noClearCode }

/-! The interlace passes. -/

/-- The rows of the four passes in the order they are stored: every 8th from 0, every 8th from 4, every 4th from 2, every
2nd from 1 (41_lzw.md R98). -/
def passRows (h : Nat) : List Nat :=
  (List.range h).filter (fun r => r % 8 = 0) ++ (List.range h).filter (fun r => r % 8 = 4) ++
    (List.range h).filter (fun r => r % 4 = 2) ++ (List.range h).filter (fun r => r % 2 = 1)

/-! What a run observes. -/

/-- Two outcomes that differ at most in the contents of T (70_reset_and_hazards.md R138). -/
def AgreeButTable : Host.Outcome State Fault Refusal → Host.Outcome State Fault Refusal → Prop
  | .next s, .next t => s.setTable t.table = t
  | .fault f, .fault g => f = g
  | .refused r, .refused q => r = q
  | _, _ => False

/-- The state with another frame delay in GCE.DELAY. -/
def withDelay (d : BitVec 16) (s : State) : State := s.setGce { s.gce with delay := d }

/-- The outcome with its next state changed by `f`. -/
def mapNext (f : State → State) : Host.Outcome State Fault Refusal → Host.Outcome State Fault Refusal
  | .next s => .next (f s)
  | .fault e => .fault e
  | .refused r => .refused r

end Sys2Proof.Safety
end

