-- ==== Sys2Proof/Certificates/Slice0/Obligations.lean ====
section
/-! DEFINITION. The statements for the provers, each made from the numbered rules of spec/ that its docstring cites. -/

open Sys2Proof Sys2Proof.Machine Sys2Proof.Safety

/-! ## Encoding -/

/-- A word decodes to an instruction exactly when it is that instruction's encoding: no operand bit is dropped and no word
stands for two commands (30_encoding.md R60, R61, R62). -/
def Obligations.WordDecodesIffEncoded : Prop :=
  ∀ (w : Word) (i : Instr), decodeWord w = .instr i ↔ encode i = w

/-- A word with a reserved OP or a nonzero must-be-zero bit, told by arithmetic on the word, performs BadCommand: STATUS
takes code 1 and nothing else changes (30_encoding.md R63). -/
def Obligations.ReservedWordChangesStatusOnly : Prop :=
  ∀ (w : Word) (s : State),
    (w.toNat % 16 = 0 ∨ 8 ≤ w.toNat % 16 ∨ (w.toNat % 16 = 5 ∧ w.toNat / 32 % 8 ≠ 0) ∨
      (w.toNat % 16 = 7 ∧ w.toNat / 256 ≠ 0) ∨ (w.toNat % 16 ≠ 5 ∧ w.toNat % 16 ≠ 7 ∧ w.toNat / 16 ≠ 0)) →
    (∀ i, decodeWord w ≠ .instr i) ∧ performWord w s = .next (s.setStatus .badCommand) ∧
      Status.badCommand.toCode = 1

/-- The worked encodings of 30_encoding.md R68. -/
def Obligations.WorkedEncodings : Prop :=
  (encode .init = 0x00000001 ∧ encode .skip = 0x00000002 ∧ encode .decode = 0x00000003 ∧
    encode .dispose = 0x00000004 ∧ encode .brReset = 0x00000006 ∧
    encode (.palWrite .lpal 5 0xF800) = 0xF8000515 ∧ encode (.palWrite .gpal 255 0xFFFF) = 0xFFFFFF05 ∧
    encode (.getKey 9) = 0x00000097) ∧
  (decodeWord 0x00000001 = .instr .init ∧ decodeWord 0x00000002 = .instr .skip ∧
    decodeWord 0x00000003 = .instr .decode ∧ decodeWord 0x00000004 = .instr .dispose ∧
    decodeWord 0x00000006 = .instr .brReset ∧ decodeWord 0xF8000515 = .instr (.palWrite .lpal 5 0xF800) ∧
    decodeWord 0xFFFFFF05 = .instr (.palWrite .gpal 255 0xFFFF) ∧ decodeWord 0x00000097 = .instr (.getKey 9)) ∧
  decodeWord 0x00000013 = .reject .mbzNotZero

/-! ## One step of a run -/

/-- When the next interaction is a CMD write, the step is the execution of the command the word decodes to, with the
STATUS it leaves appended to the run's sequence; a word that is no command performs BadCommand (10_state.md R31,
30_encoding.md R62, 70_reset_and_hazards.md R138). -/
def Obligations.StepRunsDecodedCommand : Prop :=
  ∀ (s : State) (addr w : Word) (rest : List Interaction),
    s.pending = .writeReg addr w :: rest → regAt addr = .cmd →
    (∀ i, decodeWord w = .instr i →
      step s = match exec i (s.setPending rest) with
        | .next t => .next (t.setStatuses (t.statuses ++ [t.status]))
        | .fault f => .fault f
        | .refused r => .refused r) ∧
    (∀ r, decodeWord w = .reject r →
      step s = .next (((s.setPending rest).setStatus .badCommand).setStatuses (s.statuses ++ [.badCommand])))

/-- The word placed by `withFetchWord` is the command the very next step runs. -/
def Obligations.PlacedWordRunsNext : Prop :=
  ∀ (s : State) (i : Instr),
    step (s.withFetchWord 32 (encode i).toNat) = recordStatus (exec i s) ∧
      decodeTableWord 32 (encode i).toNat = some i

/-- With no interaction pending the block is idle and holds its state (60_exceptions.md R122). -/
def Obligations.IdleStepHoldsState : Prop :=
  ∀ s : State, s.pending = [] → step s = .next s

/-- A read changes no state of the block: a register read answers the register's value, a position query POS, and a
renderer read, where it answers, only adds its answer to the record of the run (20_memory.md R46, R51, R59). -/
def Obligations.ReadsChangeNoState : Prop :=
  ∀ (s : State) (rest : List Interaction),
    (∀ addr, s.pending = .readReg addr :: rest →
      step s = .next ((s.setPending rest).setReplies (s.replies ++ [.word (s.readReg (regAt addr))]))) ∧
    (s.pending = .streamPos :: rest →
      step s = .next ((s.setPending rest).setReplies (s.replies ++ [.position s.pos]))) ∧
    ∀ (i x y : Nat) (t : State),
      (s.pending = .frameRead i :: rest ∨ s.pending = .canvasRead i :: rest ∨ s.pending = .view x y :: rest) →
      step s = .next t → ∃ r, t = (s.setPending rest).setReplies (s.replies ++ [r])

/-- The renderer's ports: FrameRead and CanvasRead give the cell, and a cell nothing has written is a fault; a View read
gives the composite view of its pixel, or stops with the view's fault (20_memory.md R59, 42_compositor.md R109,
70_reset_and_hazards.md R124). -/
def Obligations.RendererPortsReadCells : Prop :=
  (∀ (s : State) (i : Nat) (rest : List Interaction), i < s.cells →
    (s.pending = .frameRead i :: rest →
      (∀ v, s.frameAt i = some v → step s = .next ((s.setPending rest).reply (.pixel v))) ∧
      (s.frameAt i = none → step s = .fault .unwrittenFrame)) ∧
    (s.pending = .canvasRead i :: rest →
      (∀ c, s.canvasAt i = some c → step s = .next ((s.setPending rest).reply (.color c))) ∧
      (s.canvasAt i = none → step s = .fault .unwrittenCanvas))) ∧
  ∀ (s : State) (x y : Nat) (rest : List Interaction), s.pending = .view x y :: rest →
    (∀ c, viewPort s x y = .value c → step s = .next ((s.setPending rest).reply (.color c))) ∧
    ∀ f, viewPort s x y = .faulted f → step s = .fault f

/-- Hardware reset: the values of 10_state.md R36 in every register and palette entry, no value in any FRAME or CANVAS
cell, and S, POS and the hardwired canvas size as they were (70_reset_and_hazards.md R123). That reset comes as an
interaction between two others is the model's (notes/assumptions/9.md), and so is the list of interactions to come, which
it leaves (notes/assumptions/4.md). -/
def Obligations.HardResetValues : Prop :=
  ∀ (s : State) (rest : List Interaction), s.pending = .hardReset :: rest →
    ∃ t, step s = .next t ∧
      t.status = .ok ∧ t.bg = 0 ∧ t.rect = { fx := 0, fy := 0, fw := 0, fh := 0 } ∧
      t.ctrl = { interlace := false, lpalSel := false } ∧
      t.gce = { disposal := 0, transp := false, tindex := 0, delay := 0 } ∧ t.keyOut = 0 ∧
      t.lzw = { nentries := 0, ks := 0, initKs := 0, full := false, grow := false, patchEn := false, code := 0,
                first := 0, prevLen := 0, off := 0 } ∧
      t.reader = { sbRem := 0, curByte := 0, shift := 0 } ∧
      (∀ i, t.gpalAt i = 0 ∧ t.lpalAt i = 0) ∧ (∀ i, t.frameAt i = none ∧ t.canvasAt i = none) ∧
      t.stream = s.stream ∧ t.pos = s.pos ∧ t.canvasW = s.canvasW ∧ t.canvasH = s.canvasH ∧ t.pending = rest

/-! ## The register port -/

/-- The port decodes address bits 7 to 2 and no others (20_memory.md R38). -/
def Obligations.PortIgnoresOtherAddressBits : Prop :=
  ∀ (a b v : Word) (s : State), a.toNat / 4 % 64 = b.toNat / 4 % 64 →
    memRead a s = memRead b s ∧ memWrite a v s = memWrite b v s

/-- A register write sets the fields of a read-write register, ignores its reserved bits, is ignored by every other
register, and touches nothing else (10_state.md R18, R21 to R24). -/
def Obligations.RegisterWriteReadBack : Prop :=
  ∀ (s : State) (addr v : Word), regAt addr ≠ .cmd →
    ∃ t, memWrite addr v s = .next t ∧
      (∀ r, memRead r.offset t =
        if r = regAt addr ∧ writable r = true then v &&& fieldMask r else memRead r.offset s) ∧
      t = { s with bg := t.bg, rect := t.rect, ctrl := t.ctrl, gce := t.gce }

/-- The numeric status codes (60_exceptions.md R111); the fields of the read-only registers, with every reserved bit 0
(10_state.md R19, R20, R25 to R30); CMD and every reserved offset read 0 (10_state.md R18, R31). -/
def Obligations.ReadOnlyRegisterFields : Prop :=
  (Status.ok.toCode = 0 ∧ Status.badCommand.toCode = 1 ∧ Status.badRect.toCode = 2 ∧ Status.badCodeSize.toCode = 3 ∧
    Status.noClearCode.toCode = 4 ∧ Status.badCode.toCode = 5 ∧ Status.endOfData.toCode = 6 ∧
    Status.tableOverflow.toCode = 7 ∧ Status.streamEnd.toCode = 8 ∧ Status.badWidth.toCode = 9) ∧
  (∀ (s : State) (a : Word), 14 ≤ a.toNat / 4 % 64 → memRead a s = 0) ∧
  ∀ s : State,
    (memRead 0x04 s).toNat = s.status.toCode.toNat ∧
    (memRead 0x08 s).toNat = s.canvasW.toNat + 2 ^ 16 * s.canvasH.toNat ∧
    (memRead 0x20 s).toNat = s.keyOut.toNat ∧
    (memRead 0x24 s).toNat = s.lzw.nentries.toNat + 2 ^ 16 * s.lzw.ks.toNat + 2 ^ 20 * s.lzw.initKs.toNat +
      2 ^ 24 * s.lzw.full.toNat + 2 ^ 25 * s.lzw.grow.toNat + 2 ^ 26 * s.lzw.patchEn.toNat ∧
    (memRead 0x28 s).toNat = s.reader.sbRem.toNat + 2 ^ 8 * s.reader.curByte.toNat + 2 ^ 16 * s.reader.shift.toNat ∧
    (memRead 0x2C s).toNat = s.lzw.off.toNat ∧
    (memRead 0x30 s).toNat = s.lzw.code.toNat + 2 ^ 16 * s.lzw.first.toNat ∧
    (memRead 0x34 s).toNat = s.lzw.prevLen.toNat ∧ memRead 0x00 s = 0

/-- The pseudo-instructions SET_RECT, SET_CTRL and SET_GCE write the fields they name (30_encoding.md R67), and a register
is found at REG_BASE plus its offset (20_memory.md R52), with host addresses of 32 bits that wrap, which is the model's
choice (notes/assumptions/6.md, notes/assumptions/13.md). -/
def Obligations.PseudoInstructionsWriteFields : Prop :=
  (∀ (s : State) (x y w h : BitVec 16) (rest : List Interaction),
    s.pending = (setRectLines x y w h).map Line.interaction ++ rest →
    ∃ u, step s = .next u ∧
      step u = .next ((s.setPending rest).setRect { fx := x, fy := y, fw := w, fh := h })) ∧
  (∀ (s : State) (il lp : BitVec 1) (rest : List Interaction),
    s.pending = (setCtrlLines il lp).map Line.interaction ++ rest →
    step s = .next ((s.setPending rest).setCtrl { interlace := il == 1, lpalSel := lp == 1 })) ∧
  (∀ (s : State) (d : BitVec 3) (t : BitVec 1) (ti : Byte) (dl : BitVec 16) (rest : List Interaction),
    s.pending = (setGceLines d t ti dl).map Line.interaction ++ rest →
    step s = .next ((s.setPending rest).setGce { disposal := d, transp := t == 1, tindex := ti, delay := dl })) ∧
  ∀ r : Reg, regAt (portAddress (hostAddress r)) = r

/-! ## The stream and the sub-block reader -/

/-- StreamRead8: at or past S_LEN it raises StreamEnd and POS is unchanged; else it gives S[POS] and POS advances by one.
StreamSeek sets POS to any 32-bit value (20_memory.md R44, R45). -/
def Obligations.StreamReadAndSeek : Prop :=
  ∀ s : State, streamWf s.stream = true →
    (s.stream.length ≤ s.pos.toNat → streamRead8 s = .raised .streamEnd s) ∧
    (∀ b, s.stream[s.pos.toNat]? = some b →
      ∃ t, streamRead8 s = .done b t ∧ t.pos.toNat = s.pos.toNat + 1 ∧ t = s.setPos t.pos) ∧
    ∀ p, (streamSeek p s).pos = p ∧ streamSeek p s = s.setPos (streamSeek p s).pos

/-- BR_RESET, word 0x00000006: SB_REM, SHIFT and CUR_BYTE are 0, STATUS is OK, nothing else changes, POS neither
(40_subblock_reader.md R76). -/
def Obligations.BrResetClearsReader : Prop :=
  encode .brReset = 0x00000006 ∧
    ∀ s : State, exec .brReset s = .next ((s.setReader { sbRem := 0, curByte := 0, shift := 0 }).setStatus .ok)

/-- SKIP moves POS to just past the terminator of the sub-block sequence at POS, or, where the stream ends first, to the
length byte it cannot read, with StreamEnd; it changes nothing else (40_subblock_reader.md R74, R75). -/
def Obligations.SkipDiscardsOneSequence : Prop :=
  ∀ s : State, streamWf s.stream = true →
    ∃ t, exec .skip s = .next t ∧
      t.pos.toNat = s.pos.toNat + discardLength 0 (s.stream.drop s.pos.toNat) ∧
      t.status = (if hasTerminator 0 (s.stream.drop s.pos.toNat) then .ok else .streamEnd) ∧
      t = (s.setPos t.pos).setStatus t.status

/-- GET_KEY W, W in 2..12, when the code stream has W unread bits: KEY is the number those bits make, least significant
first, the code stream goes on after them, the reader has read the data bytes those bits need with their length bytes and
nothing more, and only KEY_OUT, the reader, POS and STATUS change
(40_subblock_reader.md R70, R72, R77, 20_memory.md R47). -/
def Obligations.GetKeyReadsNextBits : Prop :=
  ∀ (s : State) (w : BitVec 4), streamWf s.stream = true → 2 ≤ w.toNat → w.toNat ≤ 12 →
    w.toNat ≤ (unreadBits s).length →
    ∃ t, exec (.getKey w) s = .next t ∧ t.status = .ok ∧
      codeBits w.toNat t.keyOut = (unreadBits s).take w.toNat ∧ t.keyOut.toNat < 2 ^ w.toNat ∧
      unreadBits t = (unreadBits s).drop w.toNat ∧
      t.reader.shift.toNat = (s.reader.shift.toNat + w.toNat) % 8 ∧
      t.pos.toNat = s.pos.toNat +
        readLength (bytesNeeded w.toNat s.reader) s.reader.sbRem.toNat (s.stream.drop s.pos.toNat) ∧
      t.reader.sbRem.toNat =
        blockLeft (bytesNeeded w.toNat s.reader) s.reader.sbRem.toNat (s.stream.drop s.pos.toNat) ∧
      t.reader.curByte =
        ((payload s.reader.sbRem.toNat (s.stream.drop s.pos.toNat)).take
          (bytesNeeded w.toNat s.reader)).getLastD s.reader.curByte ∧
      t = { s with keyOut := t.keyOut, reader := t.reader, pos := t.pos, status := t.status }

/-- GET_KEY W, W in 2..12, when the code stream has fewer than W unread bits and a terminator follows them: EndOfData, POS
just past the zero byte, SB_REM 0, CUR_BYTE the last data byte loaded, SHIFT and KEY_OUT unchanged
(40_subblock_reader.md R73, R77). -/
def Obligations.GetKeyMeetsTerminator : Prop :=
  ∀ (s : State) (w : BitVec 4), streamWf s.stream = true → 2 ≤ w.toNat → w.toNat ≤ 12 →
    (unreadBits s).length < w.toNat →
    hasTerminator s.reader.sbRem.toNat (s.stream.drop s.pos.toNat) = true →
    ∃ t, exec (.getKey w) s = .next t ∧ t.status = .endOfData ∧
      t.pos.toNat = s.pos.toNat + discardLength s.reader.sbRem.toNat (s.stream.drop s.pos.toNat) ∧
      t.reader.sbRem = 0 ∧ t.reader.shift = s.reader.shift ∧
      t.reader.curByte =
        (payload s.reader.sbRem.toNat (s.stream.drop s.pos.toNat)).getLastD s.reader.curByte ∧
      t = { s with reader := t.reader, pos := t.pos, status := t.status }

/-- GET_KEY W, W in 2..12, when the code stream has fewer than W unread bits and the stream ends without a terminator:
StreamEnd, every byte up to the end consumed, CUR_BYTE the last data byte loaded, SB_REM what its sub-block still lacks,
SHIFT and KEY_OUT unchanged (40_subblock_reader.md R72, R77, 60_exceptions.md R112). -/
def Obligations.GetKeyMeetsStreamEnd : Prop :=
  ∀ (s : State) (w : BitVec 4), streamWf s.stream = true → 2 ≤ w.toNat → w.toNat ≤ 12 →
    (unreadBits s).length < w.toNat →
    hasTerminator s.reader.sbRem.toNat (s.stream.drop s.pos.toNat) = false →
    ∃ t, exec (.getKey w) s = .next t ∧ t.status = .streamEnd ∧
      t.pos.toNat = max s.pos.toNat s.stream.length ∧ t.reader.shift = s.reader.shift ∧
      t.reader.curByte =
        (payload s.reader.sbRem.toNat (s.stream.drop s.pos.toNat)).getLastD s.reader.curByte ∧
      t.reader.sbRem.toNat =
        blockLeft ((payload s.reader.sbRem.toNat (s.stream.drop s.pos.toNat)).length + 1) s.reader.sbRem.toNat
          (s.stream.drop s.pos.toNat) ∧
      t = { s with reader := t.reader, pos := t.pos, status := t.status }

/-- GET_KEY W with W outside 2..12 ends BadWidth before any read, and nothing but STATUS changes
(40_subblock_reader.md R77). -/
def Obligations.GetKeyRefusesWidth : Prop :=
  ∀ (s : State) (w : BitVec 4), w.toNat < 2 ∨ 12 < w.toNat → exec (.getKey w) s = .next (s.setStatus .badWidth)

/-! ## DECODE -/

/-- DECODE and DISPOSE refuse a frame rectangle outside the canvas with BadRect, and nothing but STATUS changes
(41_lzw.md R79, 42_compositor.md R105). -/
def Obligations.RectOutsideCanvasRefused : Prop :=
  ∀ s : State,
    (s.canvasW.toNat < s.rect.fx.toNat + s.rect.fw.toNat ∨ s.canvasH.toNat < s.rect.fy.toNat + s.rect.fh.toNat) →
    exec .decode s = .next (s.setStatus .badRect) ∧ exec .dispose s = .next (s.setStatus .badRect)

/-- The code-size byte: no byte, StreamEnd with nothing else written; outside 2..8, BadCodeSize with POS just past it
(41_lzw.md R80). -/
def Obligations.CodeSizeByteChecked : Prop :=
  ∀ s : State, s.rectFits = true →
    (s.stream[s.pos.toNat]? = none → exec .decode s = .next (s.setStatus .streamEnd)) ∧
    ∀ m, s.stream[s.pos.toNat]? = some m → (m.toNat < 2 ∨ 8 < m.toNat) →
      exec .decode s = .next ((s.setPos (s.pos + 1)).setStatus .badCodeSize)

/-- A pre-scan that finds no terminator ends DECODE with StreamEnd, POS where the failing read found it and nothing else
written (41_lzw.md R81). -/
def Obligations.TruncatedImageRefused : Prop :=
  ∀ (s : State) (m : Byte), streamWf s.stream = true → s.rectFits = true →
    s.stream[s.pos.toNat]? = some m → 2 ≤ m.toNat → m.toNat ≤ 8 →
    hasTerminator 0 (s.stream.drop (s.pos.toNat + 1)) = false →
    ∃ t, exec .decode s = .next t ∧ t.status = .streamEnd ∧
      t.pos.toNat = s.pos.toNat + 1 + discardLength 0 (s.stream.drop (s.pos.toNat + 1)) ∧
      t = (s.setPos t.pos).setStatus t.status

/-- DECODE against LZW over whole strings: when the pre-scan finds the terminator, DECODE ends as the string decoder ends,
POS stands just past the terminator, OFF counts the pixels, the pixels below FW * FH stand in FRAME at their places, and
every other cell keeps its value (41_lzw.md R78, R82 to R98). -/
def Obligations.DecodeAgreesWithStringLzw : Prop :=
  ∀ (s : State) (m : Byte), streamWf s.stream = true → s.rectFits = true →
    s.stream[s.pos.toNat]? = some m → 2 ≤ m.toNat → m.toNat ≤ 8 →
    hasTerminator 0 (s.stream.drop (s.pos.toNat + 1)) = true →
    ∃ (e : ImageEnd) (t : State),
      e = referenceImage m.toNat ((payload 0 (s.stream.drop (s.pos.toNat + 1))).flatMap byteBits) ∧
      exec .decode s = .next t ∧ t.status = e.status ∧
      t.pos.toNat = s.pos.toNat + 1 + discardLength 0 (s.stream.drop (s.pos.toNat + 1)) ∧
      t.lzw.off.toNat = min e.pixels.length (2 ^ 32 - 1) ∧
      (∀ p v, p < s.rect.fw.toNat * s.rect.fh.toNat → e.pixels[p]? = some v → t.frameAt (s.pixelCell p) = some v) ∧
      ∀ i, (∀ p, p < s.rect.fw.toNat * s.rect.fh.toNat → p < e.pixels.length → s.pixelCell p ≠ i) →
        t.frameAt i = s.frameAt i

/-- Once the pre-scan has succeeded DECODE always ends, at the pre-scanned end of the image data, with OK, NoClearCode,
BadCode or EndOfData; TableOverflow and StreamEnd cannot occur (41_lzw.md R94, R95, R99). -/
def Obligations.DecodeEndsAtImageEnd : Prop :=
  ∀ (s : State) (m : Byte), streamWf s.stream = true → s.rectFits = true →
    s.stream[s.pos.toNat]? = some m → 2 ≤ m.toNat → m.toNat ≤ 8 →
    hasTerminator 0 (s.stream.drop (s.pos.toNat + 1)) = true →
    ∃ t, exec .decode s = .next t ∧
      t.pos.toNat = s.pos.toNat + 1 + discardLength 0 (s.stream.drop (s.pos.toNat + 1)) ∧
      (t.status = .ok ∨ t.status = .noClearCode ∨ t.status = .badCode ∨ t.status = .endOfData)

/-- DECODE changes the LZW registers, the bit reader, T, FRAME inside the frame rectangle, POS and STATUS, and nothing
else (41_lzw.md R78, R97). -/
def Obligations.DecodeFrameCondition : Prop :=
  ∀ s t : State, exec .decode s = .next t →
    t = { s with lzw := t.lzw, reader := t.reader, table := t.table, frame := t.frame, pos := t.pos,
                 status := t.status } ∧
    ∀ x y, x < s.width → y < s.height → s.inRect x y = false →
      t.frameAt (s.cellIndex x y) = s.frameAt (s.cellIndex x y)

/-- After BadCode CODE is at or above NENTRIES, and after NoClearCode CODE is not the clear code (41_lzw.md R83, R89). That
CODE is the last code read is said in `DecodeLeavesRegisters`. -/
def Obligations.CodeAfterErrorFailsItsTest : Prop :=
  ∀ s t : State, exec .decode s = .next t →
    (t.status = .badCode → t.lzw.nentries.toNat ≤ t.lzw.code.toNat) ∧
    (t.status = .noClearCode → t.lzw.code.toNat ≠ 2 ^ (t.lzw.initKs.toNat - 1))

/-- The invariants of 41_lzw.md R99 hold when the loop is entered after the first clear code, and every round of the loop
keeps them. -/
def Obligations.LoopInvariantHolds : Prop :=
  (∀ (m : Nat) (s t : State), 2 ≤ m → m ≤ 8 → nextCode (startDecode m s) = .done (BitVec.ofNat 12 (2 ^ m)) t →
    LoopInvariant m t) ∧
  ∀ (m : Nat) (s t : State), LoopInvariant m s → decodeRound m s = .done true t → LoopInvariant m t

/-- A round that meets the loop invariant never raises TableOverflow and never runs a chain past its end
(41_lzw.md R99 points 3 and 5). -/
def Obligations.RoundNeverOverflowsTable : Prop :=
  ∀ (m : Nat) (s : State), LoopInvariant m s →
    (∀ t, decodeRound m s ≠ .raised .tableOverflow t) ∧ ∀ f, decodeRound m s ≠ .faulted f

/-- The table step of a clear code (41_lzw.md R84), of a data code while FULL = 0 with the flags after the append
(41_lzw.md R85, R86), and of a data code while FULL = 1 (41_lzw.md R87). -/
def Obligations.TableStepCases : Prop :=
  ∀ (m : Nat) (s : State), 2 ≤ m → m ≤ 8 →
    (s.lzw.code.toNat = 2 ^ m →
      ∃ t, tableStep m s = .done () t ∧ t.lzw.ks = s.lzw.initKs ∧ t.lzw.nentries.toNat = 2 ^ m + 2 ∧
        t.lzw.full = false ∧ t.lzw.grow = false ∧ t.lzw.patchEn = true ∧
        t = s.setLzw { s.lzw with ks := t.lzw.ks, nentries := t.lzw.nentries, full := t.lzw.full, grow := t.lzw.grow,
                                  patchEn := t.lzw.patchEn }) ∧
    (s.lzw.code.toNat ≠ 2 ^ m → s.lzw.full = false → s.lzw.nentries.toNat < 4096 →
      ∃ t, tableStep m s = .done () t ∧ t.lzw.nentries.toNat = s.lzw.nentries.toNat + 1 ∧ t.lzw.patchEn = true ∧
        (t.lzw.full = true ↔ s.lzw.nentries.toNat + 1 = 4096) ∧
        (s.lzw.nentries.toNat + 1 = 4096 → t.lzw.grow = false) ∧
        (s.lzw.nentries.toNat + 1 ≠ 4096 → (∃ k, s.lzw.nentries.toNat + 1 = 2 ^ k) → t.lzw.grow = true) ∧
        ((¬ ∃ k, s.lzw.nentries.toNat + 1 = 2 ^ k) → t.lzw.grow = s.lzw.grow) ∧
        t.entryAt s.lzw.nentries.toNat =
          { len := s.lzw.prevLen + 1, parent := s.lzw.code, suffix := s.lzw.first } ∧
        (∀ j, j ≠ s.lzw.nentries.toNat → t.entryAt j = s.entryAt j) ∧
        t = (s.setTable t.table).setLzw { s.lzw with nentries := t.lzw.nentries, full := t.lzw.full,
                                                     grow := t.lzw.grow, patchEn := t.lzw.patchEn }) ∧
    (s.lzw.code.toNat ≠ 2 ^ m → s.lzw.full = true →
      tableStep m s = .done () (s.setLzw { s.lzw with patchEn := false }))

/-- A data code at or above NENTRIES raises BadCode with nothing written; one that passes is followed by the growth that
was signalled: KS grows by one and GROW is 0 (41_lzw.md R89, R90). -/
def Obligations.GrowthFollowsCheckedCode : Prop :=
  ∀ s : State,
    (s.lzw.nentries.toNat ≤ s.lzw.code.toNat → dataCode s = .raised .badCode s) ∧
    ∀ t, s.lzw.code.toNat < s.lzw.nentries.toNat → (s.lzw.grow = true → s.lzw.ks.toNat < 12) → dataCode s = .done () t →
      t.lzw.ks.toNat = s.lzw.ks.toNat + s.lzw.grow.toNat ∧ t.lzw.grow = false ∧
      t.lzw.nentries = s.lzw.nentries ∧ t.lzw.full = s.lzw.full ∧ t.lzw.code = s.lzw.code

/-- The fix-up writes the SUFFIX of T[NENTRIES - 1] when PATCH_EN = 1, and nothing otherwise (41_lzw.md R92). -/
def Obligations.FixUpWritesLastSuffix : Prop :=
  ∀ s : State,
    (s.lzw.patchEn = true →
      fixUp s = s.setTable (fixUp s).table ∧
      (fixUp s).entryAt (s.lzw.nentries.toNat - 1) =
        { s.entryAt (s.lzw.nentries.toNat - 1) with suffix := s.lzw.first } ∧
      ∀ j, j ≠ s.lzw.nentries.toNat - 1 → (fixUp s).entryAt j = s.entryAt j) ∧
    (s.lzw.patchEn = false → fixUp s = s)

/-- PutPixel: a pixel at or past FW * FH is dropped; any other goes to one cell, inside the rectangle and inside the
canvas, row y of the rectangle or ILI(FH, y) when INTERLACE = 1; two offsets never share a cell (41_lzw.md R97). -/
def Obligations.PutPixelPlacement : Prop :=
  ∀ (s : State) (p : Nat) (v : Byte), s.rectFits = true →
    (s.rect.fw.toNat * s.rect.fh.toNat ≤ p → putPixel p v s = s) ∧
    (p < s.rect.fw.toNat * s.rect.fh.toNat →
      ∃ x y, x = p % s.rect.fw.toNat ∧
        y = (if s.ctrl.interlace then interlacedLine s.rect.fh.toNat (p / s.rect.fw.toNat)
          else p / s.rect.fw.toNat) ∧
        x < s.rect.fw.toNat ∧ y < s.rect.fh.toNat ∧
        s.pixelCell p = (s.rect.fy.toNat + y) * s.canvasW.toNat + s.rect.fx.toNat + x ∧ s.pixelCell p < s.cells ∧
        putPixel p v s = s.setFrame (putPixel p v s).frame ∧
        (putPixel p v s).frameAt (s.pixelCell p) = some v ∧
        (∀ i, i ≠ s.pixelCell p → (putPixel p v s).frameAt i = s.frameAt i) ∧
        ∀ q, q < s.rect.fw.toNat * s.rect.fh.toNat → s.pixelCell q = s.pixelCell p → q = p)

/-- The interlace map sends the stored rows, in order, to the rows of the four passes; it is a permutation of the rows,
and the passes' row counts add up to the height (41_lzw.md R98). -/
def Obligations.InterlaceFollowsPasses : Prop :=
  ∀ h : Nat, (List.range h).map (interlacedLine h) = passRows h ∧ (passRows h).Perm (List.range h) ∧
    (h + 7) / 8 + (h + 3) / 8 + (h + 1) / 4 + h / 2 = h

/-- OFF saturates at 2^32 - 1 instead of wrapping, and once it has, every later pixel is dropped (41_lzw.md R96). -/
def Obligations.OffsetSaturates : Prop :=
  ∀ (l : Lzw) (len : BitVec 16) (first : Byte),
    (l.resolved len first).off.toNat = min (l.off.toNat + len.toNat) (2 ^ 32 - 1) ∧
    ∀ (s : State) (k : Nat) (v : Byte), s.lzw.off.toNat = 2 ^ 32 - 1 → putPixel (s.lzw.off.toNat + k) v s = s

/-! ## The compositor -/

/-- INIT, word 0x00000001: every FRAME cell BG_INDEX, every CANVAS cell GPAL[BG_INDEX], the frame registers and GCE 0,
STATUS OK; nothing else changes (42_compositor.md R103). -/
def Obligations.InitFillsBuffers : Prop :=
  encode .init = 0x00000001 ∧ ∀ s : State, ∃ t, exec .init s = .next t ∧
    (∀ i, i < s.cells → t.frameAt i = some s.bg ∧ t.canvasAt i = some (s.gpalAt s.bg)) ∧
    t.rect = { fx := 0, fy := 0, fw := 0, fh := 0 } ∧ t.ctrl = { interlace := false, lpalSel := false } ∧
    t.gce = { disposal := 0, transp := false, tindex := 0, delay := 0 } ∧ t.status = .ok ∧
    t = { s with frame := t.frame, canvas := t.canvas, rect := t.rect, ctrl := t.ctrl, gce := t.gce,
                 status := t.status }

/-- PAL_WRITE: COLOR in w[31:16], INDEX in w[15:8], SEL in w[4] and OP 0x5; the one entry of the one palette takes COLOR,
STATUS is OK, nothing else changes (42_compositor.md R102). -/
def Obligations.PalWriteStoresOneEntry : Prop :=
  ∀ (s : State) (sel : PalSel) (index : Byte) (color : Color),
    (encode (.palWrite sel index color)).toNat =
      color.toNat * 65536 + index.toNat * 256 + (if sel = .gpal then 0 else 16) + 5 ∧
    ∃ t, exec (.palWrite sel index color) s = .next t ∧ t.status = .ok ∧
      (∀ i, t.gpalAt i = if sel = .gpal ∧ i = index then color else s.gpalAt i) ∧
      (∀ i, t.lpalAt i = if sel = .lpal ∧ i = index then color else s.lpalAt i) ∧
      t = { s with gpal := t.gpal, lpal := t.lpal, status := t.status }

/-- DISPOSE with disposal 2: the rectangle takes ACT[BG_INDEX], every other cell and everything else stays
(42_compositor.md R106). -/
def Obligations.DisposeToBackgroundFills : Prop :=
  ∀ s : State, s.rectFits = true → s.gce.disposal = 2 →
    ∃ t, exec .dispose s = .next t ∧ t.status = .ok ∧
      (∀ x y, x < s.width → y < s.height →
        t.canvasAt (s.cellIndex x y) =
          if s.inRect x y then some (if s.ctrl.lpalSel then s.lpalAt s.bg else s.gpalAt s.bg)
          else s.canvasAt (s.cellIndex x y)) ∧
      (∀ i, s.cells ≤ i → t.canvasAt i = s.canvasAt i) ∧
      t = { s with canvas := t.canvas, status := t.status }

/-- DISPOSE with disposal 3 changes nothing but STATUS (42_compositor.md R107). -/
def Obligations.DisposeToPreviousKeepsCanvas : Prop :=
  ∀ s : State, s.rectFits = true → s.gce.disposal = 3 → exec .dispose s = .next (s.setStatus .ok)

/-- DISPOSE with disposal 0, 1 or 4 to 7: every cell of the rectangle takes ACT[FRAME[cell]], but for transparent ones;
every other cell and everything else stays (42_compositor.md R108). -/
def Obligations.DisposeRenderOverDraws : Prop :=
  ∀ s : State, s.rectFits = true → s.gce.disposal ≠ 2 → s.gce.disposal ≠ 3 →
    (∀ x y, s.inRect x y = true → s.frameAt (s.cellIndex x y) ≠ none) →
    ∃ t, exec .dispose s = .next t ∧ t.status = .ok ∧
      (∀ x y idx, s.inRect x y = true → s.frameAt (s.cellIndex x y) = some idx →
        t.canvasAt (s.cellIndex x y) =
          if s.gce.transp = true ∧ idx = s.gce.tindex then s.canvasAt (s.cellIndex x y)
          else some (if s.ctrl.lpalSel then s.lpalAt idx else s.gpalAt idx)) ∧
      (∀ x y, x < s.width → y < s.height → s.inRect x y = false →
        t.canvasAt (s.cellIndex x y) = s.canvasAt (s.cellIndex x y)) ∧
      (∀ i, s.cells ≤ i → t.canvasAt i = s.canvasAt i) ∧
      t = { s with canvas := t.canvas, status := t.status }

/-- DISPOSE by drawing over a FRAME cell that nothing has written is a fault, not a value
(70_reset_and_hazards.md R124). -/
def Obligations.DisposeOfUnwrittenFrameFaults : Prop :=
  ∀ (s : State) (x y : Nat), s.rectFits = true → s.gce.disposal ≠ 2 → s.gce.disposal ≠ 3 → s.inRect x y = true →
    s.frameAt (s.cellIndex x y) = none → exec .dispose s = .fault .unwrittenFrame

/-- A second DISPOSE of the same frame leaves the canvas as the first left it (42_compositor.md R104). -/
def Obligations.DisposeTwiceIsOnce : Prop :=
  ∀ s t : State, exec .dispose s = .next t →
    ∃ u, exec .dispose t = .next u ∧ (∀ i, u.canvasAt i = t.canvasAt i) ∧ u = t.setCanvas u.canvas

/-- The composite view is what the canvas would be if the frame were drawn by the default branch of DISPOSE, whatever the
frame's disposal method (42_compositor.md R109). -/
def Obligations.ViewIsFrameDrawnOver : Prop :=
  ∀ s t : State, s.rectFits = true → exec .dispose (s.setGce { s.gce with disposal := 0 }) = .next t →
    ∀ x y, x < s.width → y < s.height → viewPort s x y = canvasPort t (s.cellIndex x y)

/-- A rectangle outside the canvas is not overlaid, and right after INIT the view is the canvas: GPAL[BG_INDEX] everywhere
(42_compositor.md R109). -/
def Obligations.ViewWithoutFrameIsCanvas : Prop :=
  (∀ (s : State) (x y : Nat), s.rectFits = false → x < s.width → y < s.height →
    viewPort s x y = canvasPort s (s.cellIndex x y)) ∧
  ∀ (s t : State) (x y : Nat), exec .init s = .next t → x < s.width → y < s.height →
    viewPort t x y = .value (s.gpalAt s.bg)

/-! ## The whole machine -/

/-- Which command writes what: FRAME by INIT and DECODE only, CANVAS by INIT and DISPOSE only, T and the LZW registers by
DECODE only, the palettes by PAL_WRITE only, KEY_OUT by GET_KEY only, the bit reader by DECODE, GET_KEY and BR_RESET
only, POS by SKIP, DECODE and GET_KEY only, the frame registers and GCE by INIT only; BG, S and the canvas size by none
(10_state.md R15, R25, 20_memory.md R37, R40, R41, R42, R43). -/
def Obligations.EachStateHasItsWriters : Prop :=
  ∀ (i : Instr) (s t : State), exec i s = .next t →
    (i ≠ .init → i ≠ .decode → t.frame = s.frame) ∧
    (i ≠ .init → i ≠ .dispose → t.canvas = s.canvas) ∧
    (i ≠ .decode → t.table = s.table ∧ t.lzw = s.lzw) ∧
    ((∀ a b c, i ≠ .palWrite a b c) → t.gpal = s.gpal ∧ t.lpal = s.lpal) ∧
    ((∀ w, i ≠ .getKey w) → t.keyOut = s.keyOut) ∧
    (i ≠ .decode → i ≠ .brReset → (∀ w, i ≠ .getKey w) → t.reader = s.reader) ∧
    (i ≠ .skip → i ≠ .decode → (∀ w, i ≠ .getKey w) → t.pos = s.pos) ∧
    (i ≠ .init → t.rect = s.rect ∧ t.ctrl = s.ctrl ∧ t.gce = s.gce) ∧
    t.bg = s.bg ∧ t.stream = s.stream ∧ t.canvasW = s.canvasW ∧ t.canvasH = s.canvasH ∧ t.pending = s.pending ∧
    t.replies = s.replies ∧ t.statuses = s.statuses

/-- Every command ends in a next state, with one of the statuses the spec names for it, in every state with a legal
stream; only DISPOSE asks that the FRAME cells it draws hold values (60_exceptions.md R111, R113,
70_reset_and_hazards.md R124, R136). -/
def Obligations.EveryCommandEnds : Prop :=
  ∀ (i : Instr) (s : State), streamWf s.stream = true →
    (i = .dispose → s.rectFits = true → s.gce.disposal ≠ 2 → s.gce.disposal ≠ 3 →
      ∀ x y, s.inRect x y = true → s.frameAt (s.cellIndex x y) ≠ none) →
    ∃ t, exec i s = .next t ∧ mayEndWith i t.status = true

/-- A status blocks nothing and is read by nothing: what a command does is the same after any status, and every command
writes STATUS (10_state.md R19, 60_exceptions.md R115). -/
def Obligations.EarlierStatusIsForgotten : Prop :=
  ∀ (i : Instr) (s : State) (st : Status), exec i (s.setStatus st) = exec i s

/-- GCE.DELAY is stored and no command reads it (10_state.md R24, 60_exceptions.md R118). -/
def Obligations.DelayIsNeverRead : Prop :=
  ∀ (i : Instr) (s : State) (d : BitVec 16), i ≠ .init →
    exec i (withDelay d s) = mapNext (withDelay d) (exec i s)

/-- The contents of T at the start of a step affect nothing but T: stale entries and T at reset are never read
(10_state.md R35, 41_lzw.md R93, 70_reset_and_hazards.md R138). -/
def Obligations.StaleTableIsUnobservable : Prop :=
  ∀ (s : State) (tbl : Memory Entry), AgreeButTable (step s) (step (s.setTable tbl))

/-- Every step keeps a legal state legal: parameters in range, every memory in canonical form inside its bounds, the LZW
registers in their ranges (00_scope.md R8, 10_state.md R15, 41_lzw.md R99). -/
def Obligations.StepKeepsLegalState : Prop :=
  ∀ s t : State, LegalState s → step s = .next t → LegalState t

/-- The state after reset is legal, for every canvas size and stream in range (00_scope.md R8, 10_state.md R36). -/
def Obligations.ResetIsLegal : Prop :=
  (∀ (w h : BitVec 16) (bytes : List Byte), canvasWf w h = true → streamWf bytes = true →
    LegalState (State.resetFor w h bytes)) ∧ LegalState State.reset

/-- Once every cell of FRAME and CANVAS holds a value, as after INIT, no step but one that resets the block or reads
outside the canvas stops the run, and every cell goes on holding a value (70_reset_and_hazards.md R124, R136, R138). -/
def Obligations.WrittenBuffersNeverFault : Prop :=
  (∀ s t : State, exec .init s = .next t → AllWritten t) ∧
  ∀ s : State, LegalState s → AllWritten s →
    (∀ a rest, s.pending = a :: rest → InRange s a ∧ a ≠ .hardReset) →
    ∃ t, step s = .next t ∧ AllWritten t

/-! ## Registers and stream moves the statements above leave open -/

/-- The registers DECODE leaves, against LZW over whole strings: CODE is the last code read; FIRST and PREV_LEN are the
first pixel and the length of the last string, each kept from before where there is none; NENTRIES, KS, FULL, GROW and
PATCH_EN are those of the last table step; the bit reader stands where the last code ended or, after EndOfData, at the
terminator with SHIFT as before the failing read (10_state.md R26 to R30, 41_lzw.md R86, R91, R95,
40_subblock_reader.md R72, R73, 60_exceptions.md R112). -/
def Obligations.DecodeLeavesRegisters : Prop :=
  ∀ (s : State) (m : Byte), streamWf s.stream = true → s.rectFits = true →
    s.stream[s.pos.toNat]? = some m → 2 ≤ m.toNat → m.toNat ≤ 8 →
    hasTerminator 0 (s.stream.drop (s.pos.toNat + 1)) = true →
    ∃ (seq data : List Byte) (e : ImageEnd) (used : Nat) (t : State),
      seq = s.stream.drop (s.pos.toNat + 1) ∧ data = payload 0 seq ∧
      e = referenceImage m.toNat (data.flatMap byteBits) ∧ used + e.rest.length = 8 * data.length ∧
      exec .decode s = .next t ∧
      t.lzw.code.toNat = e.code.getD s.lzw.code.toNat ∧
      t.lzw.first = (e.last.map fun str => str.headD 0).getD s.lzw.first ∧
      t.lzw.prevLen.toNat = (e.last.map List.length).getD s.lzw.prevLen.toNat ∧
      t.lzw.initKs.toNat = m.toNat + 1 ∧ t.lzw.nentries.toNat = e.entries ∧ t.lzw.ks.toNat = codeWidth e.entries ∧
      t.lzw.full = decide (e.entries = 4096) ∧
      t.lzw.grow = (decide (e.entries ≠ 4096) && decide (e.entries = 2 ^ codeWidth e.entries)) ∧
      t.lzw.patchEn = e.patch.getD s.lzw.patchEn ∧
      t.reader.shift.toNat = used % 8 ∧
      (e.status = .endOfData → t.reader.sbRem = 0 ∧ t.reader.curByte = data.getLastD 0) ∧
      (e.status ≠ .endOfData →
        t.reader.sbRem.toNat = blockLeft ((used + 7) / 8) 0 seq ∧
        t.reader.curByte = (data.take ((used + 7) / 8)).getLastD 0)

/-- The host's own stream moves between commands: a seek sets POS; a read below S_LEN answers S[POS] and POS advances by
one (20_memory.md R43 to R45, 70_reset_and_hazards.md R137); a read at or past S_LEN answers that the stream has ended and
leaves POS and STATUS, which is the model's reading (notes/assumptions/7.md). The record of the answers is the model's own
(notes/assumptions/4.md). -/
def Obligations.HostStreamMoves : Prop :=
  ∀ (s : State) (rest : List Interaction),
    (∀ p, s.pending = .streamSeek p :: rest → step s = .next ((s.setPending rest).setPos p)) ∧
    (s.pending = .streamRead :: rest →
      (∀ b, s.stream[s.pos.toNat]? = some b →
        step s = .next (((s.setPending rest).setPos (s.pos + 1)).setReplies (s.replies ++ [.byte b]))) ∧
      (s.stream.length ≤ s.pos.toNat →
        step s = .next ((s.setPending rest).setReplies (s.replies ++ [.streamEnd]))))
end

