-- ==== Sys2Proof/Laws/Res.lean ====
section
/-! SUPPORT. How the parts of a command go together: what `andThen` gives, and a property of every state a part can leave,
carried from part to part. -/

namespace Sys2Proof.Machine

section
variable {α β : Type}

@[simp] theorem Res.done_andThen (a : α) (s : State) (next : α → State → Res β) :
    (Res.done a s).andThen next = next a s := rfl
@[simp] theorem Res.raised_andThen (st : Status) (s : State) (next : α → State → Res β) :
    (Res.raised st s).andThen next = .raised st s := rfl
@[simp] theorem Res.faulted_andThen (f : Fault) (next : α → State → Res β) :
    (Res.faulted f).andThen next = .faulted f := rfl

/-- What is done after `andThen` was done before it, and then by the rest. -/
theorem Res.andThen_eq_done {r : Res α} {next : α → State → Res β} {b : β} {t : State}
    (h : r.andThen next = .done b t) : ∃ a s, r = .done a s ∧ next a s = .done b t := by
  cases r with
  | done a s => exact ⟨a, s, rfl, h⟩
  | raised st s => cases h
  | faulted f => cases h

/-- What is raised after `andThen` was raised before it, or by the rest. -/
theorem Res.andThen_eq_raised {r : Res α} {next : α → State → Res β} {st : Status} {t : State}
    (h : r.andThen next = .raised st t) :
    r = .raised st t ∨ ∃ a s, r = .done a s ∧ next a s = .raised st t := by
  cases r with
  | done a s => exact .inr ⟨a, s, rfl, h⟩
  | raised st s => cases h; exact .inl rfl
  | faulted f => cases h

/-- A fault after `andThen` was a fault before it, or of the rest. -/
theorem Res.andThen_eq_faulted {r : Res α} {next : α → State → Res β} {f : Fault}
    (h : r.andThen next = .faulted f) :
    r = .faulted f ∨ ∃ a s, r = .done a s ∧ next a s = .faulted f := by
  cases r with
  | done a s => exact .inr ⟨a, s, rfl, h⟩
  | raised st s => cases h
  | faulted f => cases h; exact .inl rfl

theorem Res.andThen_assoc {γ : Type} (r : Res α) (f : α → State → Res β) (g : β → State → Res γ) :
    (r.andThen f).andThen g = r.andThen fun a s => (f a s).andThen g := by
  cases r <;> rfl

/-- Every state the part can leave has the property `P`. -/
def Res.Leaves (P : State → Prop) : Res α → Prop
  | .done _ s => P s
  | .raised _ s => P s
  | .faulted _ => True

@[simp] theorem Res.leaves_done (P : State → Prop) (a : α) (s : State) : (Res.done a s).Leaves P ↔ P s := Iff.rfl
@[simp] theorem Res.leaves_raised (P : State → Prop) (st : Status) (s : State) :
    (Res.raised st s : Res α).Leaves P ↔ P s := Iff.rfl
@[simp] theorem Res.leaves_faulted (P : State → Prop) (f : Fault) : (Res.faulted f : Res α).Leaves P := trivial

/-- A property carried through `andThen`. -/
theorem Res.Leaves.andThen {P Q : State → Prop} {r : Res α} {next : α → State → Res β}
    (h : r.Leaves P) (hq : ∀ st s, r = .raised st s → P s → Q s) (hn : ∀ a s, r = .done a s → P s → (next a s).Leaves Q) :
    (r.andThen next).Leaves Q := by
  cases r with
  | done a s => exact hn a s rfl h
  | raised st s => exact hq st s rfl h
  | faulted f => trivial

theorem Res.Leaves.mono {P Q : State → Prop} {r : Res α} (h : r.Leaves P) (hpq : ∀ s, P s → Q s) : r.Leaves Q := by
  cases r with
  | done a s => exact hpq s h
  | raised st s => exact hpq s h
  | faulted f => trivial

end

/-! The end of a command. -/

@[simp] theorem endCommand_done (a : Unit) (s : State) : endCommand (.done a s) = .next (s.setStatus .ok) := rfl
@[simp] theorem endCommand_raised (st : Status) (s : State) :
    endCommand (.raised st s) = .next (s.setStatus st) := rfl
@[simp] theorem endCommand_faulted (f : Fault) : endCommand (.faulted f) = .fault f := rfl

/-- A command ends in a next state with STATUS written, or in a fault; it never refuses. -/
theorem endCommand_cases (r : Res Unit) :
    (∃ s, r = .done () s ∧ endCommand r = .next (s.setStatus .ok)) ∨
      (∃ st s, r = .raised st s ∧ endCommand r = .next (s.setStatus st)) ∨
      ∃ f, r = .faulted f ∧ endCommand r = .fault f := by
  cases r with
  | done a s => exact .inl ⟨s, rfl, rfl⟩
  | raised st s => exact .inr (.inl ⟨st, s, rfl, rfl⟩)
  | faulted f => exact .inr (.inr ⟨f, rfl, rfl⟩)

/-- The next state of a command is a state its parts left, with STATUS written. -/
theorem Res.Leaves.of_next {P : State → Prop} {r : Res Unit} {t : State} (h : r.Leaves P)
    (ht : endCommand r = .next t) : ∃ s st, P s ∧ t = s.setStatus st := by
  rcases endCommand_cases r with ⟨s, rfl, e⟩ | ⟨st, s, rfl, e⟩ | ⟨f, rfl, e⟩
  · rw [e] at ht; cases ht; exact ⟨s, .ok, h, rfl⟩
  · rw [e] at ht; cases ht; exact ⟨s, st, h, rfl⟩
  · rw [e] at ht; cases ht

end Sys2Proof.Machine
end

