-- ==== Sys2Proof/Laws/State.lean ====
section
/-! SUPPORT. One lemma per field per named update of the state, true by `rfl`: the update writes its field, and every other
field keeps its value. -/

namespace Sys2Proof.Machine

@[simp] theorem State.setStatus_canvasW (s : State) (v : Status) : (s.setStatus v).canvasW = s.canvasW := rfl
@[simp] theorem State.setStatus_canvasH (s : State) (v : Status) : (s.setStatus v).canvasH = s.canvasH := rfl
@[simp] theorem State.setStatus_status (s : State) (v : Status) : (s.setStatus v).status = v := rfl
@[simp] theorem State.setStatus_bg (s : State) (v : Status) : (s.setStatus v).bg = s.bg := rfl
@[simp] theorem State.setStatus_rect (s : State) (v : Status) : (s.setStatus v).rect = s.rect := rfl
@[simp] theorem State.setStatus_ctrl (s : State) (v : Status) : (s.setStatus v).ctrl = s.ctrl := rfl
@[simp] theorem State.setStatus_gce (s : State) (v : Status) : (s.setStatus v).gce = s.gce := rfl
@[simp] theorem State.setStatus_keyOut (s : State) (v : Status) : (s.setStatus v).keyOut = s.keyOut := rfl
@[simp] theorem State.setStatus_lzw (s : State) (v : Status) : (s.setStatus v).lzw = s.lzw := rfl
@[simp] theorem State.setStatus_reader (s : State) (v : Status) : (s.setStatus v).reader = s.reader := rfl
@[simp] theorem State.setStatus_table (s : State) (v : Status) : (s.setStatus v).table = s.table := rfl
@[simp] theorem State.setStatus_gpal (s : State) (v : Status) : (s.setStatus v).gpal = s.gpal := rfl
@[simp] theorem State.setStatus_lpal (s : State) (v : Status) : (s.setStatus v).lpal = s.lpal := rfl
@[simp] theorem State.setStatus_frame (s : State) (v : Status) : (s.setStatus v).frame = s.frame := rfl
@[simp] theorem State.setStatus_canvas (s : State) (v : Status) : (s.setStatus v).canvas = s.canvas := rfl
@[simp] theorem State.setStatus_stream (s : State) (v : Status) : (s.setStatus v).stream = s.stream := rfl
@[simp] theorem State.setStatus_pos (s : State) (v : Status) : (s.setStatus v).pos = s.pos := rfl
@[simp] theorem State.setStatus_pending (s : State) (v : Status) : (s.setStatus v).pending = s.pending := rfl
@[simp] theorem State.setStatus_replies (s : State) (v : Status) : (s.setStatus v).replies = s.replies := rfl
@[simp] theorem State.setStatus_statuses (s : State) (v : Status) : (s.setStatus v).statuses = s.statuses := rfl
@[simp] theorem State.setStatus_setStatus (s : State) (v w : Status) : (s.setStatus v).setStatus w = s.setStatus w := rfl
@[simp] theorem State.setStatus_self (s : State) : s.setStatus s.status = s := rfl

@[simp] theorem State.setBg_canvasW (s : State) (v : Byte) : (s.setBg v).canvasW = s.canvasW := rfl
@[simp] theorem State.setBg_canvasH (s : State) (v : Byte) : (s.setBg v).canvasH = s.canvasH := rfl
@[simp] theorem State.setBg_status (s : State) (v : Byte) : (s.setBg v).status = s.status := rfl
@[simp] theorem State.setBg_bg (s : State) (v : Byte) : (s.setBg v).bg = v := rfl
@[simp] theorem State.setBg_rect (s : State) (v : Byte) : (s.setBg v).rect = s.rect := rfl
@[simp] theorem State.setBg_ctrl (s : State) (v : Byte) : (s.setBg v).ctrl = s.ctrl := rfl
@[simp] theorem State.setBg_gce (s : State) (v : Byte) : (s.setBg v).gce = s.gce := rfl
@[simp] theorem State.setBg_keyOut (s : State) (v : Byte) : (s.setBg v).keyOut = s.keyOut := rfl
@[simp] theorem State.setBg_lzw (s : State) (v : Byte) : (s.setBg v).lzw = s.lzw := rfl
@[simp] theorem State.setBg_reader (s : State) (v : Byte) : (s.setBg v).reader = s.reader := rfl
@[simp] theorem State.setBg_table (s : State) (v : Byte) : (s.setBg v).table = s.table := rfl
@[simp] theorem State.setBg_gpal (s : State) (v : Byte) : (s.setBg v).gpal = s.gpal := rfl
@[simp] theorem State.setBg_lpal (s : State) (v : Byte) : (s.setBg v).lpal = s.lpal := rfl
@[simp] theorem State.setBg_frame (s : State) (v : Byte) : (s.setBg v).frame = s.frame := rfl
@[simp] theorem State.setBg_canvas (s : State) (v : Byte) : (s.setBg v).canvas = s.canvas := rfl
@[simp] theorem State.setBg_stream (s : State) (v : Byte) : (s.setBg v).stream = s.stream := rfl
@[simp] theorem State.setBg_pos (s : State) (v : Byte) : (s.setBg v).pos = s.pos := rfl
@[simp] theorem State.setBg_pending (s : State) (v : Byte) : (s.setBg v).pending = s.pending := rfl
@[simp] theorem State.setBg_replies (s : State) (v : Byte) : (s.setBg v).replies = s.replies := rfl
@[simp] theorem State.setBg_statuses (s : State) (v : Byte) : (s.setBg v).statuses = s.statuses := rfl
@[simp] theorem State.setBg_setBg (s : State) (v w : Byte) : (s.setBg v).setBg w = s.setBg w := rfl
@[simp] theorem State.setBg_self (s : State) : s.setBg s.bg = s := rfl

@[simp] theorem State.setRect_canvasW (s : State) (v : Rect) : (s.setRect v).canvasW = s.canvasW := rfl
@[simp] theorem State.setRect_canvasH (s : State) (v : Rect) : (s.setRect v).canvasH = s.canvasH := rfl
@[simp] theorem State.setRect_status (s : State) (v : Rect) : (s.setRect v).status = s.status := rfl
@[simp] theorem State.setRect_bg (s : State) (v : Rect) : (s.setRect v).bg = s.bg := rfl
@[simp] theorem State.setRect_rect (s : State) (v : Rect) : (s.setRect v).rect = v := rfl
@[simp] theorem State.setRect_ctrl (s : State) (v : Rect) : (s.setRect v).ctrl = s.ctrl := rfl
@[simp] theorem State.setRect_gce (s : State) (v : Rect) : (s.setRect v).gce = s.gce := rfl
@[simp] theorem State.setRect_keyOut (s : State) (v : Rect) : (s.setRect v).keyOut = s.keyOut := rfl
@[simp] theorem State.setRect_lzw (s : State) (v : Rect) : (s.setRect v).lzw = s.lzw := rfl
@[simp] theorem State.setRect_reader (s : State) (v : Rect) : (s.setRect v).reader = s.reader := rfl
@[simp] theorem State.setRect_table (s : State) (v : Rect) : (s.setRect v).table = s.table := rfl
@[simp] theorem State.setRect_gpal (s : State) (v : Rect) : (s.setRect v).gpal = s.gpal := rfl
@[simp] theorem State.setRect_lpal (s : State) (v : Rect) : (s.setRect v).lpal = s.lpal := rfl
@[simp] theorem State.setRect_frame (s : State) (v : Rect) : (s.setRect v).frame = s.frame := rfl
@[simp] theorem State.setRect_canvas (s : State) (v : Rect) : (s.setRect v).canvas = s.canvas := rfl
@[simp] theorem State.setRect_stream (s : State) (v : Rect) : (s.setRect v).stream = s.stream := rfl
@[simp] theorem State.setRect_pos (s : State) (v : Rect) : (s.setRect v).pos = s.pos := rfl
@[simp] theorem State.setRect_pending (s : State) (v : Rect) : (s.setRect v).pending = s.pending := rfl
@[simp] theorem State.setRect_replies (s : State) (v : Rect) : (s.setRect v).replies = s.replies := rfl
@[simp] theorem State.setRect_statuses (s : State) (v : Rect) : (s.setRect v).statuses = s.statuses := rfl
@[simp] theorem State.setRect_setRect (s : State) (v w : Rect) : (s.setRect v).setRect w = s.setRect w := rfl
@[simp] theorem State.setRect_self (s : State) : s.setRect s.rect = s := rfl

@[simp] theorem State.setCtrl_canvasW (s : State) (v : FrameCtrl) : (s.setCtrl v).canvasW = s.canvasW := rfl
@[simp] theorem State.setCtrl_canvasH (s : State) (v : FrameCtrl) : (s.setCtrl v).canvasH = s.canvasH := rfl
@[simp] theorem State.setCtrl_status (s : State) (v : FrameCtrl) : (s.setCtrl v).status = s.status := rfl
@[simp] theorem State.setCtrl_bg (s : State) (v : FrameCtrl) : (s.setCtrl v).bg = s.bg := rfl
@[simp] theorem State.setCtrl_rect (s : State) (v : FrameCtrl) : (s.setCtrl v).rect = s.rect := rfl
@[simp] theorem State.setCtrl_ctrl (s : State) (v : FrameCtrl) : (s.setCtrl v).ctrl = v := rfl
@[simp] theorem State.setCtrl_gce (s : State) (v : FrameCtrl) : (s.setCtrl v).gce = s.gce := rfl
@[simp] theorem State.setCtrl_keyOut (s : State) (v : FrameCtrl) : (s.setCtrl v).keyOut = s.keyOut := rfl
@[simp] theorem State.setCtrl_lzw (s : State) (v : FrameCtrl) : (s.setCtrl v).lzw = s.lzw := rfl
@[simp] theorem State.setCtrl_reader (s : State) (v : FrameCtrl) : (s.setCtrl v).reader = s.reader := rfl
@[simp] theorem State.setCtrl_table (s : State) (v : FrameCtrl) : (s.setCtrl v).table = s.table := rfl
@[simp] theorem State.setCtrl_gpal (s : State) (v : FrameCtrl) : (s.setCtrl v).gpal = s.gpal := rfl
@[simp] theorem State.setCtrl_lpal (s : State) (v : FrameCtrl) : (s.setCtrl v).lpal = s.lpal := rfl
@[simp] theorem State.setCtrl_frame (s : State) (v : FrameCtrl) : (s.setCtrl v).frame = s.frame := rfl
@[simp] theorem State.setCtrl_canvas (s : State) (v : FrameCtrl) : (s.setCtrl v).canvas = s.canvas := rfl
@[simp] theorem State.setCtrl_stream (s : State) (v : FrameCtrl) : (s.setCtrl v).stream = s.stream := rfl
@[simp] theorem State.setCtrl_pos (s : State) (v : FrameCtrl) : (s.setCtrl v).pos = s.pos := rfl
@[simp] theorem State.setCtrl_pending (s : State) (v : FrameCtrl) : (s.setCtrl v).pending = s.pending := rfl
@[simp] theorem State.setCtrl_replies (s : State) (v : FrameCtrl) : (s.setCtrl v).replies = s.replies := rfl
@[simp] theorem State.setCtrl_statuses (s : State) (v : FrameCtrl) : (s.setCtrl v).statuses = s.statuses := rfl
@[simp] theorem State.setCtrl_setCtrl (s : State) (v w : FrameCtrl) : (s.setCtrl v).setCtrl w = s.setCtrl w := rfl
@[simp] theorem State.setCtrl_self (s : State) : s.setCtrl s.ctrl = s := rfl

@[simp] theorem State.setGce_canvasW (s : State) (v : Gce) : (s.setGce v).canvasW = s.canvasW := rfl
@[simp] theorem State.setGce_canvasH (s : State) (v : Gce) : (s.setGce v).canvasH = s.canvasH := rfl
@[simp] theorem State.setGce_status (s : State) (v : Gce) : (s.setGce v).status = s.status := rfl
@[simp] theorem State.setGce_bg (s : State) (v : Gce) : (s.setGce v).bg = s.bg := rfl
@[simp] theorem State.setGce_rect (s : State) (v : Gce) : (s.setGce v).rect = s.rect := rfl
@[simp] theorem State.setGce_ctrl (s : State) (v : Gce) : (s.setGce v).ctrl = s.ctrl := rfl
@[simp] theorem State.setGce_gce (s : State) (v : Gce) : (s.setGce v).gce = v := rfl
@[simp] theorem State.setGce_keyOut (s : State) (v : Gce) : (s.setGce v).keyOut = s.keyOut := rfl
@[simp] theorem State.setGce_lzw (s : State) (v : Gce) : (s.setGce v).lzw = s.lzw := rfl
@[simp] theorem State.setGce_reader (s : State) (v : Gce) : (s.setGce v).reader = s.reader := rfl
@[simp] theorem State.setGce_table (s : State) (v : Gce) : (s.setGce v).table = s.table := rfl
@[simp] theorem State.setGce_gpal (s : State) (v : Gce) : (s.setGce v).gpal = s.gpal := rfl
@[simp] theorem State.setGce_lpal (s : State) (v : Gce) : (s.setGce v).lpal = s.lpal := rfl
@[simp] theorem State.setGce_frame (s : State) (v : Gce) : (s.setGce v).frame = s.frame := rfl
@[simp] theorem State.setGce_canvas (s : State) (v : Gce) : (s.setGce v).canvas = s.canvas := rfl
@[simp] theorem State.setGce_stream (s : State) (v : Gce) : (s.setGce v).stream = s.stream := rfl
@[simp] theorem State.setGce_pos (s : State) (v : Gce) : (s.setGce v).pos = s.pos := rfl
@[simp] theorem State.setGce_pending (s : State) (v : Gce) : (s.setGce v).pending = s.pending := rfl
@[simp] theorem State.setGce_replies (s : State) (v : Gce) : (s.setGce v).replies = s.replies := rfl
@[simp] theorem State.setGce_statuses (s : State) (v : Gce) : (s.setGce v).statuses = s.statuses := rfl
@[simp] theorem State.setGce_setGce (s : State) (v w : Gce) : (s.setGce v).setGce w = s.setGce w := rfl
@[simp] theorem State.setGce_self (s : State) : s.setGce s.gce = s := rfl

@[simp] theorem State.setKeyOut_canvasW (s : State) (v : Code) : (s.setKeyOut v).canvasW = s.canvasW := rfl
@[simp] theorem State.setKeyOut_canvasH (s : State) (v : Code) : (s.setKeyOut v).canvasH = s.canvasH := rfl
@[simp] theorem State.setKeyOut_status (s : State) (v : Code) : (s.setKeyOut v).status = s.status := rfl
@[simp] theorem State.setKeyOut_bg (s : State) (v : Code) : (s.setKeyOut v).bg = s.bg := rfl
@[simp] theorem State.setKeyOut_rect (s : State) (v : Code) : (s.setKeyOut v).rect = s.rect := rfl
@[simp] theorem State.setKeyOut_ctrl (s : State) (v : Code) : (s.setKeyOut v).ctrl = s.ctrl := rfl
@[simp] theorem State.setKeyOut_gce (s : State) (v : Code) : (s.setKeyOut v).gce = s.gce := rfl
@[simp] theorem State.setKeyOut_keyOut (s : State) (v : Code) : (s.setKeyOut v).keyOut = v := rfl
@[simp] theorem State.setKeyOut_lzw (s : State) (v : Code) : (s.setKeyOut v).lzw = s.lzw := rfl
@[simp] theorem State.setKeyOut_reader (s : State) (v : Code) : (s.setKeyOut v).reader = s.reader := rfl
@[simp] theorem State.setKeyOut_table (s : State) (v : Code) : (s.setKeyOut v).table = s.table := rfl
@[simp] theorem State.setKeyOut_gpal (s : State) (v : Code) : (s.setKeyOut v).gpal = s.gpal := rfl
@[simp] theorem State.setKeyOut_lpal (s : State) (v : Code) : (s.setKeyOut v).lpal = s.lpal := rfl
@[simp] theorem State.setKeyOut_frame (s : State) (v : Code) : (s.setKeyOut v).frame = s.frame := rfl
@[simp] theorem State.setKeyOut_canvas (s : State) (v : Code) : (s.setKeyOut v).canvas = s.canvas := rfl
@[simp] theorem State.setKeyOut_stream (s : State) (v : Code) : (s.setKeyOut v).stream = s.stream := rfl
@[simp] theorem State.setKeyOut_pos (s : State) (v : Code) : (s.setKeyOut v).pos = s.pos := rfl
@[simp] theorem State.setKeyOut_pending (s : State) (v : Code) : (s.setKeyOut v).pending = s.pending := rfl
@[simp] theorem State.setKeyOut_replies (s : State) (v : Code) : (s.setKeyOut v).replies = s.replies := rfl
@[simp] theorem State.setKeyOut_statuses (s : State) (v : Code) : (s.setKeyOut v).statuses = s.statuses := rfl
@[simp] theorem State.setKeyOut_setKeyOut (s : State) (v w : Code) : (s.setKeyOut v).setKeyOut w = s.setKeyOut w := rfl
@[simp] theorem State.setKeyOut_self (s : State) : s.setKeyOut s.keyOut = s := rfl

@[simp] theorem State.setLzw_canvasW (s : State) (v : Lzw) : (s.setLzw v).canvasW = s.canvasW := rfl
@[simp] theorem State.setLzw_canvasH (s : State) (v : Lzw) : (s.setLzw v).canvasH = s.canvasH := rfl
@[simp] theorem State.setLzw_status (s : State) (v : Lzw) : (s.setLzw v).status = s.status := rfl
@[simp] theorem State.setLzw_bg (s : State) (v : Lzw) : (s.setLzw v).bg = s.bg := rfl
@[simp] theorem State.setLzw_rect (s : State) (v : Lzw) : (s.setLzw v).rect = s.rect := rfl
@[simp] theorem State.setLzw_ctrl (s : State) (v : Lzw) : (s.setLzw v).ctrl = s.ctrl := rfl
@[simp] theorem State.setLzw_gce (s : State) (v : Lzw) : (s.setLzw v).gce = s.gce := rfl
@[simp] theorem State.setLzw_keyOut (s : State) (v : Lzw) : (s.setLzw v).keyOut = s.keyOut := rfl
@[simp] theorem State.setLzw_lzw (s : State) (v : Lzw) : (s.setLzw v).lzw = v := rfl
@[simp] theorem State.setLzw_reader (s : State) (v : Lzw) : (s.setLzw v).reader = s.reader := rfl
@[simp] theorem State.setLzw_table (s : State) (v : Lzw) : (s.setLzw v).table = s.table := rfl
@[simp] theorem State.setLzw_gpal (s : State) (v : Lzw) : (s.setLzw v).gpal = s.gpal := rfl
@[simp] theorem State.setLzw_lpal (s : State) (v : Lzw) : (s.setLzw v).lpal = s.lpal := rfl
@[simp] theorem State.setLzw_frame (s : State) (v : Lzw) : (s.setLzw v).frame = s.frame := rfl
@[simp] theorem State.setLzw_canvas (s : State) (v : Lzw) : (s.setLzw v).canvas = s.canvas := rfl
@[simp] theorem State.setLzw_stream (s : State) (v : Lzw) : (s.setLzw v).stream = s.stream := rfl
@[simp] theorem State.setLzw_pos (s : State) (v : Lzw) : (s.setLzw v).pos = s.pos := rfl
@[simp] theorem State.setLzw_pending (s : State) (v : Lzw) : (s.setLzw v).pending = s.pending := rfl
@[simp] theorem State.setLzw_replies (s : State) (v : Lzw) : (s.setLzw v).replies = s.replies := rfl
@[simp] theorem State.setLzw_statuses (s : State) (v : Lzw) : (s.setLzw v).statuses = s.statuses := rfl
@[simp] theorem State.setLzw_setLzw (s : State) (v w : Lzw) : (s.setLzw v).setLzw w = s.setLzw w := rfl
@[simp] theorem State.setLzw_self (s : State) : s.setLzw s.lzw = s := rfl

@[simp] theorem State.setReader_canvasW (s : State) (v : BitReader) : (s.setReader v).canvasW = s.canvasW := rfl
@[simp] theorem State.setReader_canvasH (s : State) (v : BitReader) : (s.setReader v).canvasH = s.canvasH := rfl
@[simp] theorem State.setReader_status (s : State) (v : BitReader) : (s.setReader v).status = s.status := rfl
@[simp] theorem State.setReader_bg (s : State) (v : BitReader) : (s.setReader v).bg = s.bg := rfl
@[simp] theorem State.setReader_rect (s : State) (v : BitReader) : (s.setReader v).rect = s.rect := rfl
@[simp] theorem State.setReader_ctrl (s : State) (v : BitReader) : (s.setReader v).ctrl = s.ctrl := rfl
@[simp] theorem State.setReader_gce (s : State) (v : BitReader) : (s.setReader v).gce = s.gce := rfl
@[simp] theorem State.setReader_keyOut (s : State) (v : BitReader) : (s.setReader v).keyOut = s.keyOut := rfl
@[simp] theorem State.setReader_lzw (s : State) (v : BitReader) : (s.setReader v).lzw = s.lzw := rfl
@[simp] theorem State.setReader_reader (s : State) (v : BitReader) : (s.setReader v).reader = v := rfl
@[simp] theorem State.setReader_table (s : State) (v : BitReader) : (s.setReader v).table = s.table := rfl
@[simp] theorem State.setReader_gpal (s : State) (v : BitReader) : (s.setReader v).gpal = s.gpal := rfl
@[simp] theorem State.setReader_lpal (s : State) (v : BitReader) : (s.setReader v).lpal = s.lpal := rfl
@[simp] theorem State.setReader_frame (s : State) (v : BitReader) : (s.setReader v).frame = s.frame := rfl
@[simp] theorem State.setReader_canvas (s : State) (v : BitReader) : (s.setReader v).canvas = s.canvas := rfl
@[simp] theorem State.setReader_stream (s : State) (v : BitReader) : (s.setReader v).stream = s.stream := rfl
@[simp] theorem State.setReader_pos (s : State) (v : BitReader) : (s.setReader v).pos = s.pos := rfl
@[simp] theorem State.setReader_pending (s : State) (v : BitReader) : (s.setReader v).pending = s.pending := rfl
@[simp] theorem State.setReader_replies (s : State) (v : BitReader) : (s.setReader v).replies = s.replies := rfl
@[simp] theorem State.setReader_statuses (s : State) (v : BitReader) : (s.setReader v).statuses = s.statuses := rfl
@[simp] theorem State.setReader_setReader (s : State) (v w : BitReader) : (s.setReader v).setReader w = s.setReader w := rfl
@[simp] theorem State.setReader_self (s : State) : s.setReader s.reader = s := rfl

@[simp] theorem State.setTable_canvasW (s : State) (v : Memory Entry) : (s.setTable v).canvasW = s.canvasW := rfl
@[simp] theorem State.setTable_canvasH (s : State) (v : Memory Entry) : (s.setTable v).canvasH = s.canvasH := rfl
@[simp] theorem State.setTable_status (s : State) (v : Memory Entry) : (s.setTable v).status = s.status := rfl
@[simp] theorem State.setTable_bg (s : State) (v : Memory Entry) : (s.setTable v).bg = s.bg := rfl
@[simp] theorem State.setTable_rect (s : State) (v : Memory Entry) : (s.setTable v).rect = s.rect := rfl
@[simp] theorem State.setTable_ctrl (s : State) (v : Memory Entry) : (s.setTable v).ctrl = s.ctrl := rfl
@[simp] theorem State.setTable_gce (s : State) (v : Memory Entry) : (s.setTable v).gce = s.gce := rfl
@[simp] theorem State.setTable_keyOut (s : State) (v : Memory Entry) : (s.setTable v).keyOut = s.keyOut := rfl
@[simp] theorem State.setTable_lzw (s : State) (v : Memory Entry) : (s.setTable v).lzw = s.lzw := rfl
@[simp] theorem State.setTable_reader (s : State) (v : Memory Entry) : (s.setTable v).reader = s.reader := rfl
@[simp] theorem State.setTable_table (s : State) (v : Memory Entry) : (s.setTable v).table = v := rfl
@[simp] theorem State.setTable_gpal (s : State) (v : Memory Entry) : (s.setTable v).gpal = s.gpal := rfl
@[simp] theorem State.setTable_lpal (s : State) (v : Memory Entry) : (s.setTable v).lpal = s.lpal := rfl
@[simp] theorem State.setTable_frame (s : State) (v : Memory Entry) : (s.setTable v).frame = s.frame := rfl
@[simp] theorem State.setTable_canvas (s : State) (v : Memory Entry) : (s.setTable v).canvas = s.canvas := rfl
@[simp] theorem State.setTable_stream (s : State) (v : Memory Entry) : (s.setTable v).stream = s.stream := rfl
@[simp] theorem State.setTable_pos (s : State) (v : Memory Entry) : (s.setTable v).pos = s.pos := rfl
@[simp] theorem State.setTable_pending (s : State) (v : Memory Entry) : (s.setTable v).pending = s.pending := rfl
@[simp] theorem State.setTable_replies (s : State) (v : Memory Entry) : (s.setTable v).replies = s.replies := rfl
@[simp] theorem State.setTable_statuses (s : State) (v : Memory Entry) : (s.setTable v).statuses = s.statuses := rfl
@[simp] theorem State.setTable_setTable (s : State) (v w : Memory Entry) : (s.setTable v).setTable w = s.setTable w := rfl
@[simp] theorem State.setTable_self (s : State) : s.setTable s.table = s := rfl

@[simp] theorem State.setGpal_canvasW (s : State) (v : Memory Color) : (s.setGpal v).canvasW = s.canvasW := rfl
@[simp] theorem State.setGpal_canvasH (s : State) (v : Memory Color) : (s.setGpal v).canvasH = s.canvasH := rfl
@[simp] theorem State.setGpal_status (s : State) (v : Memory Color) : (s.setGpal v).status = s.status := rfl
@[simp] theorem State.setGpal_bg (s : State) (v : Memory Color) : (s.setGpal v).bg = s.bg := rfl
@[simp] theorem State.setGpal_rect (s : State) (v : Memory Color) : (s.setGpal v).rect = s.rect := rfl
@[simp] theorem State.setGpal_ctrl (s : State) (v : Memory Color) : (s.setGpal v).ctrl = s.ctrl := rfl
@[simp] theorem State.setGpal_gce (s : State) (v : Memory Color) : (s.setGpal v).gce = s.gce := rfl
@[simp] theorem State.setGpal_keyOut (s : State) (v : Memory Color) : (s.setGpal v).keyOut = s.keyOut := rfl
@[simp] theorem State.setGpal_lzw (s : State) (v : Memory Color) : (s.setGpal v).lzw = s.lzw := rfl
@[simp] theorem State.setGpal_reader (s : State) (v : Memory Color) : (s.setGpal v).reader = s.reader := rfl
@[simp] theorem State.setGpal_table (s : State) (v : Memory Color) : (s.setGpal v).table = s.table := rfl
@[simp] theorem State.setGpal_gpal (s : State) (v : Memory Color) : (s.setGpal v).gpal = v := rfl
@[simp] theorem State.setGpal_lpal (s : State) (v : Memory Color) : (s.setGpal v).lpal = s.lpal := rfl
@[simp] theorem State.setGpal_frame (s : State) (v : Memory Color) : (s.setGpal v).frame = s.frame := rfl
@[simp] theorem State.setGpal_canvas (s : State) (v : Memory Color) : (s.setGpal v).canvas = s.canvas := rfl
@[simp] theorem State.setGpal_stream (s : State) (v : Memory Color) : (s.setGpal v).stream = s.stream := rfl
@[simp] theorem State.setGpal_pos (s : State) (v : Memory Color) : (s.setGpal v).pos = s.pos := rfl
@[simp] theorem State.setGpal_pending (s : State) (v : Memory Color) : (s.setGpal v).pending = s.pending := rfl
@[simp] theorem State.setGpal_replies (s : State) (v : Memory Color) : (s.setGpal v).replies = s.replies := rfl
@[simp] theorem State.setGpal_statuses (s : State) (v : Memory Color) : (s.setGpal v).statuses = s.statuses := rfl
@[simp] theorem State.setGpal_setGpal (s : State) (v w : Memory Color) : (s.setGpal v).setGpal w = s.setGpal w := rfl
@[simp] theorem State.setGpal_self (s : State) : s.setGpal s.gpal = s := rfl

@[simp] theorem State.setLpal_canvasW (s : State) (v : Memory Color) : (s.setLpal v).canvasW = s.canvasW := rfl
@[simp] theorem State.setLpal_canvasH (s : State) (v : Memory Color) : (s.setLpal v).canvasH = s.canvasH := rfl
@[simp] theorem State.setLpal_status (s : State) (v : Memory Color) : (s.setLpal v).status = s.status := rfl
@[simp] theorem State.setLpal_bg (s : State) (v : Memory Color) : (s.setLpal v).bg = s.bg := rfl
@[simp] theorem State.setLpal_rect (s : State) (v : Memory Color) : (s.setLpal v).rect = s.rect := rfl
@[simp] theorem State.setLpal_ctrl (s : State) (v : Memory Color) : (s.setLpal v).ctrl = s.ctrl := rfl
@[simp] theorem State.setLpal_gce (s : State) (v : Memory Color) : (s.setLpal v).gce = s.gce := rfl
@[simp] theorem State.setLpal_keyOut (s : State) (v : Memory Color) : (s.setLpal v).keyOut = s.keyOut := rfl
@[simp] theorem State.setLpal_lzw (s : State) (v : Memory Color) : (s.setLpal v).lzw = s.lzw := rfl
@[simp] theorem State.setLpal_reader (s : State) (v : Memory Color) : (s.setLpal v).reader = s.reader := rfl
@[simp] theorem State.setLpal_table (s : State) (v : Memory Color) : (s.setLpal v).table = s.table := rfl
@[simp] theorem State.setLpal_gpal (s : State) (v : Memory Color) : (s.setLpal v).gpal = s.gpal := rfl
@[simp] theorem State.setLpal_lpal (s : State) (v : Memory Color) : (s.setLpal v).lpal = v := rfl
@[simp] theorem State.setLpal_frame (s : State) (v : Memory Color) : (s.setLpal v).frame = s.frame := rfl
@[simp] theorem State.setLpal_canvas (s : State) (v : Memory Color) : (s.setLpal v).canvas = s.canvas := rfl
@[simp] theorem State.setLpal_stream (s : State) (v : Memory Color) : (s.setLpal v).stream = s.stream := rfl
@[simp] theorem State.setLpal_pos (s : State) (v : Memory Color) : (s.setLpal v).pos = s.pos := rfl
@[simp] theorem State.setLpal_pending (s : State) (v : Memory Color) : (s.setLpal v).pending = s.pending := rfl
@[simp] theorem State.setLpal_replies (s : State) (v : Memory Color) : (s.setLpal v).replies = s.replies := rfl
@[simp] theorem State.setLpal_statuses (s : State) (v : Memory Color) : (s.setLpal v).statuses = s.statuses := rfl
@[simp] theorem State.setLpal_setLpal (s : State) (v w : Memory Color) : (s.setLpal v).setLpal w = s.setLpal w := rfl
@[simp] theorem State.setLpal_self (s : State) : s.setLpal s.lpal = s := rfl

@[simp] theorem State.setFrame_canvasW (s : State) (v : Memory Byte) : (s.setFrame v).canvasW = s.canvasW := rfl
@[simp] theorem State.setFrame_canvasH (s : State) (v : Memory Byte) : (s.setFrame v).canvasH = s.canvasH := rfl
@[simp] theorem State.setFrame_status (s : State) (v : Memory Byte) : (s.setFrame v).status = s.status := rfl
@[simp] theorem State.setFrame_bg (s : State) (v : Memory Byte) : (s.setFrame v).bg = s.bg := rfl
@[simp] theorem State.setFrame_rect (s : State) (v : Memory Byte) : (s.setFrame v).rect = s.rect := rfl
@[simp] theorem State.setFrame_ctrl (s : State) (v : Memory Byte) : (s.setFrame v).ctrl = s.ctrl := rfl
@[simp] theorem State.setFrame_gce (s : State) (v : Memory Byte) : (s.setFrame v).gce = s.gce := rfl
@[simp] theorem State.setFrame_keyOut (s : State) (v : Memory Byte) : (s.setFrame v).keyOut = s.keyOut := rfl
@[simp] theorem State.setFrame_lzw (s : State) (v : Memory Byte) : (s.setFrame v).lzw = s.lzw := rfl
@[simp] theorem State.setFrame_reader (s : State) (v : Memory Byte) : (s.setFrame v).reader = s.reader := rfl
@[simp] theorem State.setFrame_table (s : State) (v : Memory Byte) : (s.setFrame v).table = s.table := rfl
@[simp] theorem State.setFrame_gpal (s : State) (v : Memory Byte) : (s.setFrame v).gpal = s.gpal := rfl
@[simp] theorem State.setFrame_lpal (s : State) (v : Memory Byte) : (s.setFrame v).lpal = s.lpal := rfl
@[simp] theorem State.setFrame_frame (s : State) (v : Memory Byte) : (s.setFrame v).frame = v := rfl
@[simp] theorem State.setFrame_canvas (s : State) (v : Memory Byte) : (s.setFrame v).canvas = s.canvas := rfl
@[simp] theorem State.setFrame_stream (s : State) (v : Memory Byte) : (s.setFrame v).stream = s.stream := rfl
@[simp] theorem State.setFrame_pos (s : State) (v : Memory Byte) : (s.setFrame v).pos = s.pos := rfl
@[simp] theorem State.setFrame_pending (s : State) (v : Memory Byte) : (s.setFrame v).pending = s.pending := rfl
@[simp] theorem State.setFrame_replies (s : State) (v : Memory Byte) : (s.setFrame v).replies = s.replies := rfl
@[simp] theorem State.setFrame_statuses (s : State) (v : Memory Byte) : (s.setFrame v).statuses = s.statuses := rfl
@[simp] theorem State.setFrame_setFrame (s : State) (v w : Memory Byte) : (s.setFrame v).setFrame w = s.setFrame w := rfl
@[simp] theorem State.setFrame_self (s : State) : s.setFrame s.frame = s := rfl

@[simp] theorem State.setCanvas_canvasW (s : State) (v : Memory Color) : (s.setCanvas v).canvasW = s.canvasW := rfl
@[simp] theorem State.setCanvas_canvasH (s : State) (v : Memory Color) : (s.setCanvas v).canvasH = s.canvasH := rfl
@[simp] theorem State.setCanvas_status (s : State) (v : Memory Color) : (s.setCanvas v).status = s.status := rfl
@[simp] theorem State.setCanvas_bg (s : State) (v : Memory Color) : (s.setCanvas v).bg = s.bg := rfl
@[simp] theorem State.setCanvas_rect (s : State) (v : Memory Color) : (s.setCanvas v).rect = s.rect := rfl
@[simp] theorem State.setCanvas_ctrl (s : State) (v : Memory Color) : (s.setCanvas v).ctrl = s.ctrl := rfl
@[simp] theorem State.setCanvas_gce (s : State) (v : Memory Color) : (s.setCanvas v).gce = s.gce := rfl
@[simp] theorem State.setCanvas_keyOut (s : State) (v : Memory Color) : (s.setCanvas v).keyOut = s.keyOut := rfl
@[simp] theorem State.setCanvas_lzw (s : State) (v : Memory Color) : (s.setCanvas v).lzw = s.lzw := rfl
@[simp] theorem State.setCanvas_reader (s : State) (v : Memory Color) : (s.setCanvas v).reader = s.reader := rfl
@[simp] theorem State.setCanvas_table (s : State) (v : Memory Color) : (s.setCanvas v).table = s.table := rfl
@[simp] theorem State.setCanvas_gpal (s : State) (v : Memory Color) : (s.setCanvas v).gpal = s.gpal := rfl
@[simp] theorem State.setCanvas_lpal (s : State) (v : Memory Color) : (s.setCanvas v).lpal = s.lpal := rfl
@[simp] theorem State.setCanvas_frame (s : State) (v : Memory Color) : (s.setCanvas v).frame = s.frame := rfl
@[simp] theorem State.setCanvas_canvas (s : State) (v : Memory Color) : (s.setCanvas v).canvas = v := rfl
@[simp] theorem State.setCanvas_stream (s : State) (v : Memory Color) : (s.setCanvas v).stream = s.stream := rfl
@[simp] theorem State.setCanvas_pos (s : State) (v : Memory Color) : (s.setCanvas v).pos = s.pos := rfl
@[simp] theorem State.setCanvas_pending (s : State) (v : Memory Color) : (s.setCanvas v).pending = s.pending := rfl
@[simp] theorem State.setCanvas_replies (s : State) (v : Memory Color) : (s.setCanvas v).replies = s.replies := rfl
@[simp] theorem State.setCanvas_statuses (s : State) (v : Memory Color) : (s.setCanvas v).statuses = s.statuses := rfl
@[simp] theorem State.setCanvas_setCanvas (s : State) (v w : Memory Color) : (s.setCanvas v).setCanvas w = s.setCanvas w := rfl
@[simp] theorem State.setCanvas_self (s : State) : s.setCanvas s.canvas = s := rfl

@[simp] theorem State.setPos_canvasW (s : State) (v : BitVec 32) : (s.setPos v).canvasW = s.canvasW := rfl
@[simp] theorem State.setPos_canvasH (s : State) (v : BitVec 32) : (s.setPos v).canvasH = s.canvasH := rfl
@[simp] theorem State.setPos_status (s : State) (v : BitVec 32) : (s.setPos v).status = s.status := rfl
@[simp] theorem State.setPos_bg (s : State) (v : BitVec 32) : (s.setPos v).bg = s.bg := rfl
@[simp] theorem State.setPos_rect (s : State) (v : BitVec 32) : (s.setPos v).rect = s.rect := rfl
@[simp] theorem State.setPos_ctrl (s : State) (v : BitVec 32) : (s.setPos v).ctrl = s.ctrl := rfl
@[simp] theorem State.setPos_gce (s : State) (v : BitVec 32) : (s.setPos v).gce = s.gce := rfl
@[simp] theorem State.setPos_keyOut (s : State) (v : BitVec 32) : (s.setPos v).keyOut = s.keyOut := rfl
@[simp] theorem State.setPos_lzw (s : State) (v : BitVec 32) : (s.setPos v).lzw = s.lzw := rfl
@[simp] theorem State.setPos_reader (s : State) (v : BitVec 32) : (s.setPos v).reader = s.reader := rfl
@[simp] theorem State.setPos_table (s : State) (v : BitVec 32) : (s.setPos v).table = s.table := rfl
@[simp] theorem State.setPos_gpal (s : State) (v : BitVec 32) : (s.setPos v).gpal = s.gpal := rfl
@[simp] theorem State.setPos_lpal (s : State) (v : BitVec 32) : (s.setPos v).lpal = s.lpal := rfl
@[simp] theorem State.setPos_frame (s : State) (v : BitVec 32) : (s.setPos v).frame = s.frame := rfl
@[simp] theorem State.setPos_canvas (s : State) (v : BitVec 32) : (s.setPos v).canvas = s.canvas := rfl
@[simp] theorem State.setPos_stream (s : State) (v : BitVec 32) : (s.setPos v).stream = s.stream := rfl
@[simp] theorem State.setPos_pos (s : State) (v : BitVec 32) : (s.setPos v).pos = v := rfl
@[simp] theorem State.setPos_pending (s : State) (v : BitVec 32) : (s.setPos v).pending = s.pending := rfl
@[simp] theorem State.setPos_replies (s : State) (v : BitVec 32) : (s.setPos v).replies = s.replies := rfl
@[simp] theorem State.setPos_statuses (s : State) (v : BitVec 32) : (s.setPos v).statuses = s.statuses := rfl
@[simp] theorem State.setPos_setPos (s : State) (v w : BitVec 32) : (s.setPos v).setPos w = s.setPos w := rfl
@[simp] theorem State.setPos_self (s : State) : s.setPos s.pos = s := rfl

@[simp] theorem State.setPending_canvasW (s : State) (v : List Interaction) : (s.setPending v).canvasW = s.canvasW := rfl
@[simp] theorem State.setPending_canvasH (s : State) (v : List Interaction) : (s.setPending v).canvasH = s.canvasH := rfl
@[simp] theorem State.setPending_status (s : State) (v : List Interaction) : (s.setPending v).status = s.status := rfl
@[simp] theorem State.setPending_bg (s : State) (v : List Interaction) : (s.setPending v).bg = s.bg := rfl
@[simp] theorem State.setPending_rect (s : State) (v : List Interaction) : (s.setPending v).rect = s.rect := rfl
@[simp] theorem State.setPending_ctrl (s : State) (v : List Interaction) : (s.setPending v).ctrl = s.ctrl := rfl
@[simp] theorem State.setPending_gce (s : State) (v : List Interaction) : (s.setPending v).gce = s.gce := rfl
@[simp] theorem State.setPending_keyOut (s : State) (v : List Interaction) : (s.setPending v).keyOut = s.keyOut := rfl
@[simp] theorem State.setPending_lzw (s : State) (v : List Interaction) : (s.setPending v).lzw = s.lzw := rfl
@[simp] theorem State.setPending_reader (s : State) (v : List Interaction) : (s.setPending v).reader = s.reader := rfl
@[simp] theorem State.setPending_table (s : State) (v : List Interaction) : (s.setPending v).table = s.table := rfl
@[simp] theorem State.setPending_gpal (s : State) (v : List Interaction) : (s.setPending v).gpal = s.gpal := rfl
@[simp] theorem State.setPending_lpal (s : State) (v : List Interaction) : (s.setPending v).lpal = s.lpal := rfl
@[simp] theorem State.setPending_frame (s : State) (v : List Interaction) : (s.setPending v).frame = s.frame := rfl
@[simp] theorem State.setPending_canvas (s : State) (v : List Interaction) : (s.setPending v).canvas = s.canvas := rfl
@[simp] theorem State.setPending_stream (s : State) (v : List Interaction) : (s.setPending v).stream = s.stream := rfl
@[simp] theorem State.setPending_pos (s : State) (v : List Interaction) : (s.setPending v).pos = s.pos := rfl
@[simp] theorem State.setPending_pending (s : State) (v : List Interaction) : (s.setPending v).pending = v := rfl
@[simp] theorem State.setPending_replies (s : State) (v : List Interaction) : (s.setPending v).replies = s.replies := rfl
@[simp] theorem State.setPending_statuses (s : State) (v : List Interaction) : (s.setPending v).statuses = s.statuses := rfl
@[simp] theorem State.setPending_setPending (s : State) (v w : List Interaction) : (s.setPending v).setPending w = s.setPending w := rfl
@[simp] theorem State.setPending_self (s : State) : s.setPending s.pending = s := rfl

@[simp] theorem State.setReplies_canvasW (s : State) (v : List Reply) : (s.setReplies v).canvasW = s.canvasW := rfl
@[simp] theorem State.setReplies_canvasH (s : State) (v : List Reply) : (s.setReplies v).canvasH = s.canvasH := rfl
@[simp] theorem State.setReplies_status (s : State) (v : List Reply) : (s.setReplies v).status = s.status := rfl
@[simp] theorem State.setReplies_bg (s : State) (v : List Reply) : (s.setReplies v).bg = s.bg := rfl
@[simp] theorem State.setReplies_rect (s : State) (v : List Reply) : (s.setReplies v).rect = s.rect := rfl
@[simp] theorem State.setReplies_ctrl (s : State) (v : List Reply) : (s.setReplies v).ctrl = s.ctrl := rfl
@[simp] theorem State.setReplies_gce (s : State) (v : List Reply) : (s.setReplies v).gce = s.gce := rfl
@[simp] theorem State.setReplies_keyOut (s : State) (v : List Reply) : (s.setReplies v).keyOut = s.keyOut := rfl
@[simp] theorem State.setReplies_lzw (s : State) (v : List Reply) : (s.setReplies v).lzw = s.lzw := rfl
@[simp] theorem State.setReplies_reader (s : State) (v : List Reply) : (s.setReplies v).reader = s.reader := rfl
@[simp] theorem State.setReplies_table (s : State) (v : List Reply) : (s.setReplies v).table = s.table := rfl
@[simp] theorem State.setReplies_gpal (s : State) (v : List Reply) : (s.setReplies v).gpal = s.gpal := rfl
@[simp] theorem State.setReplies_lpal (s : State) (v : List Reply) : (s.setReplies v).lpal = s.lpal := rfl
@[simp] theorem State.setReplies_frame (s : State) (v : List Reply) : (s.setReplies v).frame = s.frame := rfl
@[simp] theorem State.setReplies_canvas (s : State) (v : List Reply) : (s.setReplies v).canvas = s.canvas := rfl
@[simp] theorem State.setReplies_stream (s : State) (v : List Reply) : (s.setReplies v).stream = s.stream := rfl
@[simp] theorem State.setReplies_pos (s : State) (v : List Reply) : (s.setReplies v).pos = s.pos := rfl
@[simp] theorem State.setReplies_pending (s : State) (v : List Reply) : (s.setReplies v).pending = s.pending := rfl
@[simp] theorem State.setReplies_replies (s : State) (v : List Reply) : (s.setReplies v).replies = v := rfl
@[simp] theorem State.setReplies_statuses (s : State) (v : List Reply) : (s.setReplies v).statuses = s.statuses := rfl
@[simp] theorem State.setReplies_setReplies (s : State) (v w : List Reply) : (s.setReplies v).setReplies w = s.setReplies w := rfl
@[simp] theorem State.setReplies_self (s : State) : s.setReplies s.replies = s := rfl

@[simp] theorem State.setStatuses_canvasW (s : State) (v : List Status) : (s.setStatuses v).canvasW = s.canvasW := rfl
@[simp] theorem State.setStatuses_canvasH (s : State) (v : List Status) : (s.setStatuses v).canvasH = s.canvasH := rfl
@[simp] theorem State.setStatuses_status (s : State) (v : List Status) : (s.setStatuses v).status = s.status := rfl
@[simp] theorem State.setStatuses_bg (s : State) (v : List Status) : (s.setStatuses v).bg = s.bg := rfl
@[simp] theorem State.setStatuses_rect (s : State) (v : List Status) : (s.setStatuses v).rect = s.rect := rfl
@[simp] theorem State.setStatuses_ctrl (s : State) (v : List Status) : (s.setStatuses v).ctrl = s.ctrl := rfl
@[simp] theorem State.setStatuses_gce (s : State) (v : List Status) : (s.setStatuses v).gce = s.gce := rfl
@[simp] theorem State.setStatuses_keyOut (s : State) (v : List Status) : (s.setStatuses v).keyOut = s.keyOut := rfl
@[simp] theorem State.setStatuses_lzw (s : State) (v : List Status) : (s.setStatuses v).lzw = s.lzw := rfl
@[simp] theorem State.setStatuses_reader (s : State) (v : List Status) : (s.setStatuses v).reader = s.reader := rfl
@[simp] theorem State.setStatuses_table (s : State) (v : List Status) : (s.setStatuses v).table = s.table := rfl
@[simp] theorem State.setStatuses_gpal (s : State) (v : List Status) : (s.setStatuses v).gpal = s.gpal := rfl
@[simp] theorem State.setStatuses_lpal (s : State) (v : List Status) : (s.setStatuses v).lpal = s.lpal := rfl
@[simp] theorem State.setStatuses_frame (s : State) (v : List Status) : (s.setStatuses v).frame = s.frame := rfl
@[simp] theorem State.setStatuses_canvas (s : State) (v : List Status) : (s.setStatuses v).canvas = s.canvas := rfl
@[simp] theorem State.setStatuses_stream (s : State) (v : List Status) : (s.setStatuses v).stream = s.stream := rfl
@[simp] theorem State.setStatuses_pos (s : State) (v : List Status) : (s.setStatuses v).pos = s.pos := rfl
@[simp] theorem State.setStatuses_pending (s : State) (v : List Status) : (s.setStatuses v).pending = s.pending := rfl
@[simp] theorem State.setStatuses_replies (s : State) (v : List Status) : (s.setStatuses v).replies = s.replies := rfl
@[simp] theorem State.setStatuses_statuses (s : State) (v : List Status) : (s.setStatuses v).statuses = v := rfl
@[simp] theorem State.setStatuses_setStatuses (s : State) (v w : List Status) : (s.setStatuses v).setStatuses w = s.setStatuses w := rfl
@[simp] theorem State.setStatuses_self (s : State) : s.setStatuses s.statuses = s := rfl

end Sys2Proof.Machine
end

