-- ==== Sys2Proof/Laws/Reader.lean ====
section
/-! SUPPORT. What the stream and the bit reader can do to a state: the parts of GetKey and SkipSubBlocks change the
reader's registers and POS, and nothing else (40_subblock_reader.md R72 to R74). -/

namespace Sys2Proof.Machine

/-- `t` is `s` but for the bit reader and POS. -/
def ReaderOnly (s t : State) : Prop := t = (s.setReader t.reader).setPos t.pos

theorem ReaderOnly.refl (s : State) : ReaderOnly s s := rfl

theorem ReaderOnly.trans {s t u : State} (h : ReaderOnly s t) (k : ReaderOnly t u) : ReaderOnly s u := by
  unfold ReaderOnly at *
  rw [k, h]
  rfl

theorem ReaderOnly.setPos {s t : State} (h : ReaderOnly s t) (p : BitVec 32) : ReaderOnly s (t.setPos p) := by
  unfold ReaderOnly at *; rw [h]; rfl

theorem ReaderOnly.setReader {s t : State} (h : ReaderOnly s t) (r : BitReader) : ReaderOnly s (t.setReader r) := by
  unfold ReaderOnly at *; rw [h]; rfl

/-- The two outcomes of a stream read (20_memory.md R44). -/
theorem streamRead8_cases (s : State) :
    (∃ b, s.stream[s.pos.toNat]? = some b ∧ streamRead8 s = .done b (s.setPos (s.pos + 1))) ∨
      (s.stream[s.pos.toNat]? = none ∧ streamRead8 s = .raised .streamEnd s) := by
  unfold streamRead8
  cases s.stream[s.pos.toNat]? with
  | some b => exact .inl ⟨b, rfl, rfl⟩
  | none => exact .inr ⟨rfl, rfl⟩

theorem streamRead8_readerOnly (s : State) : (streamRead8 s).Leaves (ReaderOnly s) := by
  rcases streamRead8_cases s with ⟨b, -, h⟩ | ⟨-, h⟩ <;> rw [h]
  · exact (ReaderOnly.refl s).setPos _
  · exact ReaderOnly.refl s

theorem openSubBlock_readerOnly (s : State) : (openSubBlock s).Leaves (ReaderOnly s) := by
  unfold openSubBlock
  split
  · refine (streamRead8_readerOnly s).andThen (fun _ _ _ h => h) fun len t _ h => ?_
    dsimp only
    split
    · exact h
    · exact h.setReader _
  · exact ReaderOnly.refl s

theorem loadByte_readerOnly (s : State) : (loadByte s).Leaves (ReaderOnly s) :=
  (openSubBlock_readerOnly s).andThen (fun _ _ _ h => h) fun _ t _ h =>
    (streamRead8_readerOnly t).andThen (fun _ _ _ k => h.trans k) fun _ _ _ k => (h.trans k).setReader _

theorem getKeyLoop_readerOnly (w fuel n key : Nat) (s : State) :
    (getKeyLoop w fuel n key s).Leaves (ReaderOnly s) := by
  induction fuel generalizing n key s with
  | zero => unfold getKeyLoop; split <;> trivial
  | succ fuel ih =>
    unfold getKeyLoop
    split
    · have h : (if bitOffset s n = 0 then loadByte s else .done () s).Leaves (ReaderOnly s) := by
        split
        · exact loadByte_readerOnly s
        · exact ReaderOnly.refl s
      exact h.andThen (fun _ _ _ h => h) fun _ t _ h => (ih _ _ t).mono fun _ k => h.trans k
    · exact ReaderOnly.refl s

/-- GetKey changes the reader's registers and POS only (40_subblock_reader.md R77). -/
theorem getKey_readerOnly (w : Nat) (s : State) : (getKey w s).Leaves (ReaderOnly s) :=
  (getKeyLoop_readerOnly w w 0 0 s).andThen (fun _ _ _ h => h) fun _ _ _ h => h.setReader _

/-- `t` is `s` but for POS. -/
def PosOnly (s t : State) : Prop := t = s.setPos t.pos

theorem PosOnly.refl (s : State) : PosOnly s s := rfl

theorem PosOnly.setPos {s t : State} (h : PosOnly s t) (p : BitVec 32) : PosOnly s (t.setPos p) := by
  unfold PosOnly at *; rw [h]; rfl

theorem PosOnly.trans {s t u : State} (h : PosOnly s t) (k : PosOnly t u) : PosOnly s u := by
  unfold PosOnly at *; rw [k, h]; rfl

theorem PosOnly.readerOnly {s t : State} (h : PosOnly s t) : ReaderOnly s t := by
  unfold PosOnly ReaderOnly at *; rw [h]; rfl

theorem streamRead8_posOnly (s : State) : (streamRead8 s).Leaves (PosOnly s) := by
  rcases streamRead8_cases s with ⟨b, -, h⟩ | ⟨-, h⟩ <;> rw [h]
  · exact (PosOnly.refl s).setPos _
  · exact PosOnly.refl s

theorem skipLoop_posOnly (fuel : Nat) (s : State) : (skipLoop fuel s).Leaves (PosOnly s) := by
  induction fuel generalizing s with
  | zero => trivial
  | succ fuel ih =>
    refine (streamRead8_posOnly s).andThen (fun _ _ _ h => h) fun len t _ h => ?_
    split
    · exact h
    · exact (ih _).mono fun _ k => (h.setPos _).trans k

/-- SkipSubBlocks changes POS only (40_subblock_reader.md R74). -/
theorem skipSubBlocks_posOnly (s : State) : (skipSubBlocks s).Leaves (PosOnly s) := skipLoop_posOnly _ s

end Sys2Proof.Machine
end

