-- ==== Sys2Proof/Laws/SubBlocks.lean ====
section
/-! SUPPORT. The sub-block sequence as a function of the bytes: how `payload`, `hasTerminator` and `discardLength` go past
the current sub-block and past one header, and a stream read in those terms. -/

namespace Sys2Proof.Safety

open Sys2Proof.Machine

theorem payload_rem (rem : Nat) (bytes : List Byte) :
    payload rem bytes = bytes.take rem ++ payload 0 (bytes.drop rem) := by
  induction bytes generalizing rem with
  | nil => simp [payload]
  | cons b rest ih =>
    cases rem with
    | zero => simp
    | succ rem => simp [payload, ih rem]

theorem hasTerminator_rem (rem : Nat) (bytes : List Byte) :
    hasTerminator rem bytes = hasTerminator 0 (bytes.drop rem) := by
  induction bytes generalizing rem with
  | nil => simp [hasTerminator]
  | cons b rest ih =>
    cases rem with
    | zero => simp
    | succ rem => simp [hasTerminator, ih rem]

theorem discardLength_rem (rem : Nat) (bytes : List Byte) :
    discardLength rem bytes = rem + discardLength 0 (bytes.drop rem) := by
  induction bytes generalizing rem with
  | nil => simp [discardLength]
  | cons b rest ih =>
    cases rem with
    | zero => simp
    | succ rem => simp [discardLength, ih rem]; omega

@[simp] theorem payload_zero_terminator (rest : List Byte) : payload 0 (0 :: rest) = [] := by simp [payload]
@[simp] theorem hasTerminator_zero_terminator (rest : List Byte) : hasTerminator 0 (0 :: rest) = true := by
  simp [hasTerminator]
@[simp] theorem discardLength_zero_terminator (rest : List Byte) : discardLength 0 (0 :: rest) = 1 := by
  simp [discardLength]

theorem payload_zero_header {len : Byte} (h : len ≠ 0) (rest : List Byte) :
    payload 0 (len :: rest) = payload len.toNat rest := by
  rw [payload, if_neg h]
theorem hasTerminator_zero_header {len : Byte} (h : len ≠ 0) (rest : List Byte) :
    hasTerminator 0 (len :: rest) = hasTerminator len.toNat rest := by
  rw [hasTerminator, decide_eq_false h, Bool.false_or]
theorem discardLength_zero_header {len : Byte} (h : len ≠ 0) (rest : List Byte) :
    discardLength 0 (len :: rest) = discardLength len.toNat rest + 1 := by
  rw [discardLength, if_neg h]

/-- A sequence that ends in a terminator lies inside its bytes. -/
theorem discardLength_le_of_terminator {rem : Nat} {bytes : List Byte} (h : hasTerminator rem bytes = true) :
    discardLength rem bytes ≤ bytes.length := by
  induction bytes generalizing rem with
  | nil => simp [hasTerminator] at h
  | cons b rest ih =>
    cases rem with
    | zero =>
      by_cases hb : b = 0
      · subst hb; rw [discardLength_zero_terminator]; simp only [List.length_cons]; omega
      · rw [hasTerminator_zero_header hb] at h
        have := ih h
        rw [discardLength_zero_header hb]
        simp only [List.length_cons]; omega
    | succ rem =>
      have := ih (by simpa [hasTerminator] using h)
      simp only [discardLength, List.length_cons]; omega

/-- The discard routine moves at most 255 bytes past the end. -/
theorem discardLength_le (rem : Nat) (bytes : List Byte) (h : rem ≤ 255) :
    discardLength rem bytes ≤ bytes.length + 255 := by
  induction bytes generalizing rem with
  | nil => simpa [discardLength] using h
  | cons b rest ih =>
    cases rem with
    | zero =>
      by_cases hb : b = 0
      · subst hb; rw [discardLength_zero_terminator]; simp only [List.length_cons]; omega
      · have := ih b.toNat (by have := b.isLt; omega)
        rw [discardLength_zero_header hb]
        simp only [List.length_cons]; omega
    | succ rem =>
      have := ih rem (by omega)
      simp only [discardLength, List.length_cons]; omega

/-! How far the reader has come after some data bytes. -/

@[simp] theorem readLength_zero (rem : Nat) (bytes : List Byte) : readLength 0 rem bytes = 0 := by
  cases bytes <;> simp [readLength]
@[simp] theorem blockLeft_zero (rem : Nat) (bytes : List Byte) : blockLeft 0 rem bytes = rem := by
  cases bytes <;> simp [blockLeft]
@[simp] theorem readLength_nil (n rem : Nat) : readLength n rem [] = 0 := by simp [readLength]
@[simp] theorem blockLeft_nil (n rem : Nat) : blockLeft n rem [] = rem := by simp [blockLeft]

theorem readLength_header (n : Nat) (len : Byte) (rest : List Byte) :
    readLength (n + 1) 0 (len :: rest) = readLength (n + 1) len.toNat rest + 1 := by rw [readLength]
theorem blockLeft_header (n : Nat) (len : Byte) (rest : List Byte) :
    blockLeft (n + 1) 0 (len :: rest) = blockLeft (n + 1) len.toNat rest := by rw [blockLeft]
theorem readLength_data (n rem : Nat) (b : Byte) (rest : List Byte) :
    readLength (n + 1) (rem + 1) (b :: rest) = readLength n rem rest + 1 := by rw [readLength]
theorem blockLeft_data (n rem : Nat) (b : Byte) (rest : List Byte) :
    blockLeft (n + 1) (rem + 1) (b :: rest) = blockLeft n rem rest := by rw [blockLeft]

/-! The stream from POS on. -/

/-- The bytes from POS on. -/
def streamFrom (s : State) : List Byte := s.stream.drop s.pos.toNat

theorem streamWf_le {s : State} (h : streamWf s.stream = true) : s.stream.length ≤ 4294967040 := by
  exact of_decide_eq_true (p := s.stream.length ≤ Config.maxStreamLen) h

/-- POS moved by `n` that does not wrap. -/
theorem pos_add_toNat {p q : BitVec 32} (h : p.toNat + q.toNat < 2 ^ 32) : (p + q).toNat = p.toNat + q.toNat := by
  rw [BitVec.toNat_add]; exact Nat.mod_eq_of_lt h

/-- A stream read from a stream with bytes left: it gives the first and POS moves past it. -/
theorem streamRead8_of_cons {s : State} (hs : streamWf s.stream = true) {b : Byte} {rest : List Byte}
    (h : streamFrom s = b :: rest) :
    streamRead8 s = .done b (s.setPos (s.pos + 1)) ∧ (s.pos + 1).toNat = s.pos.toNat + 1 ∧
      streamFrom (s.setPos (s.pos + 1)) = rest := by
  have hlen := streamWf_le hs
  have hget : s.stream[s.pos.toNat]? = some b := by
    have : (s.stream.drop s.pos.toNat)[0]? = some b := by rw [show s.stream.drop s.pos.toNat = b :: rest from h]; rfl
    simpa using this
  have hlt : s.pos.toNat < s.stream.length := by
    by_contra hc
    rw [List.getElem?_eq_none (by omega)] at hget; cases hget
  have hp : (s.pos + 1).toNat = s.pos.toNat + 1 := pos_add_toNat (by
    show s.pos.toNat + 1 < 2 ^ 32
    omega)
  refine ⟨by simp only [streamRead8, hget], hp, ?_⟩
  show s.stream.drop (s.pos + 1).toNat = rest
  rw [hp, ← List.drop_drop, show s.stream.drop s.pos.toNat = b :: rest from h]; rfl

theorem pos_lt_of_cons {s : State} {b : Byte} {rest : List Byte} (h : streamFrom s = b :: rest) :
    s.pos.toNat < s.stream.length := by
  have := congrArg List.length h
  simp only [streamFrom, List.length_drop, List.length_cons] at this
  omega

/-- A stream read with no bytes left raises StreamEnd. -/
theorem streamRead8_of_nil {s : State} (h : streamFrom s = []) : streamRead8 s = .raised .streamEnd s := by
  have hget : s.stream[s.pos.toNat]? = none := by
    have : (s.stream.drop s.pos.toNat)[0]? = none := by rw [show s.stream.drop s.pos.toNat = [] from h]; rfl
    simpa using this
  simp only [streamRead8, hget]

/-- The bytes from POS on, after a seek inside the 32-bit range. -/
theorem streamFrom_of_pos {s t : State} (h : t.stream = s.stream) {n : Nat} (hp : t.pos.toNat = s.pos.toNat + n) :
    streamFrom t = (streamFrom s).drop n := by
  unfold streamFrom; rw [h, hp, List.drop_drop]

/-- The discard loop with enough rounds ends where `discardLength` says (40_subblock_reader.md R74). -/
theorem skipLoop_spec (fuel : Nat) (s : State) (hs : streamWf s.stream = true)
    (hf : s.stream.length < fuel + s.pos.toNat) (hf0 : 0 < fuel) :
    ∃ p : BitVec 32, p.toNat = s.pos.toNat + discardLength 0 (streamFrom s) ∧
      skipLoop fuel s =
        if hasTerminator 0 (streamFrom s) then .done () (s.setPos p) else .raised .streamEnd (s.setPos p) := by
  induction fuel generalizing s with
  | zero => omega
  | succ fuel ih =>
    unfold skipLoop
    cases h : streamFrom s with
    | nil =>
      rw [streamRead8_of_nil h]
      exact ⟨s.pos, by simp [discardLength], by simp [hasTerminator]⟩
    | cons b rest =>
      obtain ⟨h1, h2, h3⟩ := streamRead8_of_cons hs h
      have hl := streamWf_le hs
      have hlt : s.pos.toNat < s.stream.length := by
        have := congrArg List.length h; simp [streamFrom] at this; omega
      rw [h1, Res.done_andThen]
      by_cases hb : b = 0
      · subst hb
        rw [if_pos rfl]
        exact ⟨s.pos + 1, by rw [h2, discardLength_zero_terminator], by rw [hasTerminator_zero_terminator]; rfl⟩
      · rw [if_neg hb]
        have hbl := b.isLt
        set u := streamSeek ((s.setPos (s.pos + 1)).pos + b.setWidth 32) (s.setPos (s.pos + 1)) with hu
        have hup : u.pos.toNat = s.pos.toNat + (1 + b.toNat) := by
          rw [hu]; simp only [streamSeek, State.setPos_pos]
          rw [pos_add_toNat, h2]
          · simp; omega
          · rw [h2]; simp; omega
        obtain ⟨p, hp1, hp2⟩ := ih u hs (by rw [hup]; show s.stream.length < _; omega) (by omega)
        have hfrom : streamFrom u = rest.drop b.toNat := by
          rw [streamFrom_of_pos (s := s) (t := u) rfl hup, h, Nat.add_comm, List.drop_succ_cons]
        rw [hfrom] at hp1 hp2
        refine ⟨p, ?_, ?_⟩
        · rw [hp1, hup, discardLength_zero_header hb, discardLength_rem b.toNat rest]; omega
        · rw [hp2, hasTerminator_zero_header hb, hasTerminator_rem b.toNat rest]
          rfl

/-- SkipSubBlocks ends where `discardLength` says: past the terminator, or with StreamEnd at the length byte it cannot
read (40_subblock_reader.md R74, R75). -/
theorem skipSubBlocks_spec (s : State) (hs : streamWf s.stream = true) :
    ∃ p : BitVec 32, p.toNat = s.pos.toNat + discardLength 0 (streamFrom s) ∧
      skipSubBlocks s =
        if hasTerminator 0 (streamFrom s) then .done () (s.setPos p) else .raised .streamEnd (s.setPos p) :=
  skipLoop_spec _ s hs (by omega) (by omega)

/-! One data byte. -/

/-- The data bytes of the sequence still to come. -/
def dataLeft (s : State) : List Byte := payload s.reader.sbRem.toNat (streamFrom s)

/-- Where the sequence ends: POS just past the terminator, when there is one. -/
def sequenceEnd (s : State) : Nat := s.pos.toNat + discardLength s.reader.sbRem.toNat (streamFrom s)

/-- The sequence still to come ends in a terminator. -/
def terminated (s : State) : Bool := hasTerminator s.reader.sbRem.toNat (streamFrom s)

/-- Where POS is when the reader has taken `n` more data bytes. -/
def posAfter (s : State) (n : Nat) : Nat := s.pos.toNat + readLength n s.reader.sbRem.toNat (streamFrom s)

/-- What is left of the current sub-block when the reader has taken `n` more data bytes. -/
def blockAfter (s : State) (n : Nat) : Nat := blockLeft n s.reader.sbRem.toNat (streamFrom s)

@[simp] theorem posAfter_zero (s : State) : posAfter s 0 = s.pos.toNat := by simp [posAfter]
@[simp] theorem blockAfter_zero (s : State) : blockAfter s 0 = s.reader.sbRem.toNat := by simp [blockAfter]

/-- What opening a sub-block comes to when the data goes on, is over, or is cut off (40_subblock_reader.md R72, R73). -/
theorem loadByte_of_cons {s : State} (hs : streamWf s.stream = true) {b : Byte} {data : List Byte}
    (h : dataLeft s = b :: data) :
    ∃ t, loadByte s = .done () t ∧ t.reader.curByte = b ∧ t.reader.shift = s.reader.shift ∧ dataLeft t = data ∧
      sequenceEnd t = sequenceEnd s ∧ terminated t = terminated s ∧ ReaderOnly s t ∧
      (s.pos.toNat < t.pos.toNat ∧ t.pos.toNat ≤ s.stream.length) ∧
      ∀ n, posAfter s (n + 1) = posAfter t n ∧ blockAfter s (n + 1) = blockAfter t n := by
  have hro := loadByte_readerOnly s
  by_cases hz : s.reader.sbRem = 0
  · -- a header is read first
    cases hf : streamFrom s with
    | nil => simp [dataLeft, hf, payload] at h
    | cons len rest =>
      obtain ⟨h1, h2, h3⟩ := streamRead8_of_cons hs hf
      have hz' : s.reader.sbRem.toNat = 0 := by rw [hz]; rfl
      have hl : len ≠ 0 := by
        rintro rfl
        rw [dataLeft, hf, hz', payload_zero_terminator] at h; cases h
      rw [dataLeft, hf, hz', payload_zero_header hl] at h
      obtain ⟨k, hk⟩ : ∃ k, len.toNat = k + 1 := by
        refine ⟨len.toNat - 1, ?_⟩
        have : len.toNat ≠ 0 := fun e => hl (BitVec.eq_of_toNat_eq (by simpa using e))
        omega
      cases rest with
      | nil => simp [payload] at h
      | cons c rest =>
        rw [hk, payload] at h
        injection h with hb hd
        subst hb
        set u := (s.setPos (s.pos + 1)).setReader { s.reader with sbRem := len } with hu
        obtain ⟨g1, g2, g3⟩ := streamRead8_of_cons (s := u) (by exact hs) (show streamFrom u = c :: rest from h3)
        have hopen : openSubBlock s = .done () u := by
          rw [openSubBlock, if_pos hz, h1, Res.done_andThen, if_neg hl]; rfl
        have hsub : (len - 1 : Byte).toNat = k := by
          have := len.isLt
          rw [BitVec.toNat_sub]; simp; omega
        have hload : loadByte s = .done () ((u.setPos (u.pos + 1)).setReader
            { u.reader with curByte := c, sbRem := u.reader.sbRem - 1 }) := by
          rw [loadByte, hopen, Res.done_andThen, g1, Res.done_andThen]; rfl
        rw [hload] at hro ⊢
        have hlt : u.pos.toNat < s.stream.length := pos_lt_of_cons (s := u) h3
        refine ⟨_, rfl, rfl, rfl, ?_, ?_, ?_, hro, ⟨?_, ?_⟩, fun n => ⟨?_, ?_⟩⟩
        · show payload (len - 1 : Byte).toNat (streamFrom (u.setPos (u.pos + 1))) = data
          rw [hsub, g3]; exact hd
        · show (u.pos + 1).toNat + discardLength (len - 1 : Byte).toNat (streamFrom (u.setPos (u.pos + 1))) = _
          have hup : u.pos.toNat = s.pos.toNat + 1 := h2
          rw [hsub, g3, g2, sequenceEnd, hf, hz', discardLength_zero_header hl, hk, hup]
          simp only [discardLength]; omega
        · show hasTerminator (len - 1 : Byte).toNat (streamFrom (u.setPos (u.pos + 1))) = _
          rw [hsub, g3, terminated, hf, hz', hasTerminator_zero_header hl, hk]
          simp only [hasTerminator]
        · show s.pos.toNat < (u.pos + 1).toNat
          rw [g2, show u.pos.toNat = s.pos.toNat + 1 from h2]; omega
        · show (u.pos + 1).toNat ≤ _
          rw [g2]; omega
        · show _ = (u.pos + 1).toNat + readLength n (len - 1 : Byte).toNat (streamFrom (u.setPos (u.pos + 1)))
          have hup : u.pos.toNat = s.pos.toNat + 1 := h2
          rw [hsub, g3, g2, posAfter, hf, hz', readLength_header, hk, readLength_data, hup]; omega
        · show _ = blockLeft n (len - 1 : Byte).toNat (streamFrom (u.setPos (u.pos + 1)))
          rw [hsub, g3, blockAfter, hf, hz', blockLeft_header, hk, blockLeft_data]
  · -- inside a sub-block
    obtain ⟨k, hk⟩ : ∃ k, s.reader.sbRem.toNat = k + 1 := by
      refine ⟨s.reader.sbRem.toNat - 1, ?_⟩
      have : s.reader.sbRem.toNat ≠ 0 := fun e => hz (BitVec.eq_of_toNat_eq (by simpa using e))
      omega
    cases hf : streamFrom s with
    | nil => simp [dataLeft, hf, payload] at h
    | cons c rest =>
      rw [dataLeft, hf, hk, payload] at h
      injection h with hb hd
      subst hb
      obtain ⟨h1, h2, h3⟩ := streamRead8_of_cons hs hf
      have hsub : (s.reader.sbRem - 1).toNat = k := by
        have := s.reader.sbRem.isLt
        rw [BitVec.toNat_sub]; simp; omega
      have hload : loadByte s = .done () ((s.setPos (s.pos + 1)).setReader
          { s.reader with curByte := c, sbRem := s.reader.sbRem - 1 }) := by
        rw [loadByte, openSubBlock, if_neg hz, Res.done_andThen, h1, Res.done_andThen]; rfl
      rw [hload] at hro ⊢
      have hlt := pos_lt_of_cons hf
      refine ⟨_, rfl, rfl, rfl, ?_, ?_, ?_, hro, ⟨?_, ?_⟩, fun n => ⟨?_, ?_⟩⟩
      · show payload (s.reader.sbRem - 1).toNat (streamFrom (s.setPos (s.pos + 1))) = data
        rw [hsub, h3]; exact hd
      · show (s.pos + 1).toNat + discardLength (s.reader.sbRem - 1).toNat (streamFrom (s.setPos (s.pos + 1))) = _
        rw [hsub, h3, h2, sequenceEnd, hf, hk]; simp only [discardLength]; omega
      · show hasTerminator (s.reader.sbRem - 1).toNat (streamFrom (s.setPos (s.pos + 1))) = _
        rw [hsub, h3, terminated, hf, hk]; simp only [hasTerminator]
      · show s.pos.toNat < (s.pos + 1).toNat
        omega
      · show (s.pos + 1).toNat ≤ _
        omega
      · show _ = (s.pos + 1).toNat + readLength n (s.reader.sbRem - 1).toNat (streamFrom (s.setPos (s.pos + 1)))
        rw [hsub, h3, h2, posAfter, hf, hk, readLength_data]; omega
      · show _ = blockLeft n (s.reader.sbRem - 1).toNat (streamFrom (s.setPos (s.pos + 1)))
        rw [hsub, h3, blockAfter, hf, hk, blockLeft_data]

/-- A data byte is wanted and the terminator comes (40_subblock_reader.md R73). -/
theorem loadByte_of_terminator {s : State} (hs : streamWf s.stream = true) (h : dataLeft s = [])
    (ht : terminated s = true) :
    ∃ t, loadByte s = .raised .endOfData t ∧ t.reader = s.reader ∧ s.reader.sbRem = 0 ∧
      t.pos.toNat = sequenceEnd s ∧ ReaderOnly s t := by
  have hro := loadByte_readerOnly s
  have hz : s.reader.sbRem = 0 := by
    by_contra hz
    obtain ⟨k, hk⟩ : ∃ k, s.reader.sbRem.toNat = k + 1 := by
      refine ⟨s.reader.sbRem.toNat - 1, ?_⟩
      have : s.reader.sbRem.toNat ≠ 0 := fun e => hz (BitVec.eq_of_toNat_eq (by simpa using e))
      omega
    cases hf : streamFrom s with
    | nil => simp [terminated, hf, hasTerminator] at ht
    | cons c rest => simp [dataLeft, hf, hk, payload] at h
  have hz' : s.reader.sbRem.toNat = 0 := by rw [hz]; rfl
  cases hf : streamFrom s with
  | nil => simp [terminated, hf, hasTerminator] at ht
  | cons len rest =>
    obtain ⟨h1, h2, h3⟩ := streamRead8_of_cons hs hf
    have hl : len = 0 := by
      by_contra hl
      rw [dataLeft, hf, hz', payload_zero_header hl] at h
      rw [terminated, hf, hz', hasTerminator_zero_header hl] at ht
      have : len.toNat ≠ 0 := fun e => hl (BitVec.eq_of_toNat_eq (by simpa using e))
      obtain ⟨k, hk⟩ : ∃ k, len.toNat = k + 1 := ⟨len.toNat - 1, by omega⟩
      cases rest with
      | nil => simp [hasTerminator] at ht
      | cons c rest => rw [hk, payload] at h; cases h
    subst hl
    have hload : loadByte s = .raised .endOfData (s.setPos (s.pos + 1)) := by
      rw [loadByte, openSubBlock, if_pos hz, h1, Res.done_andThen, if_pos rfl, Res.raised_andThen]
    rw [hload] at hro ⊢
    refine ⟨_, rfl, rfl, hz, ?_, hro⟩
    show (s.pos + 1).toNat = _
    rw [h2, sequenceEnd, hf, hz', discardLength_zero_terminator]

/-- A data byte is wanted and the stream is over (40_subblock_reader.md R77). -/
theorem loadByte_of_streamEnd {s : State} (hs : streamWf s.stream = true) (h : dataLeft s = [])
    (ht : terminated s = false) :
    ∃ t, loadByte s = .raised .streamEnd t ∧ t.reader.shift = s.reader.shift ∧
      t.reader.curByte = s.reader.curByte ∧ t.pos.toNat = max s.pos.toNat s.stream.length ∧
      t.reader.sbRem.toNat = blockAfter s 1 ∧ ReaderOnly s t := by
  have hro := loadByte_readerOnly s
  have hnil : ∀ u : State, streamFrom u = [] → u.stream.length ≤ u.pos.toNat := by
    intro u hu; have := congrArg List.length hu; simp [streamFrom] at this; omega
  by_cases hz : s.reader.sbRem = 0
  · have hz' : s.reader.sbRem.toNat = 0 := by rw [hz]; rfl
    cases hf : streamFrom s with
    | nil =>
      have hload : loadByte s = .raised .streamEnd s := by
        rw [loadByte, openSubBlock, if_pos hz, streamRead8_of_nil hf]; rfl
      rw [hload] at hro ⊢
      exact ⟨s, rfl, rfl, rfl, by have := hnil s hf; omega, by rw [blockAfter, hf, blockLeft_nil], hro⟩
    | cons len rest =>
      obtain ⟨h1, h2, h3⟩ := streamRead8_of_cons hs hf
      have hl : len ≠ 0 := by
        rintro rfl; rw [terminated, hf, hz', hasTerminator_zero_terminator] at ht; cases ht
      rw [dataLeft, hf, hz', payload_zero_header hl] at h
      have : len.toNat ≠ 0 := fun e => hl (BitVec.eq_of_toNat_eq (by simpa using e))
      obtain ⟨k, hk⟩ : ∃ k, len.toNat = k + 1 := ⟨len.toNat - 1, by omega⟩
      cases rest with
      | cons c rest => rw [hk, payload] at h; cases h
      | nil =>
        set u := (s.setPos (s.pos + 1)).setReader { s.reader with sbRem := len } with hu
        have hopen : openSubBlock s = .done () u := by
          rw [openSubBlock, if_pos hz, h1, Res.done_andThen, if_neg hl]; rfl
        have hload : loadByte s = .raised .streamEnd u := by
          rw [loadByte, hopen, Res.done_andThen, streamRead8_of_nil (s := u) h3]; rfl
        rw [hload] at hro ⊢
        refine ⟨u, rfl, rfl, rfl, ?_, by rw [blockAfter, hf, hz', blockLeft_header, blockLeft_nil]; rfl, hro⟩
        have e1 : s.stream.length ≤ (s.pos + 1).toNat := hnil u h3
        have e2 : s.pos.toNat < s.stream.length := by
          have := congrArg List.length hf; simp [streamFrom] at this; omega
        show (s.pos + 1).toNat = _
        omega
  · obtain ⟨k, hk⟩ : ∃ k, s.reader.sbRem.toNat = k + 1 := by
      refine ⟨s.reader.sbRem.toNat - 1, ?_⟩
      have : s.reader.sbRem.toNat ≠ 0 := fun e => hz (BitVec.eq_of_toNat_eq (by simpa using e))
      omega
    cases hf : streamFrom s with
    | cons c rest => simp [dataLeft, hf, hk, payload] at h
    | nil =>
      have hload : loadByte s = .raised .streamEnd s := by
        rw [loadByte, openSubBlock, if_neg hz, Res.done_andThen, streamRead8_of_nil hf]; rfl
      rw [hload] at hro ⊢
      exact ⟨s, rfl, rfl, rfl, by have := hnil s hf; omega, by rw [blockAfter, hf, blockLeft_nil], hro⟩

end Sys2Proof.Safety
end

