-- ==== Sys2Proof/Laws/Bits.lean ====
section
/-! SUPPORT. Codes as lists of bits, least significant first (20_memory.md R47), and what GetKey reads of them
(40_subblock_reader.md R70, R72). -/

namespace Sys2Proof.Safety

open Sys2Proof.Machine

/-! Numbers as bits. -/

theorem testBit_bitsToNat (l : List Bool) (i : Nat) : (bitsToNat l).testBit i = l.getD i false := by
  induction l generalizing i with
  | nil => simp [bitsToNat]
  | cons b rest ih =>
    cases i with
    | zero => cases b <;> simp [bitsToNat, Nat.testBit_zero]
    | succ i =>
      rw [bitsToNat, Nat.testBit_succ, List.getD_cons_succ, ← ih i]
      congr 1
      cases b <;> (simp; try omega)

theorem bitsToNat_lt (l : List Bool) : bitsToNat l < 2 ^ l.length := by
  induction l with
  | nil => simp [bitsToNat]
  | cons b rest ih =>
    rw [bitsToNat, List.length_cons, Nat.pow_succ]
    have := Bool.toNat_le b
    omega

theorem bitsToNat_append (a b : List Bool) : bitsToNat (a ++ b) = bitsToNat a + 2 ^ a.length * bitsToNat b := by
  induction a with
  | nil => simp [bitsToNat]
  | cons x a ih =>
    rw [List.cons_append, bitsToNat, bitsToNat, ih, List.length_cons, Nat.pow_succ]; ring

@[simp] theorem byteBits_length (b : Byte) : (byteBits b).length = 8 := by simp [byteBits]

/-- The bits GetKey takes from CUR_BYTE: `f` of them from offset `r` on (40_subblock_reader.md R72). -/
theorem chunk_eq (b : Byte) (r f : Nat) (h : r + f ≤ 8) :
    (b.toNat >>> r) &&& (2 ^ f - 1) = bitsToNat (((byteBits b).drop r).take f) := by
  apply Nat.eq_of_testBit_eq
  intro i
  rw [testBit_bitsToNat, Nat.testBit_and, Nat.testBit_shiftRight, Nat.testBit_two_pow_sub_one]
  simp only [List.getD_eq_getElem?_getD, List.getElem?_take, List.getElem?_drop]
  by_cases hi : i < f
  · have h8 : r + i < 8 := by omega
    simp [hi, byteBits, h8, BitVec.getLsbD]
  · simp [hi]

/-- The bits of a code made from bits are those bits. -/
theorem codeBits_ofNat (l : List Bool) (h : l.length ≤ 12) :
    codeBits l.length (BitVec.ofNat 12 (bitsToNat l)) = l := by
  apply List.ext_getElem
  · simp [codeBits]
  · intro i h1 h2
    simp only [codeBits, List.getElem_map, List.getElem_range, BitVec.getLsbD_ofNat, testBit_bitsToNat,
      List.getD_eq_getElem?_getD, List.getElem?_eq_getElem h2, Option.getD_some]
    have : i < 12 := by omega
    simp [this]

theorem ofNat_bitsToNat_toNat (l : List Bool) (h : l.length ≤ 12) :
    (BitVec.ofNat 12 (bitsToNat l)).toNat = bitsToNat l := by
  have h1 := bitsToNat_lt l
  have h2 : 2 ^ l.length ≤ 2 ^ 12 := Nat.pow_le_pow_right (by norm_num) h
  rw [BitVec.toNat_ofNat]; exact Nat.mod_eq_of_lt (by omega)

/-- Bits put above a number that lies below them. -/
theorem lor_shiftLeft {a n : Nat} (b : Nat) (h : a < 2 ^ n) : a ||| (b <<< n) = a + 2 ^ n * b := by
  rw [Nat.lor_comm, ← Nat.shiftLeft_add_eq_or_of_lt h, Nat.shiftLeft_eq]; ring

/-! The code stream during a read. -/

/-- The unread bits after `n` bits of a read have been taken, SHIFT not yet written. -/
def bitsAfter (s : State) (n : Nat) : List Bool :=
  (if bitOffset s n = 0 then [] else (byteBits s.reader.curByte).drop (bitOffset s n)) ++
    (dataLeft s).flatMap byteBits

theorem bitsAfter_zero (s : State) : bitsAfter s 0 = unreadBits s := by
  have h := s.reader.shift.isLt
  have e : bitOffset s 0 = s.reader.shift.toNat := by rw [bitOffset, Nat.add_zero]; exact Nat.mod_eq_of_lt h
  have z : (s.reader.shift.toNat = 0) ↔ s.reader.shift = 0 :=
    ⟨fun h => BitVec.eq_of_toNat_eq (by simpa using h), fun h => by rw [h]; rfl⟩
  simp only [bitsAfter, unreadBits, loadedBits, e, z, dataLeft, streamFrom]

/-- The reader after a read of `w` bits: SHIFT is written, and the unread bits are those after the read. -/
theorem unreadBits_afterKey (s : State) (w : Nat) :
    unreadBits (s.setReader { s.reader with shift := BitVec.ofNat 3 (s.reader.shift.toNat + w) }) = bitsAfter s w := by
  rw [← bitsAfter_zero]
  have e : bitOffset (s.setReader { s.reader with shift := BitVec.ofNat 3 (s.reader.shift.toNat + w) }) 0 =
      bitOffset s w := by
    simp [bitOffset]
  simp only [bitsAfter, e]
  rfl

/-- The bits still to come when a read needs a fresh byte are those of the data bytes. -/
theorem bitsAfter_fresh {s : State} {n : Nat} (h : bitOffset s n = 0) :
    bitsAfter s n = (dataLeft s).flatMap byteBits := by simp [bitsAfter, h]

/-- How many data bytes a read of `w` bits still loads when `n` of them have been taken. -/
def bytesToLoad (s : State) (w n : Nat) : Nat :=
  (w - n - (if bitOffset s n = 0 then 0 else 8 - bitOffset s n) + 7) / 8

theorem bytesToLoad_zero (s : State) (w : Nat) : bytesToLoad s w 0 = bytesNeeded w s.reader := by
  have h := s.reader.shift.isLt
  have e : bitOffset s 0 = s.reader.shift.toNat := by rw [bitOffset, Nat.add_zero]; exact Nat.mod_eq_of_lt h
  have z : (s.reader.shift.toNat = 0) ↔ s.reader.shift = 0 :=
    ⟨fun h => BitVec.eq_of_toNat_eq (by simpa using h), fun h => by rw [h]; rfl⟩
  unfold bytesToLoad bytesNeeded loadedBits
  simp only [e, z]
  split <;> simp

/-- The reader of `t` stands where the reader of `s` stands after `n` more data bytes. -/
def ReaderAfter (s t : State) (n : Nat) : Prop :=
  t.pos.toNat = posAfter s n ∧ t.reader.sbRem.toNat = blockAfter s n ∧
    t.reader.curByte = ((dataLeft s).take n).getLastD s.reader.curByte

theorem ReaderAfter.refl (s : State) : ReaderAfter s s 0 := ⟨by simp, by simp, by simp⟩

/-- A data byte loaded, and then the reader after `n` more. -/
theorem ReaderAfter.load {s t u : State} {n : Nat} (h : ReaderAfter t u n) {data : List Byte}
    (hd : dataLeft s = t.reader.curByte :: data) (ht : dataLeft t = data)
    (hn : ∀ n, posAfter s (n + 1) = posAfter t n ∧ blockAfter s (n + 1) = blockAfter t n) : ReaderAfter s u (n + 1) := by
  obtain ⟨h1, h2, h3⟩ := h
  refine ⟨by rw [h1, (hn n).1], by rw [h2, (hn n).2], ?_⟩
  rw [h3, hd, ht, List.take_succ_cons]
  cases data.take n <;> simp [List.getLastD]

/-- The loop of GetKey, when the code stream has the bits (40_subblock_reader.md R72). -/
theorem getKeyLoop_spec (w fuel n key : Nat) (s : State) (hs : streamWf s.stream = true) (hn : n ≤ w)
    (hf : w - n ≤ fuel) (hkey : key < 2 ^ n) (hlen : w - n ≤ (bitsAfter s n).length) :
    ∃ t, getKeyLoop w fuel n key s = .done (key + 2 ^ n * bitsToNat ((bitsAfter s n).take (w - n))) t ∧
      bitsAfter t w = (bitsAfter s n).drop (w - n) ∧ t.reader.shift = s.reader.shift ∧
      sequenceEnd t = sequenceEnd s ∧ terminated t = terminated s ∧ ReaderAfter s t (bytesToLoad s w n) := by
  have none_left : bytesToLoad s w w = 0 := by unfold bytesToLoad; omega
  induction fuel generalizing n key s with
  | zero =>
    have : n = w := by omega
    subst this
    rw [getKeyLoop, if_neg (by omega)]
    exact ⟨s, by simp [bitsToNat], by simp, rfl, rfl, rfl, by rw [none_left]; exact ReaderAfter.refl s⟩
  | succ fuel ih =>
    rw [getKeyLoop]
    by_cases hlt : n < w
    · rw [if_pos hlt]
      -- after the fresh byte, if one is needed, the same bits are to come and the offset is inside CUR_BYTE
      obtain ⟨u, hu, hub, hsh, hse, hte, hus, hra⟩ : ∃ u, (if bitOffset s n = 0 then loadByte s else .done () s) = .done () u ∧
          (byteBits u.reader.curByte).drop (bitOffset s n) ++ (dataLeft u).flatMap byteBits = bitsAfter s n ∧
          u.reader.shift = s.reader.shift ∧ sequenceEnd u = sequenceEnd s ∧ terminated u = terminated s ∧
          u.stream = s.stream ∧
          ∀ t j, ReaderAfter u t j → ReaderAfter s t ((if bitOffset s n = 0 then 1 else 0) + j) := by
        by_cases h0 : bitOffset s n = 0
        · rw [if_pos h0]
          rw [bitsAfter_fresh h0] at hlen
          cases hd : dataLeft s with
          | nil => rw [hd] at hlen; simp at hlen; omega
          | cons b data =>
            obtain ⟨t, h1, h2, h3, h4, h5, h6, h7, -, h8⟩ := loadByte_of_cons hs hd
            refine ⟨t, h1, ?_, h3, h5, h6, by rw [h7]; rfl, fun v j hv => ?_⟩
            swap
            · rw [if_pos h0, Nat.add_comm]
              exact hv.load (by rw [hd, h2]) h4 h8
            rw [bitsAfter_fresh h0, hd, h2, h4, h0, List.drop_zero, List.flatMap_cons]
        · rw [if_neg h0]
          exact ⟨s, rfl, by simp only [bitsAfter, h0, if_false], rfl, rfl, rfl, rfl, fun v j hv => by
            rw [if_neg h0, Nat.zero_add]; exact hv⟩
      rw [hu, Res.done_andThen]
      have hoff : bitOffset u n = bitOffset s n := by rw [bitOffset, bitOffset, hsh]
      have hr : bitOffset s n < 8 := Nat.mod_lt _ (by norm_num)
      dsimp only
      rw [hoff]
      set r := bitOffset s n with hrdef
      set f := min (w - n) (8 - r) with hfdef
      have hrf : r + f ≤ 8 := by omega
      have hf1 : 1 ≤ f := by omega
      rw [chunk_eq _ _ _ hrf, lor_shiftLeft _ hkey]
      -- the bits after the chunk
      have hafter : bitsAfter u (n + f) = (bitsAfter s n).drop f := by
        have hmod : bitOffset u (n + f) = (r + f) % 8 := by
          rw [bitOffset, hsh, hrdef, bitOffset]; omega
        rw [← hub, List.drop_append, List.length_drop, byteBits_length, List.drop_drop]
        have hz : f - (8 - r) = 0 := by omega
        rw [hz, List.drop_zero, bitsAfter, hmod]
        congr 1
        by_cases h8 : r + f = 8
        · rw [h8]
          simp [byteBits]
        · rw [Nat.mod_eq_of_lt (by omega), if_neg (by omega)]
      have hchunk : ((byteBits u.reader.curByte).drop r).take f = (bitsAfter s n).take f := by
        rw [← hub, List.take_append, List.length_drop, byteBits_length]
        have : f - (8 - r) = 0 := by omega
        rw [this, List.take_zero, List.append_nil]
      rw [hchunk]
      have hlen2 : f ≤ (bitsAfter s n).length := by omega
      have hkey2 : key + 2 ^ n * bitsToNat ((bitsAfter s n).take f) < 2 ^ (n + f) := by
        have h1 := bitsToNat_lt ((bitsAfter s n).take f)
        rw [List.length_take, Nat.min_eq_left hlen2] at h1
        rw [Nat.pow_add]
        calc key + 2 ^ n * bitsToNat ((bitsAfter s n).take f)
            < 2 ^ n + 2 ^ n * bitsToNat ((bitsAfter s n).take f) := by omega
          _ = 2 ^ n * (bitsToNat ((bitsAfter s n).take f) + 1) := by ring
          _ ≤ 2 ^ n * 2 ^ f := Nat.mul_le_mul_left _ h1
      obtain ⟨t, h1, h2, h3, h4, h5, h6⟩ := ih (n + f) _ u (by rw [hus]; exact hs) (by omega) (by omega) hkey2
        (by rw [hafter, List.length_drop]; omega) (by unfold bytesToLoad; omega)
      have hbytes : bytesToLoad s w n = (if bitOffset s n = 0 then 1 else 0) + bytesToLoad u w (n + f) := by
        have hmod : bitOffset u (n + f) = (r + f) % 8 := by
          rw [bitOffset, hsh, hrdef, bitOffset]; omega
        unfold bytesToLoad
        rw [hmod, ← hrdef]
        split <;> split <;> omega
      refine ⟨t, ?_, ?_, by rw [h3, hsh], by rw [h4, hse], by rw [h5, hte], by rw [hbytes]; exact hra t _ h6⟩
      · rw [h1, hafter]
        congr 1
        have e : (bitsAfter s n).take (w - n) =
            (bitsAfter s n).take f ++ ((bitsAfter s n).drop f).take (w - (n + f)) := by
          have : w - n = f + (w - (n + f)) := by omega
          rw [this, List.take_add]
        rw [e, bitsToNat_append, List.length_take, Nat.min_eq_left hlen2, Nat.pow_add]; ring
      · rw [h2, hafter, List.drop_drop]; congr 1; omega
    · have : n = w := by omega
      subst this
      rw [if_neg hlt]
      exact ⟨s, by simp [bitsToNat], by simp, rfl, rfl, rfl, by rw [none_left]; exact ReaderAfter.refl s⟩

/-- GetKey, when the code stream has the bits: the code they make, and the stream after them
(40_subblock_reader.md R70, R72). -/
theorem getKey_spec (w : Nat) (s : State) (hs : streamWf s.stream = true) (hw : w ≤ 12)
    (hlen : w ≤ (unreadBits s).length) :
    ∃ t, getKey w s = .done (BitVec.ofNat 12 (bitsToNat ((unreadBits s).take w))) t ∧
      unreadBits t = (unreadBits s).drop w ∧ t.reader.shift.toNat = (s.reader.shift.toNat + w) % 8 ∧
      sequenceEnd t = sequenceEnd s ∧ terminated t = terminated s ∧ ReaderOnly s t ∧
      ReaderAfter s t (bytesNeeded w s.reader) := by
  have hro := getKey_readerOnly w s
  obtain ⟨u, h1, h2, h3, h4, h5, h6⟩ := getKeyLoop_spec w w 0 0 s hs (by omega) (by omega) (by norm_num)
    (by rw [bitsAfter_zero]; omega)
  rw [bitsAfter_zero] at h1 h2
  simp only [Nat.sub_zero, Nat.pow_zero, Nat.one_mul, Nat.zero_add] at h1 h2
  have hk : getKey w s = .done (BitVec.ofNat 12 (bitsToNat ((unreadBits s).take w)))
      (u.setReader { u.reader with shift := BitVec.ofNat 3 (u.reader.shift.toNat + w) }) := by
    rw [getKey, h1]; rfl
  rw [hk] at hro
  rw [bytesToLoad_zero] at h6
  refine ⟨_, hk, ?_, ?_, h4, h5, hro, h6⟩
  · rw [unreadBits_afterKey, h2]
  · simp [h3]

/-- GetKey, when the code stream is too short: EndOfData at the terminator, StreamEnd without one; SHIFT is not written
(40_subblock_reader.md R73, R77). -/
theorem getKeyLoop_short (w fuel n key : Nat) (s : State) (hs : streamWf s.stream = true) (hn : n ≤ w)
    (hf : w - n ≤ fuel) (hlen : (bitsAfter s n).length < w - n) :
    ∃ t, t.reader.shift = s.reader.shift ∧
      (terminated s = true → getKeyLoop w fuel n key s = .raised .endOfData t ∧ t.reader.sbRem = 0 ∧
        t.pos.toNat = sequenceEnd s ∧ t.reader.curByte = (dataLeft s).getLastD s.reader.curByte) ∧
      (terminated s = false → getKeyLoop w fuel n key s = .raised .streamEnd t ∧
        t.pos.toNat = max s.pos.toNat s.stream.length ∧
        t.reader.curByte = (dataLeft s).getLastD s.reader.curByte ∧
        t.reader.sbRem.toNat = blockAfter s ((dataLeft s).length + 1)) := by
  induction fuel generalizing n key s with
  | zero => omega
  | succ fuel ih =>
    rw [getKeyLoop, if_pos (by omega : n < w)]
    by_cases h0 : bitOffset s n = 0
    · rw [if_pos h0]
      cases hd : dataLeft s with
      | nil =>
        cases ht : terminated s with
        | true =>
          obtain ⟨t, h1, h2, h3, h4, -⟩ := loadByte_of_terminator hs hd ht
          refine ⟨t, by rw [h2], fun _ => ⟨by rw [h1]; rfl, by rw [h2, h3], h4, by rw [h2]; rfl⟩, (fun h => nomatch h)⟩
        | false =>
          obtain ⟨t, h1, h2, h3, h4, h5, -⟩ := loadByte_of_streamEnd hs hd ht
          exact ⟨t, h2, (fun h => nomatch h), fun _ => ⟨by rw [h1]; rfl, h4, h3, h5⟩⟩
      | cons b data =>
        obtain ⟨u, h1, h2, h3, h4, h5, h6, h7, ⟨hge, hle⟩, h8⟩ := loadByte_of_cons hs hd
        have hus : u.stream = s.stream := by rw [h7]; rfl
        rw [h1, Res.done_andThen]
        have hoff : bitOffset u n = 0 := by rw [bitOffset, h3]; exact h0
        dsimp only
        rw [hoff]
        have hcount : (bitsAfter s n).length = 8 + ((dataLeft u).flatMap byteBits).length := by
          rw [bitsAfter_fresh h0, hd, List.flatMap_cons, List.length_append, byteBits_length, h4]
        have hf8 : min (w - n) (8 - 0) = 8 := by omega
        rw [hf8]
        have hoff8 : bitOffset u (n + 8) = 0 := by rw [bitOffset] at hoff ⊢; omega
        obtain ⟨t, g1, g2, g3⟩ := ih (n + 8) (key ||| (((u.reader.curByte.toNat >>> 0) &&& (2 ^ 8 - 1)) <<< n)) u
          (by rw [hus]; exact hs) (by omega) (by omega) (by rw [bitsAfter_fresh hoff8]; omega)
        refine ⟨t, by rw [g1, h3], fun ht => ?_, fun ht => ?_⟩
        · obtain ⟨k1, k2, k3, k4⟩ := g2 (by rw [h6]; exact ht)
          refine ⟨k1, k2, by rw [k3, h5], ?_⟩
          rw [k4, h4, h2]
          cases data <;> simp [List.getLastD]
        · obtain ⟨k1, k2, k3, k4⟩ := g3 (by rw [h6]; exact ht)
          refine ⟨k1, ?_, ?_, ?_⟩
          · rw [k2, hus]
            omega
          · rw [k3, h4, h2]
            cases data <;> simp [List.getLastD]
          · rw [k4, h4, List.length_cons, (h8 _).2]
    · rw [if_neg h0, Res.done_andThen]
      dsimp only
      have hr : bitOffset s n < 8 := Nat.mod_lt _ (by norm_num)
      set r := bitOffset s n with hrdef
      have hcount : (bitsAfter s n).length = (8 - r) + ((dataLeft s).flatMap byteBits).length := by
        simp only [bitsAfter, ← hrdef, h0, if_false, List.length_append, List.length_drop, byteBits_length]
      have hfr : min (w - n) (8 - r) = 8 - r := by omega
      rw [hfr]
      have hoff8 : bitOffset s (n + (8 - r)) = 0 := by rw [bitOffset] at hrdef ⊢; omega
      exact ih (n + (8 - r)) _ s hs (by omega) (by omega) (by rw [bitsAfter_fresh hoff8]; omega)

/-- GetKey, when the code stream is too short, raised at the terminator or at the end of the stream
(40_subblock_reader.md R73, R77). -/
theorem getKey_short (w : Nat) (s : State) (hs : streamWf s.stream = true) (hlen : (unreadBits s).length < w) :
    ∃ t, t.reader.shift = s.reader.shift ∧ ReaderOnly s t ∧
      (terminated s = true → getKey w s = .raised .endOfData t ∧ t.reader.sbRem = 0 ∧
        t.pos.toNat = sequenceEnd s ∧ t.reader.curByte = (dataLeft s).getLastD s.reader.curByte) ∧
      (terminated s = false → getKey w s = .raised .streamEnd t ∧
        t.pos.toNat = max s.pos.toNat s.stream.length ∧
        t.reader.curByte = (dataLeft s).getLastD s.reader.curByte ∧
        t.reader.sbRem.toNat = blockAfter s ((dataLeft s).length + 1)) := by
  have hro := getKey_readerOnly w s
  obtain ⟨t, h1, h2, h3⟩ := getKeyLoop_short w w 0 0 s hs (by omega) (by omega) (by rw [bitsAfter_zero]; omega)
  cases ht : terminated s with
  | true =>
    obtain ⟨k1, k2, k3, k4⟩ := h2 ht
    have hk : getKey w s = .raised .endOfData t := by rw [getKey, k1]; rfl
    rw [hk] at hro
    exact ⟨t, h1, hro, fun _ => ⟨hk, k2, k3, k4⟩, (fun h => nomatch h)⟩
  | false =>
    obtain ⟨k1, k2⟩ := h3 ht
    have hk : getKey w s = .raised .streamEnd t := by rw [getKey, k1]; rfl
    rw [hk] at hro
    exact ⟨t, h1, hro, (fun h => nomatch h), fun _ => ⟨hk, k2⟩⟩

end Sys2Proof.Safety
end

