-- ==== Sys2Proof/Laws/Memory.lean ====
section
/-! SUPPORT. The laws of a memory: a read after a write gives what was written, a write leaves every other index alone,
and every operation keeps the canonical form. -/

namespace Sys2Proof.Machine

section
variable {α : Type} (d : Option α)

@[simp] theorem Memory.read_nil (a : Nat) : Memory.read d [] a = d := rfl

theorem Memory.read_insert_same (m : Memory α) (a : Nat) (v : α) : Memory.read d (Memory.insert m a v) a = some v := by
  induction m with
  | nil => simp [Memory.insert, Memory.read]
  | cons c m ih =>
    obtain ⟨b, w⟩ := c
    simp only [Memory.insert]
    split
    · simp [Memory.read]
    · split
      · simp [Memory.read]
      · rename_i h; simp [Memory.read, h, ih]

theorem Memory.read_insert_other (m : Memory α) {a b : Nat} (v : α) (h : b ≠ a) :
    Memory.read d (Memory.insert m a v) b = Memory.read d m b := by
  induction m with
  | nil => simp [Memory.insert, Memory.read, h]
  | cons c m ih =>
    obtain ⟨x, w⟩ := c
    simp only [Memory.insert]
    split
    · simp [Memory.read, h]
    · split
      · rename_i e; subst e; simp [Memory.read, h]
      · simp [Memory.read, ih]

theorem Memory.read_erase_same (m : Memory α) (a : Nat) : Memory.read d (Memory.erase m a) a = d := by
  induction m with
  | nil => rfl
  | cons c m ih =>
    obtain ⟨b, w⟩ := c
    simp only [Memory.erase]
    split
    · exact ih
    · rename_i h; simp [Memory.read, h, ih]

theorem Memory.read_erase_other (m : Memory α) {a b : Nat} (h : b ≠ a) :
    Memory.read d (Memory.erase m a) b = Memory.read d m b := by
  induction m with
  | nil => rfl
  | cons c m ih =>
    obtain ⟨x, w⟩ := c
    simp only [Memory.erase]
    split
    · rename_i e; subst e; simp [Memory.read, h, ih]
    · simp [Memory.read, ih]

variable [DecidableEq α]

@[simp] theorem Memory.read_write_same (m : Memory α) (a : Nat) (v : α) :
    Memory.read d (Memory.write d m a v) a = some v := by
  unfold Memory.write
  split
  · rename_i h; rw [Memory.read_erase_same, h]
  · exact Memory.read_insert_same d m a v

theorem Memory.read_write_other (m : Memory α) {a b : Nat} (v : α) (h : b ≠ a) :
    Memory.read d (Memory.write d m a v) b = Memory.read d m b := by
  unfold Memory.write
  split
  · exact Memory.read_erase_other d m h
  · exact Memory.read_insert_other d m v h

/-- A read after a write, at any index. -/
theorem Memory.read_write (m : Memory α) (a b : Nat) (v : α) :
    Memory.read d (Memory.write d m a v) b = if b = a then some v else Memory.read d m b := by
  split
  · rename_i h; subst h; exact Memory.read_write_same d m b v
  · rename_i h; exact Memory.read_write_other d m v h

/-- A read after a fill. -/
theorem Memory.read_fillAt (v : α) (l : List Nat) (m : Memory α) (b : Nat) :
    Memory.read d (Memory.fillAt d v l m) b = if b ∈ l then some v else Memory.read d m b := by
  induction l generalizing m with
  | nil => simp [Memory.fillAt]
  | cons a rest ih =>
    rw [Memory.fillAt, ih, Memory.read_write]
    by_cases h : b ∈ rest
    · simp [h]
    · by_cases e : b = a <;> simp [h, e]

omit [DecidableEq α] in
/-- A read of a filled memory. -/
theorem Memory.read_filled (n : Nat) (v : α) (b : Nat) :
    Memory.read d (Memory.filled n v) b = if b < n then some v else d := by
  have key : ∀ l : List Nat, Memory.read d (l.map fun i => (i, v)) b = if b ∈ l then some v else d := by
    intro l
    induction l with
    | nil => simp
    | cons a rest ih => by_cases e : b = a <;> simp [Memory.read, ih, e]
  simpa [Memory.filled] using key (List.range n)

/-! The canonical form. -/

omit [DecidableEq α] in
theorem Memory.mem_insert {m : Memory α} {a : Nat} {v : α} {c : Nat × α} (h : c ∈ Memory.insert m a v) :
    c = (a, v) ∨ c ∈ m := by
  induction m with
  | nil => simpa [Memory.insert] using h
  | cons x m ih =>
    obtain ⟨b, w⟩ := x
    simp only [Memory.insert] at h
    split at h
    · simpa using h
    · split at h
      · simp only [List.mem_cons] at h ⊢; tauto
      · simp only [List.mem_cons] at h ⊢
        rcases h with h | h
        · tauto
        · rcases ih h with h | h <;> tauto

omit [DecidableEq α] in
theorem Memory.mem_erase {m : Memory α} {a : Nat} {c : Nat × α} (h : c ∈ Memory.erase m a) : c ∈ m := by
  induction m with
  | nil => simp [Memory.erase] at h
  | cons x m ih =>
    obtain ⟨b, w⟩ := x
    simp only [Memory.erase] at h
    split at h
    · exact List.mem_cons_of_mem _ (ih h)
    · simp only [List.mem_cons] at h ⊢
      rcases h with h | h
      · exact .inl h
      · exact .inr (ih h)

omit [DecidableEq α] in
theorem Memory.rising_insert {m : Memory α} (h : m.Pairwise fun x y => x.1 < y.1) (a : Nat) (v : α) :
    (Memory.insert m a v).Pairwise fun x y => x.1 < y.1 := by
  induction m with
  | nil => simp [Memory.insert]
  | cons x m ih =>
    obtain ⟨b, w⟩ := x
    rw [List.pairwise_cons] at h
    simp only [Memory.insert]
    split
    · rename_i hab
      refine List.pairwise_cons.mpr ⟨?_, List.pairwise_cons.mpr h⟩
      intro c hc
      rcases List.mem_cons.mp hc with rfl | hc
      · exact hab
      · exact Nat.lt_trans hab (h.1 c hc)
    · split
      · rename_i e; subst e; exact List.pairwise_cons.mpr h
      · refine List.pairwise_cons.mpr ⟨?_, ih h.2⟩
        intro c hc
        rcases Memory.mem_insert hc with rfl | hc
        · show b < a; omega
        · exact h.1 c hc

omit [DecidableEq α] in
theorem Memory.rising_erase {m : Memory α} (h : m.Pairwise fun x y => x.1 < y.1) (a : Nat) :
    (Memory.erase m a).Pairwise fun x y => x.1 < y.1 := by
  induction m with
  | nil => simp [Memory.erase]
  | cons x m ih =>
    obtain ⟨b, w⟩ := x
    rw [List.pairwise_cons] at h
    simp only [Memory.erase]
    split
    · exact ih h.2
    · exact List.pairwise_cons.mpr ⟨fun c hc => h.1 c (Memory.mem_erase hc), ih h.2⟩

/-- A write below `n` keeps the canonical form. -/
theorem Memory.wf_write {n : Nat} {m : Memory α} (h : Memory.wf d n m) {a : Nat} (ha : a < n) (v : α) :
    Memory.wf d n (Memory.write d m a v) := by
  unfold Memory.write
  split
  · exact ⟨Memory.rising_erase h.1 a, fun c hc => h.2 c (Memory.mem_erase hc)⟩
  · rename_i hd
    refine ⟨Memory.rising_insert h.1 a v, fun c hc => ?_⟩
    rcases Memory.mem_insert hc with rfl | hc
    · exact ⟨ha, hd⟩
    · exact h.2 c hc

/-- A fill at indices below `n` keeps the canonical form. -/
theorem Memory.wf_fillAt {n : Nat} (v : α) (l : List Nat) (hl : ∀ a ∈ l, a < n) {m : Memory α}
    (h : Memory.wf d n m) : Memory.wf d n (Memory.fillAt d v l m) := by
  induction l generalizing m with
  | nil => exact h
  | cons a rest ih =>
    exact ih (fun b hb => hl b (List.mem_cons_of_mem _ hb)) (Memory.wf_write d h (hl a (List.mem_cons_self ..)) v)

/-- A filled memory is in canonical form where an unlisted index has no value. -/
theorem Memory.wf_filled (n : Nat) (v : α) : Memory.wf (none : Option α) n (Memory.filled n v) := by
  refine ⟨?_, fun c hc => ?_⟩
  · rw [Memory.filled, List.pairwise_map]
    exact List.pairwise_lt_range
  · simp only [Memory.filled, List.mem_map, List.mem_range] at hc
    obtain ⟨i, hi, rfl⟩ := hc
    exact ⟨hi, by simp⟩

theorem Memory.wf_nil (n : Nat) : Memory.wf d n [] := ⟨List.Pairwise.nil, by simp⟩

end

end Sys2Proof.Machine
end

