-- ==== Sys2Proof/Laws/Cells.lean ====
section
/-! SUPPORT. Reads of one cell of T, the palettes, FRAME and CANVAS after a write of one cell (10_state.md R32 to R34). -/

namespace Sys2Proof.Machine

theorem State.entryAt_writeEntry (s : State) (i : Nat) (e : Entry) (j : Nat) :
    (s.writeEntry i e).entryAt j = if j = i then e else s.entryAt j := by
  unfold State.entryAt State.writeEntry
  rw [State.setTable_table, Memory.read_write]
  split <;> rfl

theorem State.frameAt_writeFrame (s : State) (i : Nat) (v : Byte) (j : Nat) :
    (s.writeFrame i v).frameAt j = if j = i then some v else s.frameAt j := by
  unfold State.frameAt State.writeFrame
  rw [State.setFrame_frame, Memory.read_write]

theorem byte_toNat_eq_iff (i j : Byte) : j.toNat = i.toNat ↔ j = i := ⟨BitVec.eq_of_toNat_eq, fun h => by rw [h]⟩

theorem State.gpalAt_writeGpal (s : State) (i : Byte) (c : Color) (j : Byte) :
    (s.writeGpal i c).gpalAt j = if j = i then c else s.gpalAt j := by
  unfold State.gpalAt State.writeGpal
  rw [State.setGpal_gpal, Memory.read_write]
  simp only [byte_toNat_eq_iff]
  split <;> rfl

theorem State.lpalAt_writeLpal (s : State) (i : Byte) (c : Color) (j : Byte) :
    (s.writeLpal i c).lpalAt j = if j = i then c else s.lpalAt j := by
  unfold State.lpalAt State.writeLpal
  rw [State.setLpal_lpal, Memory.read_write]
  simp only [byte_toNat_eq_iff]
  split <;> rfl

/-- `is_pow2` says that the number is a power of two (00_scope.md R10). -/
theorem isPow2_iff (n : Nat) : isPow2 n = true ↔ ∃ k, n = 2 ^ k := by
  simp only [isPow2, Bool.and_eq_true, decide_eq_true_eq]
  constructor
  · rintro ⟨h0, h⟩
    exact (Nat.and_sub_one_eq_zero_iff_isPowerOfTwo (by omega)).mp h
  · rintro ⟨k, rfl⟩
    exact ⟨Nat.two_pow_pos k, (Nat.and_sub_one_eq_zero_iff_isPowerOfTwo (Nat.two_pow_pos k).ne').mpr ⟨k, rfl⟩⟩

end Sys2Proof.Machine
end

