-- ==== Sys2Proof/Laws/Decompressor.lean ====
section
/-! SUPPORT. What DECODE's parts can do to a state: they change the LZW registers, the reader, T, FRAME and POS, and
nothing else (41_lzw.md R78). -/

namespace Sys2Proof.Machine

/-- `t` is `s` but for the LZW registers, the bit reader, T, FRAME and POS. -/
def DecodeOnly (s t : State) : Prop :=
  t = { s with lzw := t.lzw, reader := t.reader, table := t.table, frame := t.frame, pos := t.pos }

theorem DecodeOnly.refl (s : State) : DecodeOnly s s := rfl

theorem DecodeOnly.trans {s t u : State} (h : DecodeOnly s t) (k : DecodeOnly t u) : DecodeOnly s u := by
  unfold DecodeOnly at *; rw [k, h]

theorem ReaderOnly.decodeOnly {s t : State} (h : ReaderOnly s t) : DecodeOnly s t := by
  unfold ReaderOnly DecodeOnly at *; rw [h]; rfl

theorem PosOnly.decodeOnly {s t : State} (h : PosOnly s t) : DecodeOnly s t := h.readerOnly.decodeOnly

theorem DecodeOnly.setLzw {s t : State} (h : DecodeOnly s t) (l : Lzw) : DecodeOnly s (t.setLzw l) := by
  unfold DecodeOnly at *; rw [h]; rfl

theorem DecodeOnly.setReader {s t : State} (h : DecodeOnly s t) (r : BitReader) : DecodeOnly s (t.setReader r) := by
  unfold DecodeOnly at *; rw [h]; rfl

theorem DecodeOnly.setPos {s t : State} (h : DecodeOnly s t) (p : BitVec 32) : DecodeOnly s (t.setPos p) := by
  unfold DecodeOnly at *; rw [h]; rfl

theorem DecodeOnly.writeEntry {s t : State} (h : DecodeOnly s t) (i : Nat) (e : Entry) :
    DecodeOnly s (t.writeEntry i e) := by
  unfold DecodeOnly State.writeEntry at *; rw [h]; rfl

theorem DecodeOnly.writeFrame {s t : State} (h : DecodeOnly s t) (i : Nat) (v : Byte) :
    DecodeOnly s (t.writeFrame i v) := by
  unfold DecodeOnly State.writeFrame at *; rw [h]; rfl

theorem DecodeOnly.putPixel {s t : State} (h : DecodeOnly s t) (p : Nat) (v : Byte) :
    DecodeOnly s (putPixel p v t) := by
  unfold Machine.putPixel
  split
  · exact h
  · exact h.writeFrame _ _

theorem DecodeOnly.fixUp {s t : State} (h : DecodeOnly s t) : DecodeOnly s (fixUp t) := by
  unfold Machine.fixUp
  split
  · exact h.writeEntry _ _
  · exact h

/-- What the state keeps, field by field. -/
theorem DecodeOnly.fields {s t : State} (h : DecodeOnly s t) :
    t.canvasW = s.canvasW ∧ t.canvasH = s.canvasH ∧ t.status = s.status ∧ t.bg = s.bg ∧ t.rect = s.rect ∧
      t.ctrl = s.ctrl ∧ t.gce = s.gce ∧ t.keyOut = s.keyOut ∧ t.gpal = s.gpal ∧ t.lpal = s.lpal ∧
      t.canvas = s.canvas ∧ t.stream = s.stream ∧ t.pending = s.pending ∧ t.replies = s.replies ∧
      t.statuses = s.statuses := by
  unfold DecodeOnly at h
  rw [h]
  exact ⟨rfl, rfl, rfl, rfl, rfl, rfl, rfl, rfl, rfl, rfl, rfl, rfl, rfl, rfl, rfl⟩

theorem writeLiterals_decodeOnly (n : Nat) (s : State) : DecodeOnly s (writeLiterals n s) := by
  induction n with
  | zero => exact DecodeOnly.refl s
  | succ n ih => exact ih.writeEntry _ _

theorem startDecode_decodeOnly (m : Nat) (s : State) : DecodeOnly s (startDecode m s) :=
  ((writeLiterals_decodeOnly _ s).setLzw _).setReader _

theorem tableStep_decodeOnly (m : Nat) (s : State) : (tableStep m s).Leaves (DecodeOnly s) := by
  unfold tableStep
  split
  · exact (DecodeOnly.refl s).setLzw _
  · split
    · exact (DecodeOnly.refl s).setLzw _
    · split
      · exact DecodeOnly.refl s
      · exact ((DecodeOnly.refl s).writeEntry _ _).setLzw _

theorem nextCode_decodeOnly (s : State) : (nextCode s).Leaves (DecodeOnly s) :=
  (getKey_readerOnly _ s).andThen (fun _ _ _ h => h.decodeOnly) fun _ _ _ h => h.decodeOnly.setLzw _

theorem walkChain_decodeOnly (fuel e : Nat) (s : State) : (walkChain fuel e s).Leaves (DecodeOnly s) := by
  induction fuel generalizing e s with
  | zero => trivial
  | succ fuel ih =>
    unfold walkChain
    dsimp only
    split
    · exact (DecodeOnly.refl s).putPixel _ _
    · exact (ih _ _).mono fun _ k => ((DecodeOnly.refl s).putPixel _ _).trans k

theorem resolveCode_decodeOnly (s : State) : (resolveCode s).Leaves (DecodeOnly s) :=
  (walkChain_decodeOnly _ _ s).andThen (fun _ _ _ h => h) fun _ _ _ h => h.setLzw _

theorem dataCode_decodeOnly (s : State) : (dataCode s).Leaves (DecodeOnly s) := by
  unfold dataCode
  split
  · exact DecodeOnly.refl s
  · exact (resolveCode_decodeOnly _).andThen (fun _ _ _ h => ((DecodeOnly.refl s).setLzw _).trans h)
      fun _ _ _ h => (((DecodeOnly.refl s).setLzw _).trans h).fixUp

theorem decodeRound_decodeOnly (m : Nat) (s : State) : (decodeRound m s).Leaves (DecodeOnly s) :=
  (tableStep_decodeOnly m s).andThen (fun _ _ _ h => h) fun _ t _ h =>
    (nextCode_decodeOnly t).andThen (fun _ _ _ k => h.trans k) fun _ u _ k => by
      split
      · exact h.trans k
      · split
        · exact h.trans k
        · exact (dataCode_decodeOnly u).andThen (fun _ _ _ j => (h.trans k).trans j)
            fun _ _ _ j => (h.trans k).trans j

theorem decodeLoop_decodeOnly (m fuel : Nat) (s : State) : (decodeLoop m fuel s).Leaves (DecodeOnly s) := by
  induction fuel generalizing s with
  | zero => trivial
  | succ fuel ih =>
    exact (decodeRound_decodeOnly m s).andThen (fun _ _ _ h => h) fun goOn t _ h => by
      cases goOn
      · exact h
      · exact (ih t).mono fun _ k => h.trans k

theorem decodeCodes_decodeOnly (m : Nat) (s : State) : (decodeCodes m s).Leaves (DecodeOnly s) :=
  (nextCode_decodeOnly s).andThen (fun _ _ _ h => h) fun _ t _ h => by
    split
    · exact (decodeLoop_decodeOnly m _ t).mono fun _ k => h.trans k
    · exact h

theorem decodeImage_decodeOnly (m : Nat) (s : State) : (decodeImage m s).Leaves (DecodeOnly s) :=
  (decodeCodes_decodeOnly m _).andThen (fun _ _ _ h => (startDecode_decodeOnly m s).trans h) fun _ t _ h =>
    (streamRead8_posOnly t).andThen (fun _ _ _ k => ((startDecode_decodeOnly m s).trans h).trans k.decodeOnly)
      fun _ _ _ k => ((startDecode_decodeOnly m s).trans h).trans k.decodeOnly

theorem seekAtEnd_leaves {P Q : State → Prop} {p : BitVec 32} {r : Res Unit} (h : r.Leaves P)
    (hq : ∀ s, P s → Q (streamSeek p s)) : (seekAtEnd p r).Leaves Q := by
  cases r with
  | done a s => exact hq s h
  | raised st s => exact hq s h
  | faulted f => trivial

theorem readCodeSize_posOnly (s : State) : (readCodeSize s).Leaves (PosOnly s) :=
  (streamRead8_posOnly s).andThen (fun _ _ _ h => h) fun _ _ _ h => by
    split <;> exact h

/-- DECODE changes the LZW registers, the bit reader, T, FRAME and POS only (41_lzw.md R78). -/
theorem decodeCommand_decodeOnly (s : State) : (decodeCommand s).Leaves (DecodeOnly s) := by
  unfold decodeCommand
  split
  · refine (readCodeSize_posOnly s).andThen (fun _ _ _ h => h.decodeOnly) fun m t _ h => ?_
    refine (skipSubBlocks_posOnly t).andThen (fun _ _ _ k => (h.trans k).decodeOnly) fun _ u _ k => ?_
    exact seekAtEnd_leaves (decodeImage_decodeOnly m _) fun v j =>
      (((h.trans k).decodeOnly.setPos _).trans j).setPos _
  · exact DecodeOnly.refl s

end Sys2Proof.Machine
end

