-- ==== Sys2Proof/Laws/Codes.lean ====
section
/-! SUPPORT. What one code read and one walk down a prefix chain come to (40_subblock_reader.md R72, 41_lzw.md R88, R91). -/

namespace Sys2Proof.Safety

open Sys2Proof.Machine

/-! The numbers of one image. -/

/-- The clear code of a code size DECODE accepts, and room for the literals and the two special codes in m + 1 bits
(41_lzw.md R78, R80). -/
theorem clearCode_bounds {m : Nat} (h1 : 2 ≤ m) (h2 : m ≤ 8) :
    4 ≤ clearCode m ∧ clearCode m ≤ 256 ∧ clearCode m + 2 < 2 ^ (m + 1) := by
  interval_cases m <;> decide

theorem firstFree_toNat {m : Nat} (h1 : 2 ≤ m) (h2 : m ≤ 8) : (firstFree m).toNat = clearCode m + 2 := by
  interval_cases m <;> decide

/-- The literal alphabet stands in T below `n`, and the rest of T is as before (41_lzw.md R82). -/
theorem entryAt_writeLiterals (n : Nat) (s : State) (i : Nat) :
    (writeLiterals n s).entryAt i =
      if i < n then { len := 1, parent := Config.sentinel, suffix := BitVec.ofNat 8 i } else s.entryAt i := by
  induction n with
  | zero => simp [writeLiterals]
  | succ n ih =>
    rw [writeLiterals, State.entryAt_writeEntry, ih]
    by_cases h : i = n
    · subst h; rw [if_pos rfl, if_pos (by omega)]
    · by_cases hn : i < n
      · rw [if_neg h, if_pos hn, if_pos (by omega)]
      · rw [if_neg h, if_neg hn, if_neg (by omega)]

/-- The fix-up writes T only (41_lzw.md R92). -/
theorem fixUp_tableOnly (s : State) : fixUp s = s.setTable (fixUp s).table := by
  unfold fixUp
  split <;> rfl

/-- GET_KEY changes KEY_OUT, the reader and POS only (40_subblock_reader.md R77). -/
theorem getKeyCommand_frame (w : BitVec 4) (s : State) :
    (getKeyCommand w s).Leaves fun t => t = ((s.setReader t.reader).setPos t.pos).setKeyOut t.keyOut := by
  unfold getKeyCommand
  split
  · refine (getKey_readerOnly _ s).andThen (fun _ t _ h => ?_) fun _ t _ h => ?_
    · unfold ReaderOnly at h; rw [h]; rfl
    · unfold ReaderOnly at h; show _ = _; rw [h]; rfl
  · exact rfl

/-! One code. -/

/-- A data byte is loaded, or EndOfData or StreamEnd is raised. -/
theorem loadByte_cases (s : State) :
    (∃ t, loadByte s = .done () t) ∨
      ∃ st t, loadByte s = .raised st t ∧ (st = .endOfData ∨ st = .streamEnd) := by
  have step : ∀ u : State, (∃ b t, streamRead8 u = .done b t) ∨ streamRead8 u = .raised .streamEnd u := fun u => by
    rcases streamRead8_cases u with ⟨b, -, h⟩ | ⟨-, h⟩
    · exact .inl ⟨b, _, h⟩
    · exact .inr h
  unfold loadByte openSubBlock
  split
  · rcases step s with ⟨b, t, h⟩ | h
    · rw [h, Res.done_andThen]
      split
      · exact .inr ⟨_, _, rfl, .inl rfl⟩
      · rw [Res.done_andThen]
        rcases step (t.setReader { t.reader with sbRem := b }) with ⟨c, u, k⟩ | k <;> rw [k]
        · exact .inl ⟨_, rfl⟩
        · exact .inr ⟨_, _, rfl, .inr rfl⟩
    · rw [h]; exact .inr ⟨_, _, rfl, .inr rfl⟩
  · rw [Res.done_andThen]
    rcases step s with ⟨c, u, k⟩ | k <;> rw [k]
    · exact .inl ⟨_, rfl⟩
    · exact .inr ⟨_, _, rfl, .inr rfl⟩

/-- GetKey's loop with a round for each missing bit ends: with a number of `w` bits, with EndOfData or with StreamEnd. -/
theorem getKeyLoop_cases (w fuel n key : Nat) (s : State) (hn : n ≤ w) (hf : w ≤ fuel + n) (hk : key < 2 ^ n) :
    (∃ k t, getKeyLoop w fuel n key s = .done k t ∧ k < 2 ^ w) ∨
      ∃ st t, getKeyLoop w fuel n key s = .raised st t ∧ (st = .endOfData ∨ st = .streamEnd) := by
  induction fuel generalizing n key s with
  | zero =>
    have e : n = w := by omega
    subst e
    unfold getKeyLoop
    rw [if_neg (Nat.lt_irrefl _)]
    exact .inl ⟨key, s, rfl, hk⟩
  | succ fuel ih =>
    unfold getKeyLoop
    by_cases h : n < w
    · rw [if_pos h]
      have load : (∃ t, (if bitOffset s n = 0 then loadByte s else .done () s) = .done () t) ∨
          ∃ st t, (if bitOffset s n = 0 then loadByte s else .done () s) = .raised st t ∧
            (st = .endOfData ∨ st = .streamEnd) := by
        split
        · exact loadByte_cases s
        · exact .inl ⟨s, rfl⟩
      rcases load with ⟨t, e⟩ | ⟨st, t, e, hst⟩ <;> rw [e]
      · rw [Res.done_andThen]
        have hr : bitOffset t n < 8 := Nat.mod_lt _ (by decide)
        have hc := chunk_eq t.reader.curByte (bitOffset t n) (min (w - n) (8 - bitOffset t n)) (by omega)
        have hb := bitsToNat_lt
          (((byteBits t.reader.curByte).drop (bitOffset t n)).take (min (w - n) (8 - bitOffset t n)))
        rw [← hc] at hb
        have hl : (((byteBits t.reader.curByte).drop (bitOffset t n)).take
            (min (w - n) (8 - bitOffset t n))).length ≤ min (w - n) (8 - bitOffset t n) := List.length_take_le _ _
        have hb' := Nat.lt_of_lt_of_le hb (Nat.pow_le_pow_right (by decide) hl)
        refine ih _ _ t (by omega) (by omega) ?_
        rw [lor_shiftLeft _ hk, Nat.pow_add]
        calc key + 2 ^ n * _ < 2 ^ n + 2 ^ n * _ := Nat.add_lt_add_right hk _
          _ = 2 ^ n * (_ + 1) := by ring
          _ ≤ _ := Nat.mul_le_mul_left _ hb'
      · exact .inr ⟨st, t, rfl, hst⟩
    · rw [if_neg h]
      have e : n = w := by omega
      subst e
      exact .inl ⟨key, s, rfl, hk⟩

/-- GetKey ends with a code of its width, with EndOfData or with StreamEnd (40_subblock_reader.md R72, R77). -/
theorem getKey_cases (w : Nat) (s : State) (hw : w ≤ 12) :
    (∃ k t, getKey w s = .done k t ∧ k.toNat < 2 ^ w ∧ ReaderOnly s t) ∨
      ∃ st t, getKey w s = .raised st t ∧ (st = .endOfData ∨ st = .streamEnd) ∧ ReaderOnly s t := by
  have hro := getKey_readerOnly w s
  unfold getKey at *
  rcases getKeyLoop_cases w w 0 0 s (by omega) (by omega) (by decide) with ⟨k, t, e, hk⟩ | ⟨st, t, e, hst⟩ <;>
    rw [e] at hro ⊢
  · refine .inl ⟨_, _, rfl, ?_, hro⟩
    rw [BitVec.toNat_ofNat]
    exact Nat.lt_of_le_of_lt (Nat.mod_le _ _) hk
  · exact .inr ⟨st, t, rfl, hst, hro⟩

/-- The next code: CODE takes a number of KS bits, or EndOfData or StreamEnd is raised; nothing but CODE, the reader and POS
changes (41_lzw.md R88). -/
theorem nextCode_cases (s : State) (hw : s.lzw.ks.toNat ≤ 12) :
    (∃ k t, nextCode s = .done k t ∧ k.toNat < 2 ^ s.lzw.ks.toNat ∧ t.lzw = { s.lzw with code := k } ∧
        t = ((s.setReader t.reader).setPos t.pos).setLzw t.lzw) ∨
      ∃ st t, nextCode s = .raised st t ∧ (st = .endOfData ∨ st = .streamEnd) ∧ ReaderOnly s t := by
  unfold nextCode
  rcases getKey_cases _ s hw with ⟨k, t, e, hk, hro⟩ | ⟨st, t, e, hst, hro⟩ <;> rw [e]
  · refine .inl ⟨k, _, rfl, hk, ?_, ?_⟩ <;> (unfold ReaderOnly at hro; rw [hro]; rfl)
  · exact .inr ⟨st, t, rfl, hst, hro⟩

/-! One chain. -/

/-- PutPixel reads nothing but the rectangle, FRAME_CTRL and the canvas width, and writes FRAME only (41_lzw.md R97). -/
theorem putPixel_frameOnly (p : Nat) (v : Byte) (s : State) : putPixel p v s = s.setFrame (putPixel p v s).frame := by
  unfold putPixel
  split <;> rfl

/-- The pixels of the chain from entry `e`, last one first (41_lzw.md R91). -/
def chainPixels (s : State) : Nat → Nat → List Byte
  | 0, _ => []
  | fuel + 1, e =>
    (s.entryAt e).suffix ::
      if (s.entryAt e).parent = Config.sentinel then [] else chainPixels s fuel (s.entryAt e).parent.toNat

/-- Pixels given last one first, placed from offset `off` on. -/
def putReversed (off : Nat) : List Byte → State → State
  | [], s => s
  | v :: rest, s => putReversed off rest (putPixel (off + rest.length) v s)

theorem putReversed_frameOnly (off : Nat) (l : List Byte) (s : State) :
    putReversed off l s = s.setFrame (putReversed off l s).frame := by
  induction l generalizing s with
  | nil => rfl
  | cons v rest ih =>
    rw [putReversed, ih, putPixel_frameOnly]
    rfl

/-- Pixels of a chain depend on T only. -/
theorem chainPixels_congr {s t : State} (h : t.table = s.table) (fuel e : Nat) :
    chainPixels t fuel e = chainPixels s fuel e := by
  induction fuel generalizing e with
  | zero => rfl
  | succ fuel ih =>
    have he : t.entryAt e = s.entryAt e := by unfold State.entryAt; rw [h]
    rw [chainPixels, chainPixels, he, ih]

/-- A defined data code is a literal or an entry above the stop code. -/
theorem dataCode_cases {m : Nat} {l : Lzw} {e : Nat} (h : DataCode m l e) :
    e < clearCode m ∨ (clearCode m + 2 ≤ e ∧ e < l.nentries.toNat) := by
  obtain ⟨h1, h2, h3⟩ := h
  unfold stopCode at h3
  omega

/-- The entry a defined entry points down to is a defined data code (41_lzw.md R99 point 3). -/
theorem parent_dataCode {m : Nat} {s : State} (hc : ChainsWellFormed m s) {e : Nat} (h1 : clearCode m + 2 ≤ e)
    (h2 : e < s.lzw.nentries.toNat) : DataCode m s.lzw (s.entryAt e).parent.toNat := by
  obtain ⟨a, b, c, -, -⟩ := hc.2 e h2 h1
  exact ⟨by omega, b, c⟩

/-- An entry above the stop code is no end of a chain (41_lzw.md R99 point 3). -/
theorem parent_ne_sentinel {m : Nat} {s : State} (hn : s.lzw.nentries.toNat ≤ 4096) (hc : ChainsWellFormed m s) {e : Nat}
    (h1 : clearCode m + 2 ≤ e) (h2 : e < s.lzw.nentries.toNat) : (s.entryAt e).parent ≠ Config.sentinel := by
  intro h
  have a := (hc.2 e h2 h1).1
  rw [h] at a
  have : (4095 : Nat) < e := a
  omega

/-- The walk down the chain of a defined data code: it ends at a literal, has written the chain's LEN pixels at their
offsets, and answers the first of them (41_lzw.md R91, R99 point 3). -/
theorem walkChain_spec {m : Nat} {s : State} (hn : s.lzw.nentries.toNat ≤ 4096) (hc : ChainsWellFormed m s)
    (fuel e : Nat) (he : DataCode m s.lzw e) (hf : (s.entryAt e).len.toNat ≤ fuel) :
    (chainPixels s fuel e).length = (s.entryAt e).len.toNat ∧
      walkChain fuel e s =
        .done ((chainPixels s fuel e).getLastD 0) (putReversed s.lzw.off.toNat (chainPixels s fuel e) s) := by
  have key : ∀ (fuel e : Nat), DataCode m s.lzw e → (s.entryAt e).len.toNat ≤ fuel →
      (chainPixels s fuel e).length = (s.entryAt e).len.toNat ∧
        ∀ t : State, t.table = s.table → t.lzw = s.lzw → walkChain fuel e t =
          .done ((chainPixels s fuel e).getLastD 0) (putReversed s.lzw.off.toNat (chainPixels s fuel e) t) := by
    intro fuel
    induction fuel with
    | zero =>
      intro e he hf
      exfalso
      rcases dataCode_cases he with h | ⟨h1, h2⟩
      · rw [hc.1 e h] at hf; exact absurd hf (by show ¬ 1 ≤ 0; decide)
      · have := (hc.2 e h2 h1).2.2.2.1; omega
    | succ fuel ih =>
      intro e he hf
      rcases dataCode_cases he with h | ⟨h1, h2⟩
      · have hlit := hc.1 e h
        have hp : chainPixels s (fuel + 1) e = [BitVec.ofNat 8 e] := by
          rw [chainPixels, hlit]; simp
        refine ⟨by rw [hp, hlit]; rfl, fun t ht hl => ?_⟩
        have hte : t.entryAt e = s.entryAt e := by unfold State.entryAt; rw [ht]
        rw [hp, walkChain, hte, hlit, hl]
        rfl
      · have hne := parent_ne_sentinel hn hc h1 h2
        have hlen := (hc.2 e h2 h1).2.2.2.1
        obtain ⟨il, iw⟩ := ih _ (parent_dataCode hc h1 h2) (by omega)
        have hp : chainPixels s (fuel + 1) e =
            (s.entryAt e).suffix :: chainPixels s fuel (s.entryAt e).parent.toNat := by
          rw [chainPixels, if_neg hne]
        refine ⟨by rw [hp, List.length_cons, il, hlen], fun t ht hl => ?_⟩
        have hte : t.entryAt e = s.entryAt e := by unfold State.entryAt; rw [ht]
        have hpos : 0 < (chainPixels s fuel (s.entryAt e).parent.toNat).length := by
          rw [il]
          rcases dataCode_cases (parent_dataCode hc h1 h2) with h | ⟨h1', h2'⟩
          · rw [hc.1 _ h]; exact Nat.one_pos
          · have := (hc.2 _ h2' h1').2.2.2.1; omega
        have ho : t.lzw.off.toNat + (s.entryAt e).len.toNat - 1 =
            s.lzw.off.toNat + (chainPixels s fuel (s.entryAt e).parent.toNat).length := by
          rw [il, hl]; omega
        rw [walkChain, hte]
        simp only [ho, if_neg hne]
        rw [iw _ (by rw [putPixel_frameOnly]; exact ht) (by rw [putPixel_frameOnly]; exact hl), hp, putReversed]
        congr 1
        cases hl2 : chainPixels s fuel (s.entryAt e).parent.toNat with
        | nil => rw [hl2] at hpos; exact absurd hpos (by decide)
        | cons a l => simp [List.getLastD]
  exact ⟨(key fuel e he hf).1, (key fuel e he hf).2 s rfl rfl⟩

end Sys2Proof.Safety
end

