-- ==== Sys2Proof/Laws/Compositor.lean ====
section
/-! SUPPORT. The cells of the frame rectangle, what drawing them does, and the branches of DISPOSE
(42_compositor.md R104 to R109). -/

namespace Sys2Proof.Machine

/-! Cells of the canvas. -/

/-- Two pixels of the canvas share a cell only if they are the same pixel (20_memory.md R39). -/
theorem State.cellIndex_inj {s : State} {x y x' y' : Nat} (hx : x < s.width) (hx' : x' < s.width)
    (h : s.cellIndex x y = s.cellIndex x' y') : x = x' ∧ y = y' := by
  unfold State.cellIndex at h
  have hw : 0 < s.width := by omega
  have e : ∀ a b, a < s.width → (b * s.width + a) / s.width = b := fun a b ha => by
    rw [Nat.add_comm, Nat.add_mul_div_right _ _ hw, Nat.div_eq_of_lt ha, Nat.zero_add]
  have hy : y = y' := by rw [← e x y hx, h, e x' y' hx']
  subst hy
  exact ⟨by omega, rfl⟩

/-- A pixel of the canvas has a cell of the canvas. -/
theorem State.cellIndex_lt {s : State} {x y : Nat} (hx : x < s.width) (hy : y < s.height) :
    s.cellIndex x y < s.cells := by
  unfold State.cellIndex State.cells
  have := Nat.mul_le_mul_right s.width (show y + 1 ≤ s.height from hy)
  rw [Nat.succ_mul, Nat.mul_comm s.height] at this
  omega

/-! The frame rectangle. -/

theorem State.rectFits_iff (s : State) :
    s.rectFits = true ↔ s.rect.fx.toNat + s.rect.fw.toNat ≤ s.width ∧ s.rect.fy.toNat + s.rect.fh.toNat ≤ s.height := by
  simp [State.rectFits]

theorem State.inRect_iff (s : State) (x y : Nat) :
    s.inRect x y = true ↔ (s.rect.fx.toNat ≤ x ∧ x < s.rect.fx.toNat + s.rect.fw.toNat) ∧
      s.rect.fy.toNat ≤ y ∧ y < s.rect.fy.toNat + s.rect.fh.toNat := by
  simp [State.inRect]

/-- A pixel of a rectangle that fits is a pixel of the canvas. -/
theorem State.inRect_lt {s : State} (hf : s.rectFits = true) {x y : Nat} (h : s.inRect x y = true) :
    x < s.width ∧ y < s.height := by
  rw [State.rectFits_iff] at hf
  rw [State.inRect_iff] at h
  omega

/-- The cells DISPOSE goes through are those of the rectangle's pixels (42_compositor.md R104). -/
theorem State.mem_rectCells (s : State) (i : Nat) :
    i ∈ s.rectCells ↔ ∃ x y, s.inRect x y = true ∧ i = s.cellIndex x y := by
  simp only [State.rectCells, List.mem_flatMap, List.mem_map, List.mem_range, State.inRect_iff]
  constructor
  · rintro ⟨y, hy, x, hx, rfl⟩
    exact ⟨_, _, by omega, rfl⟩
  · rintro ⟨x, y, h, rfl⟩
    refine ⟨y - s.rect.fy.toNat, by omega, x - s.rect.fx.toNat, by omega, ?_⟩
    congr 1 <;> omega

theorem State.rectCells_lt {s : State} (hf : s.rectFits = true) {i : Nat} (h : i ∈ s.rectCells) : i < s.cells := by
  obtain ⟨x, y, hr, rfl⟩ := (s.mem_rectCells i).mp h
  obtain ⟨hx, hy⟩ := State.inRect_lt hf hr
  exact State.cellIndex_lt hx hy

/-- Of the canvas's pixels, those of the rectangle are the ones whose cells DISPOSE goes through. -/
theorem State.cellIndex_mem_rectCells {s : State} (hf : s.rectFits = true) {x y : Nat} (hx : x < s.width) :
    s.cellIndex x y ∈ s.rectCells ↔ s.inRect x y = true := by
  refine ⟨fun h => ?_, fun h => (s.mem_rectCells _).mpr ⟨x, y, h, rfl⟩⟩
  obtain ⟨x', y', hr, e⟩ := (s.mem_rectCells _).mp h
  obtain ⟨rfl, rfl⟩ := State.cellIndex_inj hx (State.inRect_lt hf hr).1 e
  exact hr

/-! Drawing. -/

/-- What the canvas cell of FRAME value `idx` holds after it is drawn over `old` (42_compositor.md R108). -/
def drawnOver (s : State) (idx : Byte) (old : Option Color) : Option Color :=
  if s.transparent idx then old else some (s.actAt idx)

/-- Drawing cells that all hold a FRAME value: each listed cell is drawn over, every other keeps its contents. -/
theorem drawCells_spec (s : State) (l : List Nat) (h : ∀ i ∈ l, s.frameAt i ≠ none) (canvas : Memory Color) :
    ∃ c, drawCells s l canvas = some c ∧
      ∀ i, Memory.read canvasUnlisted c i =
        if i ∈ l then drawnOver s ((s.frameAt i).getD 0) (Memory.read canvasUnlisted canvas i)
        else Memory.read canvasUnlisted canvas i := by
  induction l generalizing canvas with
  | nil => exact ⟨canvas, rfl, by simp⟩
  | cons a rest ih =>
    obtain ⟨idx, ha⟩ := Option.ne_none_iff_exists'.mp (h a (by simp))
    simp only [drawCells, ha]
    obtain ⟨c, hc, hr⟩ := ih (fun i hi => h i (by simp [hi]))
      (if s.transparent idx then canvas else Memory.write canvasUnlisted canvas a (s.actAt idx))
    refine ⟨c, hc, fun i => ?_⟩
    rw [hr i]
    by_cases hia : i = a
    · subst hia
      by_cases ht : s.transparent idx = true <;> by_cases hm : i ∈ rest <;> simp [ha, drawnOver, ht, hm]
    · by_cases ht : s.transparent idx = true <;> by_cases hm : i ∈ rest <;>
        simp [hia, ht, hm, Memory.read_write_other _ _ _ hia]

/-- Drawing a cell whose FRAME value is not there gives no canvas (70_reset_and_hazards.md R124). -/
theorem drawCells_none (s : State) (l : List Nat) {i : Nat} (hi : i ∈ l) (h : s.frameAt i = none)
    (canvas : Memory Color) : drawCells s l canvas = none := by
  induction l generalizing canvas with
  | nil => simp at hi
  | cons a rest ih =>
    simp only [drawCells]
    cases ha : s.frameAt a with
    | none => rfl
    | some idx =>
      refine ih ?_ _
      rcases List.mem_cons.mp hi with rfl | hi
      · rw [h] at ha; cases ha
      · exact hi

/-- Drawing cells of the canvas keeps its canonical form. -/
theorem drawCells_wf (s : State) {n : Nat} (l : List Nat) (hl : ∀ i ∈ l, i < n) {canvas c : Memory Color}
    (hw : Memory.wf canvasUnlisted n canvas) (h : drawCells s l canvas = some c) : Memory.wf canvasUnlisted n c := by
  induction l generalizing canvas with
  | nil => cases h; exact hw
  | cons a rest ih =>
    simp only [drawCells] at h
    cases ha : s.frameAt a with
    | none => rw [ha] at h; cases h
    | some idx =>
      rw [ha] at h
      refine ih (fun i hi => hl i (by simp [hi])) ?_ h
      split
      · exact hw
      · exact Memory.wf_write _ hw (hl a (by simp)) _

/-! The branches of DISPOSE. -/

/-- Everything DISPOSE can come to (42_compositor.md R104 to R108, 70_reset_and_hazards.md R124). -/
theorem disposeCommand_cases (s : State) :
    (s.rectFits = false ∧ disposeCommand s = .raised .badRect s) ∨
    (s.rectFits = true ∧ s.gce.disposal = 2 ∧ disposeCommand s = .done () (disposeToBackground s)) ∨
    (s.rectFits = true ∧ s.gce.disposal = 3 ∧ disposeCommand s = .done () s) ∨
    (s.rectFits = true ∧ s.gce.disposal ≠ 2 ∧ s.gce.disposal ≠ 3 ∧ disposeCommand s = disposeByDrawing s) := by
  have h2 : ∀ d : BitVec 3, d = 2 ∨ d = 3 ∨ (d ≠ 2 ∧ d ≠ 3 ∧ d.toNat ≠ 2 ∧ d.toNat ≠ 3) := by decide
  unfold disposeCommand
  cases hf : s.rectFits with
  | false => exact .inl ⟨rfl, rfl⟩
  | true =>
    rcases h2 s.gce.disposal with h | h | ⟨ha, hb, hc, hd⟩
    · exact .inr (.inl ⟨rfl, h, by rw [h]; rfl⟩)
    · exact .inr (.inr (.inl ⟨rfl, h, by rw [h]; rfl⟩))
    · refine .inr (.inr (.inr ⟨rfl, ha, hb, ?_⟩))
      rw [if_pos rfl]
      split
      · contradiction
      · contradiction
      · rfl

/-- `t` is `s` but for CANVAS. -/
def CanvasOnly (s t : State) : Prop := t = s.setCanvas t.canvas

/-- DISPOSE writes CANVAS and nothing else (42_compositor.md R104). -/
theorem disposeCommand_canvasOnly (s : State) : (disposeCommand s).Leaves (CanvasOnly s) := by
  rcases disposeCommand_cases s with ⟨-, h⟩ | ⟨-, -, h⟩ | ⟨-, -, h⟩ | ⟨-, -, -, h⟩ <;> rw [h]
  · exact rfl
  · exact rfl
  · exact rfl
  · unfold disposeByDrawing
    split
    · exact rfl
    · trivial

end Sys2Proof.Machine
end

