-- ==== Sys2Proof/Laws/Encoding.lean ====
section
/-! SUPPORT. Command words as numbers: a word put together from fields, and a field taken from a word
(30_encoding.md R60, R61). -/

namespace Sys2Proof

/-- Fields side by side: the left one above the right one. -/
theorem toNat_append_fields {m n : Nat} (x : BitVec m) (y : BitVec n) :
    (x ++ y).toNat = x.toNat * 2 ^ n + y.toNat := by
  rw [BitVec.toNat_append, ← Nat.shiftLeft_add_eq_or_of_lt y.isLt, Nat.shiftLeft_eq]

/-- The field of `n` bits from bit `k` on. -/
theorem toNat_field {m : Nat} (w : BitVec m) (k n : Nat) : (w.extractLsb' k n).toNat = w.toNat / 2 ^ k % 2 ^ n := by
  rw [BitVec.extractLsb'_toNat, Nat.shiftRight_eq_div_pow]

theorem formatN_toNat (op : BitVec 4) : (formatN op).toNat = op.toNat := by
  rw [formatN, toNat_append_fields]; simp

theorem formatP_toNat (color : Color) (index : Byte) (sel : BitVec 1) (op : BitVec 4) :
    (formatP color index sel op).toNat = color.toNat * 65536 + index.toNat * 256 + sel.toNat * 16 + op.toNat := by
  simp only [formatP, toNat_append_fields]; simp; ring

theorem formatK_toNat (width op : BitVec 4) : (formatK width op).toNat = width.toNat * 16 + op.toNat := by
  simp only [formatK, toNat_append_fields]; simp

end Sys2Proof
end

