-- ==== Sys2Proof/Laws/PerInstr.lean ====
section
/-! SUPPORT. Statements for all instructions, one lemma per constructor. The family EncodedWordWellFormed: the encoder's
word is one command of its instruction's opcode, with every must-be-zero bit zero (30_encoding.md R60, R62, R63). -/

namespace Sys2Proof.Laws.EncodedWordWellFormed

/-- The encoding of `i` is well formed and carries its opcode. -/
def Statement (i : Instr) : Prop := commandWordWf (encode i) = true ∧ fieldOp (encode i) = i.opcode

theorem init : Statement .init := by unfold Statement; decide

theorem skip : Statement .skip := by unfold Statement; decide

theorem decode : Statement .decode := by unfold Statement; decide

theorem dispose : Statement .dispose := by unfold Statement; decide

/-- The fields of a format P word below INDEX. -/
theorem formatP_low (color : Color) (index : Byte) (sel : BitVec 1) (op : BitVec 4) :
    (formatP color index sel op).extractLsb' 0 4 = op ∧ (formatP color index sel op).extractLsb' 5 3 = 0 := by
  have h := formatP_toNat color index sel op
  have := op.isLt
  have := sel.isLt
  constructor <;> apply BitVec.eq_of_toNat_eq <;> rw [toNat_field, h] <;> simp <;> omega

theorem palWrite (sel : PalSel) (index : Byte) (color : Color) : Statement (.palWrite sel index color) := by
  obtain ⟨h1, h2⟩ := formatP_low color index (selBit sel) 0x5
  refine ⟨?_, h1⟩
  unfold commandWordWf opAssigned mbzZero encode
  rw [h1, h2]
  rfl

theorem brReset : Statement .brReset := by unfold Statement; decide

theorem getKey (w : BitVec 4) : Statement (.getKey w) := by unfold Statement; revert w; decide

end Sys2Proof.Laws.EncodedWordWellFormed
end

