-- ==== Sys2Proof/Laws/Step.lean ====
section
/-! SUPPORT. What a command and a step can do, said once: the part each command ends, and the cases of one step. -/

namespace Sys2Proof.Machine

/-- The part that a command ends (00_scope.md R11). -/
def commandPart : Instr → State → Res Unit
  | .init, s => .done () (initState s)
  | .skip, s => skipSubBlocks s
  | .decode, s => decodeCommand s
  | .dispose, s => disposeCommand s
  | .palWrite sel index color, s => .done () (palWriteState sel index color s)
  | .brReset, s => .done () (brReset s)
  | .getKey w, s => getKeyCommand w s

/-- Every command is its part with STATUS written at the end. -/
theorem exec_eq_endCommand (i : Instr) (s : State) : exec i s = endCommand (commandPart i s) := by
  cases i <;> rfl

/-- A command ends in a next state or in a fault, never in a refusal. -/
theorem exec_ne_refused (i : Instr) (s : State) (r : Refusal) : exec i s ≠ .refused r := by
  rw [exec_eq_endCommand]
  rcases endCommand_cases (commandPart i s) with ⟨t, -, h⟩ | ⟨st, t, -, h⟩ | ⟨f, -, h⟩ <;> rw [h] <;> nofun

/-- A word performs the command it encodes, or BadCommand (30_encoding.md R62, R63). -/
theorem performWord_cases (w : Word) (s : State) :
    (∃ i, decodeWord w = .instr i ∧ performWord w s = exec i s) ∨
      ∃ r, decodeWord w = .reject r ∧ performWord w s = .next (s.setStatus .badCommand) := by
  unfold performWord
  cases decodeWord w with
  | instr i => exact .inl ⟨i, rfl, rfl⟩
  | reject r => exact .inr ⟨r, rfl, rfl⟩

@[simp] theorem recordStatus_next (s : State) : recordStatus (.next s) = .next s.logStatus := rfl
@[simp] theorem recordStatus_fault (f : Fault) : recordStatus (.fault f) = .fault f := rfl

/-- A recorded outcome is a next state only after a next state. -/
theorem recordStatus_eq_next {o : Host.Outcome State Fault Refusal} {t : State} (h : recordStatus o = .next t) :
    ∃ u, o = .next u ∧ t = u.logStatus := by
  cases o with
  | next u => cases h; exact ⟨u, rfl, rfl⟩
  | fault f => cases h
  | refused r => cases h

/-- A register write: a CMD write performs a word, any other write sets fields (20_memory.md R38, 10_state.md R31). -/
theorem memWrite_cases (addr v : Word) (s : State) :
    (regAt addr = .cmd ∧ memWrite addr v s = commandWrite v s) ∨
      (regAt addr ≠ .cmd ∧ memWrite addr v s = .next (s.writeReg (regAt addr) v)) := by
  unfold memWrite
  cases regAt addr <;> simp

/-- A register write sets BG, the frame registers or GCE, and nothing else (10_state.md R18). -/
theorem State.writeReg_frame (s : State) (r : Reg) (v : Word) :
    s.writeReg r v = { s with bg := (s.writeReg r v).bg, rect := (s.writeReg r v).rect,
                              ctrl := (s.writeReg r v).ctrl, gce := (s.writeReg r v).gce } := by
  cases r <;> rfl

/-- A renderer read answers with a reply and nothing else, or faults. -/
theorem answerPort_cases {α : Type} (p : PortRead α) (wrap : α → Reply) (s : State) :
    (∃ v, p = .value v ∧ answerPort p wrap s = .next (s.reply (wrap v))) ∨
      ∃ f, p = .faulted f ∧ answerPort p wrap s = .fault f := by
  cases p with
  | value v => exact .inl ⟨v, rfl, rfl⟩
  | faulted f => exact .inr ⟨f, rfl, rfl⟩

/-- The host's own stream read moves POS at most by one and answers (20_memory.md R44). -/
theorem hostStreamRead_cases (s : State) :
    (∃ b, s.stream[s.pos.toNat]? = some b ∧ hostStreamRead s = (s.setPos (s.pos + 1)).reply (.byte b)) ∨
      (s.stream[s.pos.toNat]? = none ∧ hostStreamRead s = s.reply .streamEnd) := by
  unfold hostStreamRead
  cases s.stream[s.pos.toNat]? with
  | some b => exact .inl ⟨b, rfl, rfl⟩
  | none => exact .inr ⟨rfl, rfl⟩

/-- Everything a step that answers a next state can have done (70_reset_and_hazards.md R137, R138). -/
theorem step_cases {s t : State} (h : step s = .next t) :
    (s.pending = [] ∧ t = s) ∨
    ∃ a rest, s.pending = a :: rest ∧
      ((∃ addr w i u, a = .writeReg addr w ∧ regAt addr = .cmd ∧ decodeWord w = .instr i ∧
          exec i (s.setPending rest) = .next u ∧ t = u.logStatus) ∨
       (∃ addr w r, a = .writeReg addr w ∧ regAt addr = .cmd ∧ decodeWord w = .reject r ∧
          t = ((s.setPending rest).setStatus .badCommand).logStatus) ∨
       (∃ addr v, a = .writeReg addr v ∧ regAt addr ≠ .cmd ∧ t = (s.setPending rest).writeReg (regAt addr) v) ∨
       (∃ r, t = (s.setPending rest).reply r) ∨
       (∃ r, t = ((s.setPending rest).setPos (s.pos + 1)).reply r) ∨
       (∃ p, a = .streamSeek p ∧ t = (s.setPending rest).setPos p) ∨
       (a = .hardReset ∧ t = (s.setPending rest).hardReset)) := by
  unfold step performNext at h
  cases hp : s.pending with
  | nil => rw [hp] at h; cases h; exact .inl ⟨rfl, rfl⟩
  | cons a rest =>
    rw [hp] at h
    refine .inr ⟨a, rest, rfl, ?_⟩
    cases a with
    | writeReg addr w =>
      simp only [interact] at h
      rcases memWrite_cases addr w (s.setPending rest) with ⟨hc, e⟩ | ⟨hc, e⟩
      · rw [e, commandWrite] at h
        obtain ⟨u, hu, rfl⟩ := recordStatus_eq_next h
        rcases performWord_cases w (s.setPending rest) with ⟨i, hd, e⟩ | ⟨r, hd, e⟩
        · exact .inl ⟨addr, w, i, u, rfl, hc, hd, e ▸ hu, rfl⟩
        · rw [e] at hu; cases hu
          exact .inr (.inl ⟨addr, w, r, rfl, hc, hd, rfl⟩)
      · rw [e] at h; cases h
        exact .inr (.inr (.inl ⟨addr, w, rfl, hc, rfl⟩))
    | readReg addr => cases h; exact .inr (.inr (.inr (.inl ⟨_, rfl⟩)))
    | streamRead =>
      cases h
      rcases hostStreamRead_cases (s.setPending rest) with ⟨b, -, e⟩ | ⟨-, e⟩ <;> rw [e]
      · exact .inr (.inr (.inr (.inr (.inl ⟨_, rfl⟩))))
      · exact .inr (.inr (.inr (.inl ⟨_, rfl⟩)))
    | streamSeek p => cases h; exact .inr (.inr (.inr (.inr (.inr (.inl ⟨p, rfl, rfl⟩)))))
    | streamPos => cases h; exact .inr (.inr (.inr (.inl ⟨_, rfl⟩)))
    | frameRead i =>
      simp only [interact] at h
      rcases answerPort_cases (framePort (s.setPending rest) i) .pixel (s.setPending rest) with ⟨v, -, e⟩ | ⟨f, -, e⟩ <;>
        rw [e] at h <;> cases h
      exact .inr (.inr (.inr (.inl ⟨_, rfl⟩)))
    | canvasRead i =>
      simp only [interact] at h
      rcases answerPort_cases (canvasPort (s.setPending rest) i) .color (s.setPending rest) with ⟨v, -, e⟩ | ⟨f, -, e⟩ <;>
        rw [e] at h <;> cases h
      exact .inr (.inr (.inr (.inl ⟨_, rfl⟩)))
    | view x y =>
      simp only [interact] at h
      rcases answerPort_cases (viewPort (s.setPending rest) x y) .color (s.setPending rest) with ⟨v, -, e⟩ | ⟨f, -, e⟩ <;>
        rw [e] at h <;> cases h
      exact .inr (.inr (.inr (.inl ⟨_, rfl⟩)))
    | hardReset => cases h; exact .inr (.inr (.inr (.inr (.inr (.inr ⟨rfl, rfl⟩)))))

/-! The memories. -/

/-- The memories of the state after reset list nothing, so each is in canonical form. -/
theorem State.reset_memories :
    State.reset.table = [] ∧ State.reset.gpal = [] ∧ State.reset.lpal = [] ∧ State.reset.frame = [] ∧
      State.reset.canvas = [] := ⟨rfl, rfl, rfl, rfl, rfl⟩

/-- The canonical form of each memory of the reset state. -/
theorem State.reset_memories_wf :
    Memory.wf tableUnlisted Config.tableCap State.reset.table ∧
      Memory.wf paletteUnlisted Config.palEntries State.reset.gpal ∧
      Memory.wf paletteUnlisted Config.palEntries State.reset.lpal ∧
      Memory.wf frameUnlisted State.reset.cells State.reset.frame ∧
      Memory.wf canvasUnlisted State.reset.cells State.reset.canvas :=
  ⟨Memory.wf_nil _ _, Memory.wf_nil _ _, Memory.wf_nil _ _, Memory.wf_nil _ _, Memory.wf_nil _ _⟩

end Sys2Proof.Machine
end

