-- ==== Sys2Proof/Tests/Slice0.lean ====
section
/-! SUPPORT. The model's own tests: what WellFormed refuses, words written out from 30_encoding.md R60 and R61, single steps
with results from 95_test_vectors.md, and for every statement with hypotheses a witness that meets them. -/

namespace Sys2Proof.Tests

open Sys2Proof.Machine Sys2Proof.Safety

/-! Helpers. -/

/-- After reset, with a canvas size and a stream. -/
def small (w h : BitVec 16) (bytes : List Byte) : State := State.resetFor w h bytes

/-- After reset and INIT on a 4 by 4 canvas, with the rectangle (0, 0, w, h): the start of 95_test_vectors.md section 4. -/
def ready (w h : BitVec 16) (bytes : List Byte) : State :=
  (initState (small 4 4 bytes)).setRect { fx := 0, fy := 0, fw := w, fh := h }

/-- The start of V-DISP-UNDEF (95_test_vectors.md section 5). -/
def drawn : State :=
  { small 4 1 [] with
    canvas := [(0, 9), (1, 9), (2, 9), (3, 9)], frame := [(0, 1), (1, 2), (2, 3), (3, 1)],
    lpal := [(1, 0xABCD), (2, 0x2222)], gpal := [(1, 0x1234)], bg := 1,
    rect := { fx := 0, fy := 0, fw := 4, fh := 1 }, ctrl := { interlace := false, lpalSel := true },
    gce := { disposal := 5, transp := true, tindex := 3, delay := 7 } }

/-- The start of V-DISP-BG: disposal 2 of the rectangle (1, 0, 2, 1) (95_test_vectors.md section 5). -/
def background : State :=
  { drawn with rect := { fx := 1, fy := 0, fw := 2, fh := 1 }, gce := { disposal := 2, transp := false, tindex := 0, delay := 0 } }

/-- A state with one interaction to come. -/
def asked (s : State) (a : Interaction) : State := s.setPending [a]

/-- The outcome is a next state that passes a check. -/
def nextHas (o : Host.Outcome State Fault Refusal) (p : State → Bool) : Bool :=
  match o with
  | .next t => p t
  | .fault _ => false
  | .refused _ => false

/-- The outcome is a fault. -/
def faultIs (o : Host.Outcome State Fault Refusal) (f : Fault) : Bool :=
  match o with
  | .next _ => false
  | .fault g => f == g
  | .refused _ => false

/-- The state a part of a command leaves when it is done. -/
def leftBy {α : Type} (r : Res α) (s : State) : State :=
  match r with
  | .done _ t => t
  | .raised _ t => t
  | .faulted _ => s

/-- The answers of a part that is done. -/
def doneWith {α : Type} [DecidableEq α] (r : Res α) (a : α) : Bool :=
  match r with
  | .done b _ => a == b
  | .raised _ _ => false
  | .faulted _ => false

theorem next_of_has {o : Host.Outcome State Fault Refusal} {p : State → Bool} (h : nextHas o p = true) :
    ∃ t, o = .next t ∧ p t = true := by
  cases o with
  | next t => exact ⟨t, rfl, h⟩
  | fault f => cases h
  | refused r => cases h

theorem done_of_with {α : Type} [DecidableEq α] {r : Res α} {a : α} (h : doneWith r a = true) : ∃ t, r = .done a t := by
  cases r with
  | done b t => exact ⟨t, by rw [eq_of_beq (a := a) (b := b) h]⟩
  | raised st t => cases h
  | faulted f => cases h

/-! What WellFormed refuses. -/

/-- A reserved OP, low and high (95_test_vectors.md section 2). -/
theorem test_wf_refuses_reserved_op :
    opAssigned 0x00000000 = false ∧ opAssigned 0x00000008 = false ∧ opAssigned 0x0000000F = false := by decide

/-- A must-be-zero bit in each format (95_test_vectors.md section 2). -/
theorem test_wf_refuses_mbz :
    mbzZero 0x00000013 = false ∧ mbzZero 0x000000E5 = false ∧ mbzZero 0x00000107 = false := by decide

theorem test_wf_refuses_words :
    commandWordWf 0x00000000 = false ∧ commandWordWf 0x00000013 = false ∧ commandWordWf 0x00000097 = true := by decide

/-- A canvas with no column or no row (00_scope.md R8). -/
theorem test_wf_refuses_empty_canvas : canvasWf 0 1 = false ∧ canvasWf 1 0 = false ∧ canvasWf 1 1 = true := by decide

/-- A stream longer than 2^32 - 256 bytes (00_scope.md R8). -/
theorem test_wf_refuses_long_stream : streamWf (List.replicate 4294967041 0) = false := by
  rw [streamWf, List.length_replicate]; decide

/-- More colours than a palette has entries (30_encoding.md R67). -/
theorem test_wf_refuses_long_palette : paletteWf (List.replicate 257 0) = false := by
  rw [paletteWf, List.length_replicate]; decide

/-- Every instruction term is encodable (30_encoding.md R61). -/
theorem test_wf_accepts_every_term (i : Instr) : i.wf = true := by cases i <;> rfl

/-! Words written out bit by bit (30_encoding.md R60, R62): MBZ, then OP. -/

theorem test_decode_init : decodeWord 0b0000000000000000000000000000_0001 = .instr .init := by decide
theorem test_decode_skip : decodeWord 0b0000000000000000000000000000_0010 = .instr .skip := by decide
theorem test_decode_decode : decodeWord 0b0000000000000000000000000000_0011 = .instr .decode := by decide
theorem test_decode_dispose : decodeWord 0b0000000000000000000000000000_0100 = .instr .dispose := by decide
theorem test_decode_brReset : decodeWord 0b0000000000000000000000000000_0110 = .instr .brReset := by decide

/-- COLOR, INDEX, MBZ, SEL, OP: PAL_WRITE L, 5, 0xF800. -/
theorem test_decode_palWrite :
    decodeWord 0b1111100000000000_00000101_000_1_0101 = .instr (.palWrite .lpal 5 0xF800) := by decide

/-- MBZ, W, OP: GET_KEY 9, and the refused widths 13 and 0, which decode. -/
theorem test_decode_getKey :
    decodeWord 0b000000000000000000000000_1001_0111 = .instr (.getKey 9) ∧
      decodeWord 0x000000D7 = .instr (.getKey 13) ∧ decodeWord 0x00000007 = .instr (.getKey 0) := by decide

/-- The rejected words of 95_test_vectors.md section 2. -/
theorem test_decode_rejects :
    decodeWord 0x00000013 = .reject .mbzNotZero ∧ decodeWord 0x000000E5 = .reject .mbzNotZero ∧
      decodeWord 0x00000107 = .reject .mbzNotZero ∧ decodeWord 0x00000000 = .reject .reservedOp ∧
      decodeWord 0x0000000F = .reject .reservedOp := by decide

theorem test_decodeTableWord : decodeTableWord 32 0xF8000515 = some (.palWrite .lpal 5 0xF800) := by decide

/-! One step of each command. -/

/-- V-INIT (95_test_vectors.md section 5). -/
theorem test_init :
    nextHas (exec .init { drawn with bg := 2, gpal := [(2, 0x07E0)] }) (fun t =>
      t.frameAt 3 == some 2 && t.canvasAt 0 == some 0x07E0 && t.rect.fw == 0 && t.gce.disposal == 0 &&
        t.status == .ok) = true := by decide

/-- V-SKIP-1 with the terminator at 17 (95_test_vectors.md section 3.2). -/
theorem test_skip :
    nextHas (exec .skip (small 1 1 ([0x0A, 1, 2, 3, 4, 5, 6, 7, 8, 9, 10, 0x05, 1, 2, 3, 4, 5, 0x00, 0x99])))
      (fun t => t.pos == 18 && t.status == .ok) = true := by decide

/-- V-SKIP-5 (95_test_vectors.md section 3.2). -/
theorem test_skip_past_end :
    nextHas (exec .skip (small 1 1 [0xC8, 0x01])) (fun t => t.pos == 201 && t.status == .streamEnd) = true := by decide

/-- V-PAL (95_test_vectors.md section 5). -/
theorem test_palWrite :
    nextHas (exec (.palWrite .lpal 5 0xF800) (small 1 1 []))
      (fun t => t.lpalAt 5 == 0xF800 && t.gpalAt 5 == 0 && t.status == .ok) = true := by decide

/-- V-BR-2: BR_RESET keeps POS (95_test_vectors.md section 3.1). -/
theorem test_brReset :
    nextHas (exec .brReset
        ((small 1 1 [0x02, 0x8C, 0x2D, 0x00]).setPos 3 |>.setReader { sbRem := 0, curByte := 0x2D, shift := 1 }))
      (fun t => t.pos == 3 && t.readReg .brState == 0) = true := by decide

/-- V-BR-1, third row: a code over a byte boundary (95_test_vectors.md section 3.1). -/
theorem test_getKey_spans_bytes :
    nextHas (exec (.getKey 3)
        ((small 1 1 [0x02, 0x8C, 0x2D, 0x00]).setPos 2 |>.setReader { sbRem := 1, curByte := 0x8C, shift := 6 }))
      (fun t => t.keyOut == 6 && t.pos == 3 && t.readReg .brState == 0x00012D00 && t.status == .ok) = true := by decide

/-- V-BR-3, third row: the terminator after eight bits (95_test_vectors.md section 3.1). -/
theorem test_getKey_endOfData :
    nextHas (exec (.getKey 12)
        (((small 1 1 [0x01, 0xAB, 0x01, 0xCD, 0x01, 0xEF, 0x00]).setPos 4).setKeyOut 0xCDA
          |>.setReader { sbRem := 0, curByte := 0xCD, shift := 0 }))
      (fun t => t.keyOut == 0xCDA && t.pos == 7 && t.readReg .brState == 0x0000EF00 && t.status == .endOfData) =
      true := by decide

/-- V-KWKWK (95_test_vectors.md section 4.1). -/
theorem test_decode_kwkwk :
    nextHas (exec .decode (ready 4 2 [0x02, 0x03, 0x8C, 0x2D, 0x05, 0x00]))
      (fun t => t.status == .ok && t.pos == 6 && t.readReg .lzwState == 0x0434000A && t.frameAt 5 == some 2 &&
        t.frameAt 4 == some 1) = true := by decide +kernel

/-- V-CLEAR-MID (95_test_vectors.md section 4.2). -/
theorem test_decode_clear_mid :
    nextHas (exec .decode (ready 4 2 [0x02, 0x04, 0x44, 0x4C, 0x53, 0x01, 0x00]))
      (fun t => t.status == .ok && t.pos == 7 && t.readReg .lzwState == 0x06330008 && t.frameAt 3 == some 1 &&
        t.frameAt 4 == some 3) = true := by decide +kernel

/-- V-DISP-UNDEF (95_test_vectors.md section 5). -/
theorem test_dispose_default :
    nextHas (exec .dispose drawn)
      (fun t => t.canvas == [(0, 0xABCD), (1, 0x2222), (2, 9), (3, 0xABCD)] && t.status == .ok) = true := by decide

/-- V-DISP-BG (95_test_vectors.md section 5). -/
theorem test_dispose_background :
    nextHas (exec .dispose background)
      (fun t => t.canvas == [(0, 9), (1, 0xABCD), (2, 0xABCD), (3, 9)] && t.status == .ok) = true := by decide

/-- V-VIEW-BAD (95_test_vectors.md section 5). -/
theorem test_view_bad_rect :
    viewPort (drawn.setRect { fx := 3, fy := 0, fw := 2, fh := 1 }) 3 0 = .value 9 := by decide

/-- ILI(8, y), corrected (95_test_vectors.md section 1.2), and the second row of height 2 (section 4.10). -/
theorem test_interlacedLine :
    (List.range 8).map (interlacedLine 8) = [0, 4, 2, 6, 1, 3, 5, 7] ∧ interlacedLine 2 1 = 1 := by decide

/-- The first line of program P2: WR BG (95_test_vectors.md section 6). -/
theorem test_write_bg :
    nextHas (step (asked (small 4 4 []) (.writeReg 0x0C 0x00000007))) (fun t => t.bg == 7 && t.statuses == []) = true := by
  decide

/-- A reserved word is BadCommand (95_test_vectors.md section 2). -/
theorem test_bad_command :
    nextHas (step (asked (small 4 4 []) (.writeReg 0x00 0x00000013)))
      (fun t => t.status == .badCommand && t.statuses == [.badCommand]) = true := by decide

/-! Witnesses: for every statement with hypotheses, a state and operands that meet them, one for each clause. -/

/-- ReservedWordChangesStatusOnly: a word for each way a word is no command. -/
theorem test_witness_ReservedWordChangesStatusOnly :
    (0x00000000 : Word).toNat % 16 = 0 ∧ 8 ≤ (0x00000008 : Word).toNat % 16 ∧ 8 ≤ (0x0000000F : Word).toNat % 16 ∧
      ((0x000000E5 : Word).toNat % 16 = 5 ∧ (0x000000E5 : Word).toNat / 32 % 8 ≠ 0) ∧
      ((0x00000107 : Word).toNat % 16 = 7 ∧ (0x00000107 : Word).toNat / 256 ≠ 0) ∧
      ((0x00000013 : Word).toNat % 16 ≠ 5 ∧ (0x00000013 : Word).toNat % 16 ≠ 7 ∧ (0x00000013 : Word).toNat / 16 ≠ 0) := by
  decide

/-- StepRunsDecodedCommand: a command word and a reserved word, at an address with undecoded bits. -/
theorem test_witness_StepRunsDecodedCommand :
    (asked drawn (.writeReg 0x00000103 0x00000002)).pending = [.writeReg 0x00000103 0x00000002] ∧
      regAt 0x00000103 = .cmd ∧ decodeWord 0x00000002 = .instr .skip ∧
      (asked drawn (.writeReg 0 0x00000013)).pending = [.writeReg 0 0x00000013] ∧ regAt 0 = .cmd ∧
      decodeWord 0x00000013 = .reject .mbzNotZero := by decide

/-- IdleStepHoldsState. -/
theorem test_witness_IdleStepHoldsState : State.reset.pending = [] := rfl

/-- ReadsChangeNoState: the reads that answer by themselves. -/
theorem test_witness_ReadsChangeNoState_reads :
    (asked drawn (.readReg 0x24)).pending = [.readReg 0x24] ∧ (asked drawn .streamPos).pending = [.streamPos] := by decide

/-- ReadsChangeNoState: renderer reads that answer, the last cell and the last pixel of the canvas. -/
theorem test_witness_ReadsChangeNoState_ports :
    (∃ t, step (asked drawn (.frameRead 3)) = .next t) ∧ (∃ t, step (asked drawn (.canvasRead 3)) = .next t) ∧
      ∃ t, step (asked drawn (.view 3 0)) = .next t :=
  ⟨⟨_, rfl⟩, ⟨_, rfl⟩, ⟨_, rfl⟩⟩

/-- RendererPortsReadCells: the last cell with a value, and a cell with none. -/
theorem test_witness_RendererPortsReadCells :
    (3 < (asked drawn (.frameRead 3)).cells ∧ (asked drawn (.frameRead 3)).frameAt 3 = some 1) ∧
      (0 < (asked (small 1 1 []) (.frameRead 0)).cells ∧ (asked (small 1 1 []) (.frameRead 0)).frameAt 0 = none) ∧
      (3 < (asked drawn (.canvasRead 3)).cells ∧ (asked drawn (.canvasRead 3)).canvasAt 3 = some 9) ∧
      (0 < (asked (small 1 1 []) (.canvasRead 0)).cells ∧ (asked (small 1 1 []) (.canvasRead 0)).canvasAt 0 = none) := by
  decide

/-- RendererPortsReadCells: a View read that gives a value and one that stops. -/
theorem test_witness_RendererPortsReadCells_view :
    (asked drawn (.view 3 0)).pending = [.view 3 0] ∧ viewPort (asked drawn (.view 3 0)) 3 0 = .value 0xABCD ∧
      viewPort (asked (small 1 1 []) (.view 0 0)) 0 0 = .faulted .unwrittenCanvas := by decide

/-- HardResetValues. -/
theorem test_witness_HardResetValues : (asked drawn .hardReset).pending = [.hardReset] := rfl

/-- PortIgnoresOtherAddressBits: two addresses of BG. -/
theorem test_witness_PortIgnoresOtherAddressBits :
    (0x0000000C : Word).toNat / 4 % 64 = (0xFFFFFF0F : Word).toNat / 4 % 64 := by decide

/-- RegisterWriteReadBack: a read-write register, a read-only one and the last reserved offset. -/
theorem test_witness_RegisterWriteReadBack :
    regAt 0x1C ≠ .cmd ∧ writable (regAt 0x1C) = true ∧ regAt 0x34 ≠ .cmd ∧ writable (regAt 0x34) = false ∧
      regAt 0xFC = .reserved := by decide

/-- ReadOnlyRegisterFields: the first and the last reserved offset, and a read of one. -/
theorem test_witness_ReadOnlyRegisterFields :
    14 ≤ (0x38 : Word).toNat / 4 % 64 ∧ 14 ≤ (0xFC : Word).toNat / 4 % 64 ∧ regAt 0xFC = .reserved := by decide

/-- PseudoInstructionsWriteFields: a program of each form. -/
theorem test_witness_PseudoInstructionsWriteFields :
    (drawn.withProgram (setRectLines 1 2 3 4)).pending = (setRectLines 1 2 3 4).map Line.interaction ++ [] ∧
      (drawn.withProgram (setCtrlLines 1 1)).pending = (setCtrlLines 1 1).map Line.interaction ++ [] ∧
      (drawn.withProgram (setGceLines 7 1 255 0xFFFF)).pending =
        (setGceLines 7 1 255 0xFFFF).map Line.interaction ++ [] := by decide

/-- StreamReadAndSeek: at the last byte and at the end. -/
theorem test_witness_StreamReadAndSeek :
    streamWf (small 1 1 [7]).stream = true ∧ (small 1 1 [7]).stream[(small 1 1 [7]).pos.toNat]? = some 7 ∧
      ((small 1 1 [7]).setPos 1).stream.length ≤ ((small 1 1 [7]).setPos 1).pos.toNat := by decide

/-- SkipDiscardsOneSequence: a sequence that ends, and one that is cut off. -/
theorem test_witness_SkipDiscardsOneSequence :
    streamWf (small 1 1 [3, 1, 2, 3, 0]).stream = true ∧ hasTerminator 0 ([3, 1, 2, 3, 0] : List Byte) = true ∧
      streamWf (small 1 1 [3, 1, 2, 3]).stream = true ∧ hasTerminator 0 ([3, 1, 2, 3] : List Byte) = false := by decide

/-- GetKeyReadsNextBits: what the third row of V-BR-1 reads: one data byte, no length byte, none of the sub-block left. -/
theorem test_witness_GetKeyReadsNextBits_bytes :
    bytesNeeded 3 { sbRem := 1, curByte := 0x8C, shift := 6 } = 1 ∧ readLength 1 1 [0x2D, 0x00] = 1 ∧
      blockLeft 1 1 [0x2D, 0x00] = 0 := by decide

/-- GetKeyReadsNextBits: V-BR-4, exactly twelve bits and more left, and the two ends of the width range. -/
theorem test_witness_GetKeyReadsNextBits :
    streamWf (small 1 1 [0x02, 0xFF, 0x0F, 0x00]).stream = true ∧
      (12 : BitVec 4).toNat ≤ (unreadBits (small 1 1 [0x02, 0xFF, 0x0F, 0x00])).length ∧
      (2 : BitVec 4).toNat ≤ (unreadBits (small 1 1 [0x01, 0xFF, 0x00])).length := by decide

/-- GetKeyMeetsTerminator: V-BR-6 and one bit too few. -/
theorem test_witness_GetKeyMeetsTerminator :
    (streamWf (small 1 1 [0x00]).stream = true ∧ (unreadBits (small 1 1 [0x00])).length < (5 : BitVec 4).toNat ∧
      hasTerminator (small 1 1 [0x00]).reader.sbRem.toNat
        ((small 1 1 [0x00]).stream.drop (small 1 1 [0x00]).pos.toNat) = true) ∧
    ((unreadBits (small 1 1 [0x01, 0xEF, 0x00])).length < (9 : BitVec 4).toNat ∧
      hasTerminator (small 1 1 [0x01, 0xEF, 0x00]).reader.sbRem.toNat
        ((small 1 1 [0x01, 0xEF, 0x00]).stream.drop (small 1 1 [0x01, 0xEF, 0x00]).pos.toNat) = true) := by decide

/-- GetKeyMeetsStreamEnd: data without a terminator. -/
theorem test_witness_GetKeyMeetsStreamEnd :
    streamWf (small 1 1 [0x02, 0x56]).stream = true ∧ (unreadBits (small 1 1 [0x02, 0x56])).length < (9 : BitVec 4).toNat ∧
      hasTerminator (small 1 1 [0x02, 0x56]).reader.sbRem.toNat
        ((small 1 1 [0x02, 0x56]).stream.drop (small 1 1 [0x02, 0x56]).pos.toNat) = false := by decide

/-- GetKeyRefusesWidth: the widths next to the range. -/
theorem test_witness_GetKeyRefusesWidth : (1 : BitVec 4).toNat < 2 ∧ 12 < (13 : BitVec 4).toNat := by decide

/-- RectOutsideCanvasRefused: one column and one row too many, and a sum that passes 2^16. -/
theorem test_witness_RectOutsideCanvasRefused :
    ((ready 5 1 []).canvasW.toNat < (ready 5 1 []).rect.fx.toNat + (ready 5 1 []).rect.fw.toNat) ∧
      ((ready 1 5 []).canvasH.toNat < (ready 1 5 []).rect.fy.toNat + (ready 1 5 []).rect.fh.toNat) ∧
      (small 4 4 []).canvasW.toNat < (0xFFFF : BitVec 16).toNat + (1 : BitVec 16).toNat := by decide

/-- CodeSizeByteChecked: no byte, and the bytes next to the range (V-EMPTY, V-BADM-1, V-BADM-9). -/
theorem test_witness_CodeSizeByteChecked :
    (ready 4 2 []).rectFits = true ∧ (ready 4 2 []).stream[(ready 4 2 []).pos.toNat]? = none ∧
      (ready 4 2 [1]).stream[(ready 4 2 [1]).pos.toNat]? = some 1 ∧ (1 : Byte).toNat < 2 ∧
      (ready 4 2 [9]).stream[(ready 4 2 [9]).pos.toNat]? = some 9 ∧ 8 < (9 : Byte).toNat := by decide

/-- The stream of V-NOTERM (95_test_vectors.md section 4.8). -/
def noTerminator : State := ready 4 2 [0x02, 0x02, 0x4C, 0x01]

/-- TruncatedImageRefused. -/
theorem test_witness_TruncatedImageRefused :
    streamWf noTerminator.stream = true ∧ noTerminator.rectFits = true ∧
      noTerminator.stream[noTerminator.pos.toNat]? = some 2 ∧
      hasTerminator 0 (noTerminator.stream.drop (noTerminator.pos.toNat + 1)) = false := by decide

/-- The stream of V-KWKWK (95_test_vectors.md section 4.1). -/
def kwkwk : State := ready 4 2 [0x02, 0x03, 0x8C, 0x2D, 0x05, 0x00]

/-- DecodeAgreesWithStringLzw and DecodeEndsAtImageEnd. -/
theorem test_witness_DecodeAgreesWithStringLzw :
    streamWf kwkwk.stream = true ∧ kwkwk.rectFits = true ∧ kwkwk.stream[kwkwk.pos.toNat]? = some 2 ∧
      hasTerminator 0 (kwkwk.stream.drop (kwkwk.pos.toNat + 1)) = true := by decide

/-- DecodeAgreesWithStringLzw, DecodeLeavesRegisters: the reference by itself gives the pixels of V-KWKWK, its last code 5,
its last string and its NENTRIES 10, with the four bits above the stop code not taken. -/
theorem test_witness_referenceImage :
    referenceImage 2 (([0x8C, 0x2D, 0x05] : List Byte).flatMap byteBits) =
      { status := .ok, pixels := [1, 1, 1, 1, 1, 2], code := some 5, last := some [2], entries := 10, patch := some true,
        rest := [false, false, false, false] } := by
  decide +kernel

/-- DecodeAgreesWithStringLzw: how the reference ends on V-NOCLEAR, V-BADCODE and V-EOD. -/
theorem test_witness_referenceImage_ends :
    (referenceImage 2 (([0x29] : List Byte).flatMap byteBits)).status = .noClearCode ∧
      (referenceImage 2 (([0xC4, 0x01] : List Byte).flatMap byteBits)).status = .badCode ∧
      (referenceImage 2 (([0x44, 0x00] : List Byte).flatMap byteBits)).status = .endOfData := by decide +kernel

/-- DecodeLeavesRegisters: both clauses about the bit reader are met, the first by V-EOD, whose image has a terminator and
ends EndOfData, the second by V-KWKWK. -/
theorem test_witness_DecodeLeavesRegisters :
    (streamWf (ready 4 2 [0x02, 0x02, 0x44, 0x00, 0x00]).stream = true ∧
      (ready 4 2 [0x02, 0x02, 0x44, 0x00, 0x00]).rectFits = true ∧
      hasTerminator 0 ([0x02, 0x44, 0x00, 0x00] : List Byte) = true ∧
      (referenceImage 2 ((payload 0 [0x02, 0x44, 0x00, 0x00]).flatMap byteBits)).status = .endOfData) ∧
    (referenceImage 2 ((payload 0 (kwkwk.stream.drop 1)).flatMap byteBits)).status ≠ .endOfData := by decide +kernel

/-- HostStreamMoves: a seek past the end, a read of the last byte and a read at the end. -/
theorem test_witness_HostStreamMoves :
    (asked (small 1 1 [7]) (.streamSeek 0xFFFFFFFF)).pending = [.streamSeek 0xFFFFFFFF] ∧
      (asked (small 1 1 [7]) .streamRead).pending = [.streamRead] ∧
      (asked (small 1 1 [7]) .streamRead).stream[(asked (small 1 1 [7]) .streamRead).pos.toNat]? = some 7 ∧
      (asked (small 1 1 []) .streamRead).stream.length ≤ (asked (small 1 1 []) .streamRead).pos.toNat := by decide

/-- DecodeFrameCondition: a DECODE that ends, and a pixel outside its rectangle. -/
theorem test_witness_DecodeFrameCondition :
    (∃ t, exec .decode kwkwk = .next t ∧ (t.status == .ok) = true) ∧ 3 < kwkwk.width ∧ 3 < kwkwk.height ∧
      kwkwk.inRect 3 3 = false :=
  ⟨next_of_has (by decide +kernel), by decide, by decide, by decide⟩

/-- CodeAfterErrorFailsItsTest: V-BADCODE and V-NOCLEAR. -/
theorem test_witness_CodeAfterErrorFailsItsTest :
    (∃ t, exec .decode (ready 4 2 [0x02, 0x02, 0xC4, 0x01, 0x00]) = .next t ∧ (t.status == .badCode) = true) ∧
      ∃ t, exec .decode (ready 4 2 [0x02, 0x01, 0x29, 0x00]) = .next t ∧ (t.status == .noClearCode) = true :=
  ⟨next_of_has (by decide +kernel), next_of_has (by decide +kernel)⟩

/-- V-KWKWK at the code stream, after initialisation. -/
def started : State := startDecode 2 (kwkwk.setPos 1)

/-- At the head of the loop for the first time, with the clear code in CODE. -/
def afterClear : State := leftBy (nextCode started) started

/-- At the head of the loop with a data code in CODE. -/
def afterData : State := leftBy (decodeRound 2 afterClear) afterClear

/-- LoopInvariantHolds: the first code is the clear code 4. -/
theorem test_witness_LoopInvariantHolds_entry : ∃ t, nextCode started = .done (BitVec.ofNat 12 (2 ^ 2)) t :=
  done_of_with (by decide +kernel)

/-- LoopInvariantHolds and RoundNeverOverflowsTable: a state with the clear code that meets the invariant, and its round. -/
theorem test_witness_LoopInvariantHolds_clear :
    LoopInvariant 2 afterClear ∧ ∃ t, decodeRound 2 afterClear = .done true t := by
  refine ⟨?_, done_of_with (by decide +kernel)⟩
  unfold LoopInvariant WidthsFit ChainsWellFormed DataCode
  decide +kernel

/-- LoopInvariantHolds and RoundNeverOverflowsTable: a state with a data code that meets the invariant, and its round. -/
theorem test_witness_LoopInvariantHolds_data :
    LoopInvariant 2 afterData ∧ ∃ t, decodeRound 2 afterData = .done true t := by
  refine ⟨?_, done_of_with (by decide +kernel)⟩
  unfold LoopInvariant WidthsFit ChainsWellFormed DataCode
  decide +kernel

/-- The LZW registers with the table almost full or full. -/
def lzwAt (n : BitVec 13) (full : Bool) (code : Code) : State :=
  (small 1 1 []).setLzw { Lzw.reset with nentries := n, full := full, code := code, ks := 12, initKs := 3 }

/-- TableStepCases: a clear code, the last append, an append to a power of two and another, and a frozen table. -/
theorem test_witness_TableStepCases :
    (lzwAt 9 false 4).lzw.code.toNat = 2 ^ 2 ∧
      ((lzwAt 4095 false 0).lzw.code.toNat ≠ 2 ^ 2 ∧ (lzwAt 4095 false 0).lzw.nentries.toNat + 1 = 4096) ∧
      (lzwAt 7 false 0).lzw.nentries.toNat + 1 = 2 ^ 3 ∧ (lzwAt 8 false 0).lzw.nentries.toNat < 4096 ∧
      ((lzwAt 4096 true 0).lzw.full = true ∧ (lzwAt 4096 true 0).lzw.code.toNat ≠ 2 ^ 2) := by decide

/-- TableStepCases: nine is no power of two. -/
theorem test_witness_TableStepCases_other : ¬ ∃ k, (lzwAt 8 false 0).lzw.nentries.toNat + 1 = 2 ^ k := by
  rintro ⟨k, h⟩
  have e : (9 : Nat) = 2 ^ k := h
  have h3 : k < 4 := (Nat.pow_lt_pow_iff_right (a := 2) (by decide)).mp (by omega)
  interval_cases k <;> omega

/-- GrowthFollowsCheckedCode: a code at NENTRIES, and one below it with a growth signalled. -/
theorem test_witness_GrowthFollowsCheckedCode :
    ((lzwAt 7 false 7).lzw.nentries.toNat ≤ (lzwAt 7 false 7).lzw.code.toNat) ∧
      ((afterData.setLzw { afterData.lzw with grow := true }).lzw.code.toNat <
          (afterData.setLzw { afterData.lzw with grow := true }).lzw.nentries.toNat ∧
        (afterData.setLzw { afterData.lzw with grow := true }).lzw.ks.toNat < 12) ∧
      ∃ t, dataCode (afterData.setLzw { afterData.lzw with grow := true }) = .done () t :=
  ⟨by decide, by decide +kernel, done_of_with (by decide +kernel)⟩

/-- GrowthFollowsCheckedCode: width 12 with no growth signalled. -/
theorem test_witness_GrowthFollowsCheckedCode_widest :
    ((afterData.setLzw { afterData.lzw with ks := 12 }).lzw.grow = true →
        (afterData.setLzw { afterData.lzw with ks := 12 }).lzw.ks.toNat < 12) ∧
      ∃ t, dataCode (afterData.setLzw { afterData.lzw with ks := 12 }) = .done () t :=
  ⟨by decide +kernel, done_of_with (by decide +kernel)⟩

/-- FixUpWritesLastSuffix: both values of PATCH_EN. -/
theorem test_witness_FixUpWritesLastSuffix :
    ((lzwAt 7 false 7).setLzw { (lzwAt 7 false 7).lzw with patchEn := true }).lzw.patchEn = true ∧
      (lzwAt 7 false 7).lzw.patchEn = false := by decide

/-- PutPixelPlacement: the last pixel of the rectangle and the first past it, interlaced or not. -/
theorem test_witness_PutPixelPlacement :
    kwkwk.rectFits = true ∧ 7 < kwkwk.rect.fw.toNat * kwkwk.rect.fh.toNat ∧
      kwkwk.rect.fw.toNat * kwkwk.rect.fh.toNat ≤ 8 ∧
      (kwkwk.setCtrl { interlace := true, lpalSel := false }).rectFits = true := by decide

/-- OffsetSaturates: an offset that has saturated. -/
theorem test_witness_OffsetSaturates :
    ((small 1 1 []).setLzw { Lzw.reset with off := 0xFFFFFFFF }).lzw.off.toNat = 2 ^ 32 - 1 := by decide

/-- DisposeToBackgroundFills, and a pixel inside and one outside the rectangle. -/
theorem test_witness_DisposeToBackgroundFills :
    background.rectFits = true ∧ background.gce.disposal = 2 ∧ background.inRect 2 0 = true ∧
      background.inRect 3 0 = false ∧ 3 < background.width ∧ 0 < background.height ∧ background.cells ≤ 4 := by decide

/-- DisposeToPreviousKeepsCanvas. -/
theorem test_witness_DisposeToPreviousKeepsCanvas :
    (drawn.setGce { drawn.gce with disposal := 3 }).rectFits = true ∧
      (drawn.setGce { drawn.gce with disposal := 3 }).gce.disposal = 3 := by decide

/-- DisposeRenderOverDraws, EveryCommandEnds: every cell of the rectangle holds a FRAME value. -/
theorem test_witness_DisposeRenderOverDraws :
    drawn.rectFits = true ∧ drawn.gce.disposal ≠ 2 ∧ drawn.gce.disposal ≠ 3 ∧
      ∀ x y, drawn.inRect x y = true → drawn.frameAt (drawn.cellIndex x y) ≠ none := by
  refine ⟨by decide, by decide, by decide, fun x y h => ?_⟩
  have hx : x < 4 ∧ y < 1 := by
    simp only [State.inRect, Bool.and_eq_true, decide_eq_true_eq] at h
    exact ⟨by have := h.1.2; simpa [drawn] using this, by have := h.2.2; simpa [drawn] using this⟩
  obtain ⟨hx, hy⟩ := hx
  interval_cases y
  interval_cases x <;> decide

/-- DisposeRenderOverDraws: a drawn pixel, a transparent one, and a pixel outside a smaller rectangle. -/
theorem test_witness_DisposeRenderOverDraws_clauses :
    (drawn.inRect 3 0 = true ∧ drawn.frameAt (drawn.cellIndex 3 0) = some 1) ∧
      (drawn.inRect 2 0 = true ∧ drawn.frameAt (drawn.cellIndex 2 0) = some 3 ∧ drawn.gce.transp = true ∧
        (3 : Byte) = drawn.gce.tindex) ∧
      (drawn.setRect background.rect).inRect 3 0 = false := by decide

/-- DisposeOfUnwrittenFrameFaults: before any INIT. -/
theorem test_witness_DisposeOfUnwrittenFrameFaults :
    ({ drawn with frame := [] } : State).rectFits = true ∧ drawn.gce.disposal ≠ 2 ∧ drawn.gce.disposal ≠ 3 ∧
      ({ drawn with frame := [] } : State).inRect 3 0 = true ∧
      ({ drawn with frame := [] } : State).frameAt (drawn.cellIndex 3 0) = none := by decide

/-- DisposeTwiceIsOnce, EachStateHasItsWriters. -/
theorem test_witness_DisposeTwiceIsOnce : ∃ t, exec .dispose drawn = .next t := ⟨_, rfl⟩

/-- ViewIsFrameDrawnOver: a frame of disposal 2, drawn by the default branch. -/
theorem test_witness_ViewIsFrameDrawnOver :
    background.rectFits = true ∧ 3 < background.width ∧ 0 < background.height ∧
      ∃ t, exec .dispose (background.setGce { background.gce with disposal := 0 }) = .next t :=
  ⟨by decide, by decide, by decide, ⟨_, rfl⟩⟩

/-- ViewWithoutFrameIsCanvas: a rectangle outside the canvas, and the state after INIT. -/
theorem test_witness_ViewWithoutFrameIsCanvas :
    (drawn.setRect { fx := 3, fy := 0, fw := 2, fh := 1 }).rectFits = false ∧ 3 < drawn.width ∧ 0 < drawn.height ∧
      ∃ t, exec .init drawn = .next t :=
  ⟨by decide, by decide, by decide, ⟨_, rfl⟩⟩

/-- EveryCommandEnds: a state with a legal stream, for every command but DISPOSE. -/
theorem test_witness_EveryCommandEnds : streamWf drawn.stream = true ∧ Instr.decode ≠ .dispose := by decide

/-- DelayIsNeverRead. -/
theorem test_witness_DelayIsNeverRead : Instr.dispose ≠ .init ∧ Instr.decode ≠ .init := by decide

/-- StepKeepsLegalState: a legal state with memory in it, and its step. -/
theorem test_witness_StepKeepsLegalState :
    LegalState (asked drawn (.writeReg 0 0x00000004)) ∧ ∃ t, step (asked drawn (.writeReg 0 0x00000004)) = .next t := by
  refine ⟨?_, ⟨_, rfl⟩⟩
  unfold LegalState ParamsLegal MemoriesCanonical LzwLegal
  decide

/-- ResetIsLegal: the smallest and the largest canvas. -/
theorem test_witness_ResetIsLegal :
    canvasWf 1 1 = true ∧ canvasWf 0xFFFF 0xFFFF = true ∧ streamWf [0x00] = true := by decide

/-- WrittenBuffersNeverFault: a legal state whose cells are all written, about to DISPOSE and about to be viewed. -/
theorem test_witness_WrittenBuffersNeverFault :
    LegalState (asked drawn (.view 3 0)) ∧ AllWritten (asked drawn (.view 3 0)) ∧
      InRange (asked drawn (.view 3 0)) (.view 3 0) ∧ Interaction.view 3 0 ≠ .hardReset := by
  refine ⟨?_, ?_, ?_, by decide⟩
  · unfold LegalState ParamsLegal MemoriesCanonical LzwLegal; decide
  · intro i hi
    have h : i < 4 := hi
    interval_cases i <;> decide
  · exact ⟨by decide, by decide⟩

end Sys2Proof.Tests
end

/-! PROOF. Legal states (00_scope.md R8, 10_state.md R15, 20_memory.md R37, 41_lzw.md R99): which updates keep them, and
why every command and every step does. -/

section
namespace Sys2Proof.Machine

/-! Cells of the frame rectangle. -/

/-- The interlaced order stays inside the image (41_lzw.md R98). -/
theorem interlacedLine_lt {h y : Nat} (hy : y < h) : interlacedLine h y < h := by
  unfold interlacedLine
  dsimp only
  split
  · omega
  · split
    · omega
    · split <;> omega

theorem State.displayRow_lt {s : State} {y : Nat} (hy : y < s.rect.fh.toNat) : s.displayRow y < s.rect.fh.toNat := by
  unfold State.displayRow
  split
  · exact interlacedLine_lt hy
  · exact hy

/-- A pixel of a rectangle that fits goes to a cell of the canvas (41_lzw.md R97). -/
theorem State.pixelCell_lt {s : State} (hf : s.rectFits = true) {p : Nat}
    (hp : p < s.rect.fw.toNat * s.rect.fh.toNat) : s.pixelCell p < s.cells := by
  obtain ⟨hx, hy⟩ := s.rectFits_iff.mp hf
  have hcol : p % s.rect.fw.toNat < s.rect.fw.toNat := Nat.mod_lt _ (Nat.pos_of_mul_pos_right (Nat.zero_lt_of_lt hp))
  have hrow := s.displayRow_lt (Nat.div_lt_of_lt_mul hp)
  exact State.cellIndex_lt (by omega) (by omega)

/-! What the parts of a data code keep. -/

/-- A property that PutPixel keeps holds after a walk down a chain (41_lzw.md R91). -/
theorem walkChain_leaves {P : State → Prop} (hput : ∀ p v s, P s → P (putPixel p v s)) (fuel e : Nat) {s : State}
    (h : P s) : (walkChain fuel e s).Leaves P := by
  induction fuel generalizing e s with
  | zero => trivial
  | succ fuel ih =>
    unfold walkChain
    dsimp only
    split
    · exact hput _ _ _ h
    · exact ih _ (hput _ _ _ h)

@[simp] theorem putPixel_lzw (p : Nat) (v : Byte) (s : State) : (putPixel p v s).lzw = s.lzw := by
  rw [Safety.putPixel_frameOnly, State.setFrame_lzw]

@[simp] theorem fixUp_lzw (s : State) : (fixUp s).lzw = s.lzw := by
  rw [Safety.fixUp_tableOnly, State.setTable_lzw]

@[simp] theorem Lzw.appended_initKs (l : Lzw) : l.appended.initKs = l.initKs := by
  unfold Lzw.appended
  split
  · rfl
  · split <;> rfl

@[simp] theorem Lzw.applyGrowth_initKs (l : Lzw) : l.applyGrowth.initKs = l.initKs := by
  unfold Lzw.applyGrowth
  split <;> rfl

@[simp] theorem Lzw.applyGrowth_grow (l : Lzw) : l.applyGrowth.grow = false := by
  unfold Lzw.applyGrowth
  split
  next => rfl
  next h => simpa using h

/-- Resolving a code leaves GROW alone (41_lzw.md R91). -/
theorem resolveCode_grow (s : State) : (resolveCode s).Leaves fun t => t.lzw.grow = s.lzw.grow :=
  (walkChain_leaves (P := fun t => t.lzw.grow = s.lzw.grow) (fun p v t h => by rwa [putPixel_lzw]) _ _ rfl).andThen
    (fun _ _ _ h => h) fun _ _ _ h => h

/-- After a data code no growth is pending (41_lzw.md R90). -/
theorem dataCode_grow {s t : State} (h : dataCode s = .done () t) : t.lzw.grow = false := by
  unfold dataCode at h
  split at h
  · cases h
  · obtain ⟨_, u, hu, hdone⟩ := Res.andThen_eq_done h
    cases hdone
    have hgrow := resolveCode_grow (s.setLzw s.lzw.applyGrowth)
    rw [hu, Res.leaves_done, State.setLzw_lzw, Lzw.applyGrowth_grow] at hgrow
    rwa [fixUp_lzw]

theorem DecodeOnly.rectFits {s t : State} (h : DecodeOnly s t) (hf : s.rectFits = true) : t.rectFits = true := by
  rw [h]; exact hf

theorem DecodeOnly.paramsLegal {s t : State} (h : DecodeOnly s t) (hp : Safety.ParamsLegal s) : Safety.ParamsLegal t := by
  rw [h]; exact hp

end Sys2Proof.Machine

namespace Sys2Proof.Safety

open Sys2Proof.Machine

/-! The widths of the LZW registers. -/

/-- Registers whose flags and width agree are legal ones. -/
theorem WidthsFit.legal {l : Lzw} (h : WidthsFit l) : LzwLegal l := by
  cases hf : l.full with
  | true =>
    obtain ⟨hn, hks, hg⟩ := h.1 hf
    exact ⟨hn.le, by simp [hf, hn], hks.le, by simp [hg]⟩
  | false =>
    obtain ⟨hn, hks, hg, -⟩ := h.2 hf
    refine ⟨hn.le, by simp [hf, hn.ne], hks, fun hgrow => ?_⟩
    have hlt : 2 ^ l.ks.toNat < 2 ^ Config.maxKey := hg hgrow ▸ hn
    exact (Nat.pow_lt_pow_iff_right (by decide)).mp hlt

theorem lzwLegal_reset : LzwLegal Lzw.reset := by unfold LzwLegal; decide

/-- The registers as a clear leaves them (41_lzw.md R82, R84). -/
theorem widthsFit_of_firstFree {m : Nat} (h1 : 2 ≤ m) (h2 : m ≤ 8) {l : Lzw} (hks : l.ks.toNat = m + 1)
    (hn : l.nentries = firstFree m) (hf : l.full = false) (hg : l.grow = false) : WidthsFit l := by
  obtain ⟨-, hle, hlt⟩ := clearCode_bounds h1 h2
  have hcap : Config.tableCap = 4096 := rfl
  have hkey : Config.maxKey = 12 := rfl
  have hpow : 2 ^ m ≤ clearCode m + 2 := Nat.le_add_right _ 2
  refine ⟨by simp [hf], fun _ => ⟨?_, ?_, by simp [hg], fun _ => ?_⟩⟩
  · rw [hn, firstFree_toNat h1 h2]; omega
  · omega
  · rw [hn, firstFree_toNat h1 h2, hks]
    exact ⟨hpow, hlt⟩

theorem start_initKs {m : Nat} (h2 : m ≤ 8) (l : Lzw) : (l.start m).initKs.toNat = m + 1 := by
  show (BitVec.ofNat 4 (m + 1)).toNat = m + 1
  rw [BitVec.toNat_ofNat]
  omega

theorem widthsFit_start {m : Nat} (h1 : 2 ≤ m) (h2 : m ≤ 8) (l : Lzw) : WidthsFit (l.start m) :=
  widthsFit_of_firstFree h1 h2 (start_initKs h2 l) rfl rfl rfl

theorem widthsFit_clear {m : Nat} (h1 : 2 ≤ m) (h2 : m ≤ 8) {l : Lzw} (h : l.initKs.toNat = m + 1) :
    WidthsFit (l.clear m) :=
  widthsFit_of_firstFree h1 h2 h rfl rfl rfl

/-- The power of two next above `n` is the only one `n + 1` can be. -/
theorem eq_of_succ_eq_two_pow {n w k : Nat} (hlo : 2 ^ (w - 1) ≤ n) (hhi : n < 2 ^ w) (hk : n + 1 = 2 ^ k) : k = w := by
  have hle : k ≤ w := (Nat.pow_le_pow_iff_right (a := 2) (by decide)).mp (by omega)
  have hlt : w - 1 < k := (Nat.pow_lt_pow_iff_right (a := 2) (by decide)).mp (by omega)
  omega

/-- An append with no growth pending: NENTRIES meets the width's bound only with GROW or FULL (41_lzw.md R85, R86). -/
theorem widthsFit_appended {l : Lzw} (h : WidthsFit l) (hf : l.full = false) (hg : l.grow = false) :
    WidthsFit l.appended := by
  obtain ⟨hn, hks, -, hrange⟩ := h.2 hf
  obtain ⟨hlo, hhi⟩ := hrange hg
  have hcap : Config.tableCap = 4096 := rfl
  have hnum : (BitVec.ofNat 13 (l.nentries.toNat + 1)).toNat = l.nentries.toNat + 1 := by
    rw [BitVec.toNat_ofNat]; omega
  unfold Lzw.appended
  split
  next hfull =>
    have hw : 12 = l.ks.toNat := eq_of_succ_eq_two_pow hlo hhi hfull
    exact ⟨fun _ => ⟨hnum.trans hfull, hw.symm, rfl⟩, nofun⟩
  next hfull =>
    split
    next hpow =>
      obtain ⟨k, hk⟩ := (isPow2_iff _).mp hpow
      have hw := eq_of_succ_eq_two_pow hlo hhi hk
      refine ⟨by simp [hf], fun _ => ⟨?_, hks, fun _ => ?_, nofun⟩⟩
      · show (BitVec.ofNat 13 _).toNat < _
        omega
      · rw [hnum, hk, hw]
    next hpow =>
      have hne : l.nentries.toNat + 1 ≠ 2 ^ l.ks.toNat := fun e => hpow ((isPow2_iff _).mpr ⟨_, e⟩)
      refine ⟨by simp [hf], fun _ => ⟨?_, hks, by simp [hg], fun _ => ?_⟩⟩
      · show (BitVec.ofNat 13 _).toNat < _
        omega
      · show 2 ^ (l.ks.toNat - 1) ≤ (BitVec.ofNat 13 _).toNat ∧ (BitVec.ofNat 13 _).toNat < 2 ^ l.ks.toNat
        omega

/-- A pending growth is applied (41_lzw.md R90). -/
theorem widthsFit_applyGrowth {l : Lzw} (h : WidthsFit l) : WidthsFit l.applyGrowth := by
  unfold Lzw.applyGrowth
  split
  next hgrow =>
    have hf : l.full = false := by
      by_contra hne
      obtain ⟨-, -, hg⟩ := h.1 (by simpa using hne)
      simp [hg] at hgrow
    obtain ⟨hn, -, hpow, -⟩ := h.2 hf
    obtain ⟨-, -, -, hks⟩ := h.legal
    have hks : l.ks.toNat < 12 := hks hgrow
    have hnum : (l.ks + 1).toNat = l.ks.toNat + 1 := by
      rw [BitVec.toNat_add, show (1 : BitVec 4).toNat = 1 from rfl]; omega
    refine ⟨by simp [hf], fun _ => ⟨hn, ?_, nofun, fun _ => ?_⟩⟩
    · show (l.ks + 1).toNat ≤ 12
      omega
    · rw [hnum, hpow hgrow]
      exact ⟨le_rfl, Nat.pow_lt_pow_right (by decide) (by omega)⟩
  next => exact h

/-! The memories. -/

theorem MemoriesCanonical.writeEntry {s : State} (h : MemoriesCanonical s) {i : Nat} (hi : i < Config.tableCap)
    (e : Entry) : MemoriesCanonical (s.writeEntry i e) := by
  obtain ⟨htable, hrest⟩ := h
  exact ⟨Memory.wf_write _ htable hi e, hrest⟩

theorem MemoriesCanonical.writeFrame {s : State} (h : MemoriesCanonical s) {i : Nat} (hi : i < s.cells) (v : Byte) :
    MemoriesCanonical (s.writeFrame i v) := by
  obtain ⟨htable, hgpal, hlpal, hframe, hcanvas⟩ := h
  exact ⟨htable, hgpal, hlpal, Memory.wf_write _ hframe hi v, hcanvas⟩

theorem MemoriesCanonical.writeGpal {s : State} (h : MemoriesCanonical s) (i : Byte) (c : Color) :
    MemoriesCanonical (s.writeGpal i c) := by
  obtain ⟨htable, hgpal, hrest⟩ := h
  exact ⟨htable, Memory.wf_write _ hgpal i.isLt c, hrest⟩

theorem MemoriesCanonical.writeLpal {s : State} (h : MemoriesCanonical s) (i : Byte) (c : Color) :
    MemoriesCanonical (s.writeLpal i c) := by
  obtain ⟨htable, hgpal, hlpal, hrest⟩ := h
  exact ⟨htable, hgpal, Memory.wf_write _ hlpal i.isLt c, hrest⟩

theorem MemoriesCanonical.setFrame {s : State} (h : MemoriesCanonical s) {f : Memory Byte}
    (hf : Memory.wf frameUnlisted s.cells f) : MemoriesCanonical (s.setFrame f) := by
  obtain ⟨htable, hgpal, hlpal, -, hcanvas⟩ := h
  exact ⟨htable, hgpal, hlpal, hf, hcanvas⟩

theorem MemoriesCanonical.setCanvas {s : State} (h : MemoriesCanonical s) {c : Memory Color}
    (hc : Memory.wf canvasUnlisted s.cells c) : MemoriesCanonical (s.setCanvas c) := by
  obtain ⟨htable, hgpal, hlpal, hframe, -⟩ := h
  exact ⟨htable, hgpal, hlpal, hframe, hc⟩

/-- PutPixel into a rectangle that fits writes a cell of FRAME or nothing (41_lzw.md R97). -/
theorem MemoriesCanonical.putPixel {s : State} (h : MemoriesCanonical s) (hf : s.rectFits = true) (p : Nat) (v : Byte) :
    MemoriesCanonical (putPixel p v s) := by
  unfold Machine.putPixel
  split
  next => exact h
  next hp => exact h.writeFrame (State.pixelCell_lt hf (Nat.not_le.mp hp)) v

theorem MemoriesCanonical.writeLiterals {s : State} (h : MemoriesCanonical s) {n : Nat} (hn : n ≤ Config.tableCap) :
    MemoriesCanonical (writeLiterals n s) := by
  induction n with
  | zero => exact h
  | succ n ih => exact (ih (Nat.le_of_succ_le hn)).writeEntry hn _

/-! Legal states. -/

section
variable {s t : State}

theorem LegalState.readerOnly (h : LegalState s) (hro : ReaderOnly s t) : LegalState t := by
  rw [hro]; exact h

theorem LegalState.posOnly (h : LegalState s) (hpo : PosOnly s t) : LegalState t := h.readerOnly hpo.readerOnly

theorem LegalState.setCanvas (h : LegalState s) {c : Memory Color} (hc : Memory.wf canvasUnlisted s.cells c) :
    LegalState (s.setCanvas c) := by
  obtain ⟨hparams, hmem, hlzw⟩ := h
  exact ⟨hparams, hmem.setCanvas hc, hlzw⟩

theorem LegalState.setFrame (h : LegalState s) {f : Memory Byte} (hf : Memory.wf frameUnlisted s.cells f) :
    LegalState (s.setFrame f) := by
  obtain ⟨hparams, hmem, hlzw⟩ := h
  exact ⟨hparams, hmem.setFrame hf, hlzw⟩

theorem LegalState.writeReg (h : LegalState s) (r : Reg) (v : Word) : LegalState (s.writeReg r v) := by
  rw [State.writeReg_frame]; exact h

theorem legalState_resetFor {w h : BitVec 16} {bytes : List Byte} (hc : canvasWf w h = true)
    (hs : streamWf bytes = true) : LegalState (State.resetFor w h bytes) :=
  ⟨⟨hc, hs⟩, ⟨Memory.wf_nil _ _, Memory.wf_nil _ _, Memory.wf_nil _ _, Memory.wf_nil _ _, Memory.wf_nil _ _⟩,
    lzwLegal_reset⟩

theorem LegalState.hardReset (h : LegalState s) : LegalState s.hardReset := by
  obtain ⟨⟨hcanvas, hstream⟩, -, -⟩ := h
  exact (legalState_resetFor hcanvas hstream : LegalState (State.resetFor s.canvasW s.canvasH s.stream))

end

/-! The parts of DECODE. -/

/-- What every part of DECODE keeps between initialisation and the end of the image, for code size `m`: a legal state
whose rectangle fits, with FULL, GROW, KS and NENTRIES that fit together (41_lzw.md R99 points 1 and 2). -/
structure DecodeLegal (m : Nat) (s : State) : Prop where
  sizeLow : 2 ≤ m
  sizeHigh : m ≤ 8
  fits : s.rectFits = true
  params : ParamsLegal s
  memories : MemoriesCanonical s
  initKs : s.lzw.initKs.toNat = m + 1
  widths : WidthsFit s.lzw

/-- The table step has a clear code or no growth pending: what holds at the head of a round (41_lzw.md R99). -/
def RoundReady (m : Nat) (s : State) : Prop := s.lzw.code.toNat = clearCode m ∨ s.lzw.grow = false

namespace DecodeLegal

variable {m : Nat} {s t : State}

theorem legal (h : DecodeLegal m s) : LegalState s := ⟨h.params, h.memories, h.widths.legal⟩

theorem nentries_le (h : DecodeLegal m s) : s.lzw.nentries.toNat ≤ 4096 := h.widths.legal.1

theorem readerOnly (h : DecodeLegal m s) (hro : ReaderOnly s t) : DecodeLegal m t := by
  rw [hro]
  exact ⟨h.sizeLow, h.sizeHigh, h.fits, h.params, h.memories, h.initKs, h.widths⟩

theorem setLzw (h : DecodeLegal m s) {l : Lzw} (hi : l.initKs = s.lzw.initKs) (hw : WidthsFit l) :
    DecodeLegal m (s.setLzw l) :=
  ⟨h.sizeLow, h.sizeHigh, h.fits, h.params, h.memories, (congrArg BitVec.toNat hi).trans h.initKs, hw⟩

theorem writeEntry (h : DecodeLegal m s) {i : Nat} (hi : i < 4096) (e : Entry) : DecodeLegal m (s.writeEntry i e) :=
  ⟨h.sizeLow, h.sizeHigh, h.fits, h.params, h.memories.writeEntry hi e, h.initKs, h.widths⟩

theorem putPixel (h : DecodeLegal m s) (p : Nat) (v : Byte) : DecodeLegal m (putPixel p v s) := by
  have hmem := h.memories.putPixel h.fits p v
  rw [putPixel_frameOnly] at hmem ⊢
  exact ⟨h.sizeLow, h.sizeHigh, h.fits, h.params, hmem, h.initKs, h.widths⟩

theorem fixUp (h : DecodeLegal m s) : DecodeLegal m (fixUp s) := by
  have hn := h.nentries_le
  unfold Machine.fixUp
  split
  · exact h.writeEntry (by omega) _
  · exact h

/-- Initialisation (41_lzw.md R82). -/
theorem startDecode (h : LegalState s) (hf : s.rectFits = true) (h1 : 2 ≤ m) (h2 : m ≤ 8) :
    DecodeLegal m (startDecode m s) := by
  obtain ⟨hparams, hmem, -⟩ := h
  obtain ⟨-, hle, -⟩ := clearCode_bounds h1 h2
  have hd := startDecode_decodeOnly m s
  exact ⟨h1, h2, hd.rectFits hf, hd.paramsLegal hparams, hmem.writeLiterals (hle.trans (by decide)),
    start_initKs h2 _, widthsFit_start h1 h2 _⟩

/-- The table step (41_lzw.md R84 to R87). -/
theorem tableStep (h : DecodeLegal m s) (hr : RoundReady m s) : (tableStep m s).Leaves (DecodeLegal m) := by
  have hn := h.nentries_le
  unfold Machine.tableStep
  split
  next => exact h.setLzw rfl (widthsFit_clear h.sizeLow h.sizeHigh h.initKs)
  next hclear =>
    split
    next => exact h.setLzw rfl h.widths
    next hfull =>
      split
      next => exact h
      next hcap =>
        have hcap : s.lzw.nentries.toNat ≠ 4096 := hcap
        have hw := widthsFit_appended h.widths (by simpa using hfull) (hr.resolve_left hclear)
        exact (h.writeEntry (by omega) _).setLzw (Lzw.appended_initKs _) hw

/-- The read of a code (41_lzw.md R88). -/
theorem nextCode (h : DecodeLegal m s) : (nextCode s).Leaves (DecodeLegal m) :=
  (getKey_readerOnly _ s).andThen (fun _ _ _ hro => h.readerOnly hro) fun _ _ _ hro =>
    (h.readerOnly hro).setLzw rfl (h.readerOnly hro).widths

/-- Resolving a code (41_lzw.md R91). -/
theorem resolveCode (h : DecodeLegal m s) : (resolveCode s).Leaves (DecodeLegal m) :=
  (walkChain_leaves (fun p v _ h => h.putPixel p v) _ _ h).andThen (fun _ _ _ h => h) fun _ _ _ h =>
    h.setLzw rfl h.widths

/-- A data code (41_lzw.md R89 to R92). -/
theorem dataCode (h : DecodeLegal m s) : (dataCode s).Leaves (DecodeLegal m) := by
  unfold Machine.dataCode
  split
  · exact h
  · have hgrown := h.setLzw (Lzw.applyGrowth_initKs _) (widthsFit_applyGrowth h.widths)
    exact hgrown.resolveCode.andThen (fun _ _ _ h => h) fun _ _ _ h => h.fixUp

/-- One round keeps the state legal (41_lzw.md R84 to R92). -/
theorem decodeRound (h : DecodeLegal m s) (hr : RoundReady m s) : (decodeRound m s).Leaves (DecodeLegal m) :=
  (h.tableStep hr).andThen (fun _ _ _ h => h) fun _ _ _ h => h.nextCode.andThen (fun _ _ _ h => h) fun _ _ _ h => by
    split
    · exact h
    · split
      · exact h
      · exact h.dataCode.andThen (fun _ _ _ h => h) fun _ _ _ h => h

end DecodeLegal

/-- A code that has been read stands in CODE (41_lzw.md R88). -/
theorem nextCode_code {k : Code} {s t : State} (h : nextCode s = .done k t) : t.lzw.code = k := by
  obtain ⟨_, _, -, hdone⟩ := Res.andThen_eq_done h
  cases hdone
  rfl

/-- A round that goes on has read a clear code or applied what growth there was (41_lzw.md R84, R90). -/
theorem decodeRound_ready {m : Nat} {s t : State} (h : decodeRound m s = .done true t) : RoundReady m t := by
  obtain ⟨_, u, -, hnext⟩ := Res.andThen_eq_done h
  obtain ⟨k, v, hcode, hrest⟩ := Res.andThen_eq_done hnext
  split at hrest
  next hclear =>
    cases hrest
    exact .inl (by rw [nextCode_code hcode, hclear])
  next =>
    split at hrest
    next => cases hrest
    next =>
      obtain ⟨_, w, hdata, hdone⟩ := Res.andThen_eq_done hrest
      cases hdone
      exact .inr (dataCode_grow hdata)

namespace DecodeLegal

variable {m : Nat} {s : State}

theorem decodeLoop (fuel : Nat) (h : DecodeLegal m s) (hr : RoundReady m s) :
    (decodeLoop m fuel s).Leaves (DecodeLegal m) := by
  induction fuel generalizing s with
  | zero => trivial
  | succ fuel ih =>
    refine (h.decodeRound hr).andThen (fun _ _ _ h => h) fun goOn t hround h => ?_
    cases goOn with
    | false => exact h
    | true => exact ih h (decodeRound_ready hround)

theorem decodeCodes (h : DecodeLegal m s) : (decodeCodes m s).Leaves (DecodeLegal m) :=
  h.nextCode.andThen (fun _ _ _ h => h) fun k t hcode h => by
    split
    next hclear => exact h.decodeLoop _ (.inl (by rw [nextCode_code hcode, hclear]))
    next => exact h

end DecodeLegal

/-! The commands. -/

section
variable {s : State}

/-- Initialisation, the codes and the byte after stop (41_lzw.md R82, R83, R94). -/
theorem decodeImage_legal {m : Nat} (h : LegalState s) (hf : s.rectFits = true) (h1 : 2 ≤ m) (h2 : m ≤ 8) :
    (decodeImage m s).Leaves LegalState :=
  (DecodeLegal.startDecode h hf h1 h2).decodeCodes.andThen (fun _ _ _ h => h.legal) fun _ t _ h =>
    (streamRead8_posOnly t).andThen (fun _ _ _ hpo => h.legal.posOnly hpo) fun _ _ _ hpo => h.legal.posOnly hpo

/-- The code-size byte DECODE goes on with is in 2..8 (41_lzw.md R80). -/
theorem readCodeSize_range {m : Nat} {t : State} (h : readCodeSize s = .done m t) : 2 ≤ m ∧ m ≤ 8 := by
  obtain ⟨b, u, -, hdone⟩ := Res.andThen_eq_done h
  split at hdone
  next => cases hdone
  next hrange =>
    cases hdone
    simp only [Bool.or_eq_true, decide_eq_true_eq, not_or, Nat.not_lt] at hrange
    exact hrange

theorem decodeCommand_legal (h : LegalState s) : (decodeCommand s).Leaves LegalState := by
  unfold decodeCommand
  split
  next hf =>
    refine (readCodeSize_posOnly s).andThen (fun _ _ _ hpo => h.posOnly hpo) fun m t hm hpo => ?_
    obtain ⟨h1, h2⟩ := readCodeSize_range hm
    refine (skipSubBlocks_posOnly t).andThen (fun _ _ _ hpo' => h.posOnly (hpo.trans hpo')) fun _ u _ hpo' => ?_
    have hstart : PosOnly s (streamSeek (streamPos t) u) := (hpo.trans hpo').setPos _
    have hfits : (streamSeek (streamPos t) u).rectFits = true := by rw [hstart]; exact hf
    exact seekAtEnd_leaves (decodeImage_legal (h.posOnly hstart) hfits h1 h2) fun v hv =>
      hv.posOnly ((PosOnly.refl v).setPos _)
  next => exact h

/-- INIT fills both buffers (42_compositor.md R103). -/
theorem initState_legal (h : LegalState s) : LegalState (initState s) :=
  (h.setFrame (Memory.wf_filled s.cells s.bg)).setCanvas (Memory.wf_filled s.cells (s.gpalAt s.bg))

theorem palWriteState_legal (h : LegalState s) (sel : PalSel) (index : Byte) (color : Color) :
    LegalState (palWriteState sel index color s) := by
  obtain ⟨hparams, hmem, hlzw⟩ := h
  cases sel with
  | gpal => exact ⟨hparams, hmem.writeGpal index color, hlzw⟩
  | lpal => exact ⟨hparams, hmem.writeLpal index color, hlzw⟩

/-- DISPOSE draws cells of a rectangle that fits (42_compositor.md R105 to R108). -/
theorem disposeCommand_legal (h : LegalState s) : (disposeCommand s).Leaves LegalState := by
  have ⟨_, ⟨_, _, _, _, hcanvas⟩, _⟩ := h
  rcases disposeCommand_cases s with ⟨-, e⟩ | ⟨hf, -, e⟩ | ⟨-, -, e⟩ | ⟨hf, -, -, e⟩ <;> rw [e]
  · exact h
  · exact h.setCanvas (Memory.wf_fillAt _ _ _ (fun _ hi => State.rectCells_lt hf hi) hcanvas)
  · exact h
  · unfold disposeByDrawing
    split
    next hdraw => exact h.setCanvas (drawCells_wf s _ (fun _ hi => State.rectCells_lt hf hi) hcanvas hdraw)
    next => trivial

theorem getKeyCommand_legal (w : BitVec 4) (h : LegalState s) : (getKeyCommand w s).Leaves LegalState :=
  (getKeyCommand_frame w s).mono fun t ht => by rw [ht]; exact h

/-- Every part of a command leaves a legal state. -/
theorem commandPart_legal (i : Instr) (h : LegalState s) : (commandPart i s).Leaves LegalState := by
  cases i with
  | init => exact initState_legal h
  | skip => exact (skipSubBlocks_posOnly s).mono fun _ hpo => h.posOnly hpo
  | decode => exact decodeCommand_legal h
  | dispose => exact disposeCommand_legal h
  | palWrite sel index color => exact palWriteState_legal h sel index color
  | brReset => exact h.readerOnly ((ReaderOnly.refl s).setReader _)
  | getKey w => exact getKeyCommand_legal w h

theorem exec_legal {i : Instr} {t : State} (h : LegalState s) (ht : exec i s = .next t) : LegalState t := by
  rw [exec_eq_endCommand] at ht
  obtain ⟨u, st, hu, rfl⟩ := (commandPart_legal i h).of_next ht
  exact hu

end

/-- Settles O50, by the cases of a step: a command by `commandPart_legal`, where DECODE keeps `DecodeLegal` in every
round; every other interaction leaves the memories and the LZW registers alone, or resets them. -/
theorem stepKeepsLegalState : Obligations.StepKeepsLegalState := by
  intro s t h hstep
  rcases step_cases hstep with ⟨-, rfl⟩ | ⟨a, rest, -, hcase⟩
  · exact h
  · have hp : LegalState (s.setPending rest) := h
    rcases hcase with ⟨_, _, i, u, -, -, -, hu, rfl⟩ | ⟨_, _, _, -, -, -, rfl⟩ | ⟨addr, v, -, -, rfl⟩ | ⟨_, rfl⟩ |
      ⟨_, rfl⟩ | ⟨_, -, rfl⟩ | ⟨-, rfl⟩
    · have hu : LegalState u := exec_legal hp hu
      exact hu
    · exact hp
    · exact hp.writeReg _ v
    · exact hp
    · exact hp
    · exact hp
    · exact hp.hardReset

/-- Settles O51: nothing is listed in any memory and the LZW registers are all 0. -/
theorem resetIsLegal : Obligations.ResetIsLegal :=
  ⟨fun _ _ _ hc hs => legalState_resetFor hc hs, legalState_resetFor (by decide) (by decide)⟩

end Sys2Proof.Safety
end

/-! PROOF. One interaction and one command: what a register write, a hardware reset and each command change
(10_state.md R15 to R36). -/

section
namespace Sys2Proof.Machine

/-! The register port. -/

/-- A register is found at its offset (10_state.md R18, 20_memory.md R38). -/
@[simp] theorem regAt_offset (r : Reg) : regAt r.offset = r := by cases r <;> decide

@[simp] theorem memRead_offset (r : Reg) (s : State) : memRead r.offset s = s.readReg r := by rw [memRead, regAt_offset]

/-- FRAME_CTRL keeps bits 0 and 1 (10_state.md R23). -/
theorem FrameCtrl.toWord_ofWord (v : Word) : (FrameCtrl.ofWord v).toWord = v &&& 0x00000003 := by
  unfold FrameCtrl.toWord FrameCtrl.ofWord
  ext i hi
  simp only [BitVec.getElem_append]
  interval_cases i <;> simp

/-- GCE keeps every bit but 7 to 4 (10_state.md R24). -/
theorem Gce.toWord_ofWord (v : Word) : (Gce.ofWord v).toWord = v &&& 0xFFFFFF0F := by
  unfold Gce.toWord Gce.ofWord
  ext i hi
  simp only [BitVec.getElem_append]
  interval_cases i <;> simp

/-- BG keeps bits 7 to 0 (10_state.md R21). -/
theorem setWidth_low_byte (v : Word) : (v.extractLsb' 0 8).setWidth 32 = v &&& 0x000000FF := by
  ext i hi
  interval_cases i <;> simp

/-- FRAME_POS and FRAME_SIZE keep every bit (10_state.md R22). -/
theorem append_halves (v : Word) : v.extractLsb' 16 16 ++ v.extractLsb' 0 16 = v &&& 0xFFFFFFFF := by
  ext i hi
  simp only [BitVec.getElem_append]
  interval_cases i <;> simp

/-- A read-write register reads back the fields written to it (10_state.md R18, R21 to R24). -/
theorem State.readReg_writeReg_same (s : State) {r : Reg} (h : Safety.writable r = true) (v : Word) :
    (s.writeReg r v).readReg r = v &&& Safety.fieldMask r := by
  cases r with
  | bg => exact setWidth_low_byte v
  | framePos => exact append_halves v
  | frameSize => exact append_halves v
  | frameCtrl => exact FrameCtrl.toWord_ofWord v
  | gce => exact Gce.toWord_ofWord v
  | _ => cases h

/-- A write of a register that is not read-write is ignored (10_state.md R18). -/
theorem State.writeReg_readOnly (s : State) {r : Reg} (h : Safety.writable r = false) (v : Word) :
    s.writeReg r v = s := by
  cases r with
  | bg | framePos | frameSize | frameCtrl | gce => cases h
  | _ => rfl

/-- A register write leaves what every other register reads (10_state.md R18). -/
theorem State.readReg_writeReg_other (s : State) {r r' : Reg} (h : r' ≠ r) (v : Word) :
    (s.writeReg r v).readReg r' = s.readReg r' := by
  cases r with
  | bg => cases r' with | bg => exact absurd rfl h | _ => rfl
  | framePos => cases r' with | framePos => exact absurd rfl h | _ => rfl
  | frameSize => cases r' with | frameSize => exact absurd rfl h | _ => rfl
  | frameCtrl => cases r' with | frameCtrl => exact absurd rfl h | _ => rfl
  | gce => cases r' with | gce => exact absurd rfl h | _ => rfl
  | _ => rfl

/-- Settles O11, from the reads after a register write: of the register written and of any other. -/
theorem registerWriteReadBack : Obligations.RegisterWriteReadBack := by
  intro s addr v hcmd
  obtain ⟨hcmd', -⟩ | ⟨-, hwrite⟩ := memWrite_cases addr v s
  · exact absurd hcmd' hcmd
  refine ⟨_, hwrite, fun r => ?_, s.writeReg_frame _ v⟩
  rw [memRead_offset, memRead_offset]
  split
  next h =>
    obtain ⟨rfl, hw⟩ := h
    exact s.readReg_writeReg_same hw v
  next h =>
    by_cases hr : r = regAt addr
    · rw [s.writeReg_readOnly (by simpa [← hr] using h)]
    · exact s.readReg_writeReg_other hr v

/-! One step. -/

/-- Settles O4: a CMD write performs its word, and both ways a word can go are recorded. -/
theorem stepRunsDecodedCommand : Obligations.StepRunsDecodedCommand := by
  intro s addr w rest hp hcmd
  have hstep : step s = recordStatus (performWord w (s.setPending rest)) := by
    simp only [step, performNext, hp, interact, memWrite, hcmd, commandWrite]
  rw [hstep]
  obtain ⟨i, hd, hw⟩ | ⟨r, hd, hw⟩ := performWord_cases w (s.setPending rest)
  · rw [hw]
    refine ⟨fun i' hi => ?_, fun _ hr => absurd (hd.symm.trans hr) nofun⟩
    obtain rfl : i = i' := Decoded.instr.inj (hd.symm.trans hi)
    cases exec i (s.setPending rest) <;> rfl
  · rw [hw]
    exact ⟨fun _ hi => absurd (hd.symm.trans hi) nofun, fun _ _ => rfl⟩

/-- Settles O9: every field of the state after a reset is the one `State.resetFor` or the state before gives it. -/
theorem hardResetValues : Obligations.HardResetValues := by
  intro s rest hp
  have hstep : step s = .next (s.setPending rest).hardReset := by simp only [step, performNext, hp, interact]
  exact ⟨_, hstep, rfl, rfl, rfl, rfl, rfl, rfl, rfl, rfl, fun _ => ⟨rfl, rfl⟩, fun _ => ⟨rfl, rfl⟩, rfl, rfl, rfl,
    rfl, rfl⟩

/-! What each command writes. -/

/-- Settles O45, command by command: INIT and PAL_WRITE write the fields they name, and every other command leaves the
states its frame lemma allows. -/
theorem eachStateHasItsWriters : Obligations.EachStateHasItsWriters := by
  intro i s t ht
  rw [exec_eq_endCommand] at ht
  cases i with
  | init => cases ht; simp [initState]
  | palWrite sel index color => cases ht; cases sel <;> simp [palWriteState, State.writeGpal, State.writeLpal]
  | brReset => cases ht; simp [brReset]
  | skip =>
    obtain ⟨u, st, hu, rfl⟩ := (skipSubBlocks_posOnly s).of_next ht
    rw [hu]; simp
  | decode =>
    obtain ⟨u, st, hu, rfl⟩ := (decodeCommand_decodeOnly s).of_next ht
    rw [hu]; simp [State.setStatus]
  | dispose =>
    obtain ⟨u, st, hu, rfl⟩ := (disposeCommand_canvasOnly s).of_next ht
    rw [hu]; simp
  | getKey w =>
    obtain ⟨u, st, hu, rfl⟩ := (Safety.getKeyCommand_frame w s).of_next ht
    rw [hu]; simp

end Sys2Proof.Machine
end

/-! PROOF. DECODE's loop from states that meet the loop invariant (41_lzw.md R99): what each part of a round comes to,
and that the invariant goes on holding. -/

section
namespace Sys2Proof.Machine

/-! What each part leaves alone. -/

theorem State.entryAt_congr {s t : State} (h : t.table = s.table) (j : Nat) : t.entryAt j = s.entryAt j := by
  unfold State.entryAt; rw [h]

theorem writeLiterals_tableOnly (n : Nat) (s : State) : writeLiterals n s = s.setTable (writeLiterals n s).table := by
  induction n with
  | zero => rfl
  | succ n ih => rw [writeLiterals, ih]; rfl

@[simp] theorem startDecode_lzw (m : Nat) (s : State) : (startDecode m s).lzw = s.lzw.start m := by
  unfold startDecode
  rw [writeLiterals_tableOnly]
  rfl

@[simp] theorem startDecode_entryAt (m : Nat) (s : State) (j : Nat) :
    (startDecode m s).entryAt j = (writeLiterals (clearCode m) s).entryAt j := rfl

/-- A code that has been read changes CODE, the reader and POS only (41_lzw.md R88). -/
theorem nextCode_done {s t : State} {k : Code} (h : nextCode s = .done k t) :
    t.lzw = { s.lzw with code := k } ∧ t.table = s.table := by
  obtain ⟨k', u, hkey, hdone⟩ := Res.andThen_eq_done h
  cases hdone
  have hro := getKey_readerOnly s.lzw.ks.toNat s
  rw [hkey, Res.leaves_done] at hro
  rw [hro]
  exact ⟨rfl, rfl⟩

/-! The table step (41_lzw.md R84 to R87). -/

section
variable {m : Nat} {s : State}

theorem tableStep_clear (h : s.lzw.code.toNat = clearCode m) :
    tableStep m s = .done () (s.setLzw (s.lzw.clear m)) := by
  rw [tableStep, if_pos h]

theorem tableStep_frozen (h : s.lzw.code.toNat ≠ clearCode m) (hf : s.lzw.full = true) :
    tableStep m s = .done () (s.setLzw s.lzw.frozen) := by
  rw [tableStep, if_neg h, if_pos hf]

/-- T and the registers after an append (41_lzw.md R85, R86). -/
def appendEntry (s : State) : State :=
  (s.writeEntry s.lzw.nentries.toNat (newEntry s.lzw)).setLzw s.lzw.appended

theorem tableStep_append (h : s.lzw.code.toNat ≠ clearCode m) (hf : s.lzw.full = false)
    (hn : s.lzw.nentries.toNat ≠ Config.tableCap) : tableStep m s = .done () (appendEntry s) := by
  rw [tableStep, if_neg h, if_neg (by simp [hf]), if_neg hn]
  rfl

theorem appendEntry_entryAt (s : State) (j : Nat) :
    (appendEntry s).entryAt j = if j = s.lzw.nentries.toNat then newEntry s.lzw else s.entryAt j :=
  s.entryAt_writeEntry _ _ j

end

/-- An append writes NENTRIES, FULL, GROW and PATCH_EN (41_lzw.md R85, R86). -/
theorem Lzw.appended_eq (l : Lzw) :
    l.appended = { l with nentries := BitVec.ofNat 13 (l.nentries.toNat + 1), full := l.appended.full,
                          grow := l.appended.grow, patchEn := true } := by
  unfold Lzw.appended
  split
  · rfl
  · split <;> rfl

@[simp] theorem Lzw.appended_nentries (l : Lzw) : l.appended.nentries = BitVec.ofNat 13 (l.nentries.toNat + 1) := by
  rw [l.appended_eq]
@[simp] theorem Lzw.appended_code (l : Lzw) : l.appended.code = l.code := by
  rw [l.appended_eq]
@[simp] theorem Lzw.appended_first (l : Lzw) : l.appended.first = l.first := by
  rw [l.appended_eq]
@[simp] theorem Lzw.appended_prevLen (l : Lzw) : l.appended.prevLen = l.prevLen := by
  rw [l.appended_eq]
@[simp] theorem Lzw.appended_patchEn (l : Lzw) : l.appended.patchEn = true := by
  rw [l.appended_eq]

/-- A growth writes KS and GROW (41_lzw.md R90). -/
theorem Lzw.applyGrowth_eq (l : Lzw) :
    l.applyGrowth = { l with ks := l.applyGrowth.ks, grow := l.applyGrowth.grow } := by
  unfold Lzw.applyGrowth
  split <;> rfl

@[simp] theorem Lzw.applyGrowth_nentries (l : Lzw) : l.applyGrowth.nentries = l.nentries := by
  rw [l.applyGrowth_eq]
@[simp] theorem Lzw.applyGrowth_code (l : Lzw) : l.applyGrowth.code = l.code := by
  rw [l.applyGrowth_eq]
@[simp] theorem Lzw.applyGrowth_patchEn (l : Lzw) : l.applyGrowth.patchEn = l.patchEn := by
  rw [l.applyGrowth_eq]
@[simp] theorem Lzw.applyGrowth_off (l : Lzw) : l.applyGrowth.off = l.off := by
  rw [l.applyGrowth_eq]

/-- The entries after the fix-up (41_lzw.md R92). -/
theorem fixUp_entryAt (s : State) (j : Nat) :
    (fixUp s).entryAt j =
      if s.lzw.patchEn = true ∧ j = s.lzw.nentries.toNat - 1 then { s.entryAt j with suffix := s.lzw.first }
      else s.entryAt j := by
  unfold fixUp
  split
  next h =>
    rw [State.entryAt_writeEntry]
    by_cases hj : j = s.lzw.nentries.toNat - 1
    · simp [h, hj]
    · simp [hj]
  next h => simp [h]

end Sys2Proof.Machine

namespace Sys2Proof.Safety

open Sys2Proof.Machine

/-! The invariant between the table step and the next code. -/

/-- What the loop invariant says of the table and the widths, whatever stands in CODE (41_lzw.md R99). -/
structure TableInvariant (m : Nat) (s : State) : Prop where
  sizeLow : 2 ≤ m
  sizeHigh : m ≤ 8
  initKs : s.lzw.initKs.toNat = m + 1
  entriesLow : clearCode m + 2 ≤ s.lzw.nentries.toNat
  widths : WidthsFit s.lzw
  chains : ChainsWellFormed m s

/-- CODE holds a data code that has been resolved: no growth is pending and PREV_LEN is its length (41_lzw.md R99). -/
structure DataResolved (m : Nat) (s : State) : Prop where
  code : DataCode m s.lzw s.lzw.code.toNat
  grow : s.lzw.grow = false
  prevLen : s.lzw.prevLen = (s.entryAt s.lzw.code.toNat).len

theorem loopInvariant_iff {m : Nat} {s : State} :
    LoopInvariant m s ↔ TableInvariant m s ∧ (s.lzw.code.toNat = clearCode m ∨ DataResolved m s) := by
  constructor
  · rintro ⟨h1, h2, hi, hn, hw, hc, hcode⟩
    exact ⟨⟨h1, h2, hi, hn, hw, hc⟩, hcode.imp_right fun ⟨hd, hg, hp⟩ => ⟨hd, hg, hp⟩⟩
  · rintro ⟨⟨h1, h2, hi, hn, hw, hc⟩, hcode⟩
    exact ⟨h1, h2, hi, hn, hw, hc, hcode.imp_right fun ⟨hd, hg, hp⟩ => ⟨hd, hg, hp⟩⟩

/-- Chains stay well formed when no LEN, no PREFIX and no literal changes and no entry becomes defined. -/
theorem ChainsWellFormed.of_links {m : Nat} {s t : State} (h : ChainsWellFormed m s)
    (hn : t.lzw.nentries.toNat ≤ s.lzw.nentries.toNat) (hlit : ∀ j, j < clearCode m → t.entryAt j = s.entryAt j)
    (hlink : ∀ j, (t.entryAt j).len = (s.entryAt j).len ∧ (t.entryAt j).parent = (s.entryAt j).parent) :
    ChainsWellFormed m t := by
  obtain ⟨hl, hc⟩ := h
  refine ⟨fun i hi => (hlit i hi).trans (hl i hi), fun j hj hlow => ?_⟩
  rw [(hlink j).1, (hlink j).2, (hlink _).1]
  exact hc j (hj.trans_le hn) hlow

/-- Chains stay well formed when an entry for a resolved data code is appended (41_lzw.md R85). -/
theorem ChainsWellFormed.append {m : Nat} {s t : State} (h : ChainsWellFormed m s)
    (hres : DataResolved m s) (hcap : s.lzw.nentries.toNat < 4096) (hlow : clearCode m + 2 ≤ s.lzw.nentries.toNat)
    (hn : t.lzw.nentries.toNat = s.lzw.nentries.toNat + 1)
    (he : ∀ j, t.entryAt j = if j = s.lzw.nentries.toNat then newEntry s.lzw else s.entryAt j) :
    ChainsWellFormed m t := by
  have ⟨hl, hc⟩ := h
  obtain ⟨⟨hcode, hclear, hstop⟩, -, hprev⟩ := hres
  have hold : ∀ j, j < s.lzw.nentries.toNat → t.entryAt j = s.entryAt j := fun j hj => by
    rw [he, if_neg hj.ne]
  refine ⟨fun i hi => (hold i (by omega)).trans (hl i hi), fun j hj hjlow => ?_⟩
  obtain rfl | hlt : j = s.lzw.nentries.toNat ∨ j < s.lzw.nentries.toNat := by omega
  · have hlen : (s.entryAt s.lzw.code.toNat).len.toNat + clearCode m + 1 ≤ s.lzw.nentries.toNat := by
      obtain hlit | ⟨hge, -⟩ := dataCode_cases ⟨hcode, hclear, hstop⟩
      · rw [hl _ hlit]
        show 1 + _ + 1 ≤ _
        omega
      · obtain ⟨-, -, -, -, hle⟩ := hc _ hcode hge
        omega
    have hnew : (newEntry s.lzw).len.toNat = (s.entryAt s.lzw.code.toNat).len.toNat + 1 := by
      rw [newEntry, hprev, BitVec.toNat_ofNat]
      omega
    rw [he, if_pos rfl, show (newEntry s.lzw).parent = s.lzw.code from rfl, hold _ hcode, hnew]
    exact ⟨hcode, hclear, hstop, rfl, by omega⟩
  · obtain ⟨hp, hrest⟩ := hc j hlt hjlow
    rw [hold j hlt, hold _ (hp.trans hlt)]
    exact ⟨hp, hrest⟩

namespace TableInvariant

variable {m : Nat} {s t : State}

theorem nentries_le (h : TableInvariant m s) : s.lzw.nentries.toNat ≤ 4096 := h.widths.legal.1

theorem ks_le (h : TableInvariant m s) : s.lzw.ks.toNat ≤ 12 := by
  obtain ⟨-, -, hks, -⟩ := h.widths.legal
  exact hks

/-- A state with the same table and with registers that agree but for CODE (41_lzw.md R88). -/
theorem setCode (h : TableInvariant m s) {k : Code} (hl : t.lzw = { s.lzw with code := k }) (ht : t.table = s.table) :
    TableInvariant m t := by
  have hentry := State.entryAt_congr ht
  refine ⟨h.sizeLow, h.sizeHigh, by rw [hl]; exact h.initKs, by rw [hl]; exact h.entriesLow, by rw [hl]; exact h.widths,
    h.chains.of_links (by rw [hl]) (fun j _ => hentry j) fun j => by rw [hentry]; exact ⟨rfl, rfl⟩⟩

/-- The read of a code (41_lzw.md R88). -/
theorem nextCode (h : TableInvariant m s) {k : Code} (hk : nextCode s = .done k t) : TableInvariant m t := by
  obtain ⟨hl, ht⟩ := nextCode_done hk
  exact h.setCode hl ht

/-- Initialisation (41_lzw.md R82). -/
theorem startDecode (h1 : 2 ≤ m) (h2 : m ≤ 8) (s : State) : TableInvariant m (startDecode m s) := by
  have hn : (Machine.startDecode m s).lzw.nentries.toNat = clearCode m + 2 := by
    rw [startDecode_lzw]; exact firstFree_toNat h1 h2
  refine ⟨h1, h2, ?_, hn.ge, ?_, fun i hi => ?_, fun j hj hlow => ?_⟩
  · rw [startDecode_lzw]; exact start_initKs h2 _
  · rw [startDecode_lzw]; exact widthsFit_start h1 h2 _
  · rw [startDecode_entryAt, entryAt_writeLiterals, if_pos hi]
  · omega

/-- A clear (41_lzw.md R84). -/
theorem clear (h : TableInvariant m s) : TableInvariant m (s.setLzw (s.lzw.clear m)) := by
  have hn : (s.lzw.clear m).nentries.toNat = clearCode m + 2 := firstFree_toNat h.sizeLow h.sizeHigh
  exact ⟨h.sizeLow, h.sizeHigh, h.initKs, hn.ge, widthsFit_clear h.sizeLow h.sizeHigh h.initKs,
    h.chains.of_links (hn.trans_le h.entriesLow) (fun _ _ => rfl) fun _ => ⟨rfl, rfl⟩⟩

/-- A frozen table (41_lzw.md R87). -/
theorem frozen (h : TableInvariant m s) : TableInvariant m (s.setLzw s.lzw.frozen) :=
  ⟨h.sizeLow, h.sizeHigh, h.initKs, h.entriesLow, h.widths, h.chains⟩

/-- While FULL = 0 there is room for an entry (41_lzw.md R99 point 5). -/
theorem lt_of_not_full (h : TableInvariant m s) (hf : s.lzw.full = false) : s.lzw.nentries.toNat < 4096 :=
  (h.widths.2 hf).1

theorem appended_nentries (h : TableInvariant m s) (hf : s.lzw.full = false) :
    s.lzw.appended.nentries.toNat = s.lzw.nentries.toNat + 1 := by
  have hlt := h.lt_of_not_full hf
  rw [Lzw.appended_nentries, BitVec.toNat_ofNat]
  omega

/-- An append after a resolved data code (41_lzw.md R85, R86). -/
theorem append (h : TableInvariant m s) (hres : DataResolved m s) (hf : s.lzw.full = false) :
    TableInvariant m (appendEntry s) := by
  have hlt := h.lt_of_not_full hf
  have hn : (appendEntry s).lzw.nentries.toNat = s.lzw.nentries.toNat + 1 := h.appended_nentries hf
  exact ⟨h.sizeLow, h.sizeHigh, (congrArg BitVec.toNat (Lzw.appended_initKs _)).trans h.initKs,
    by have := h.entriesLow; omega, widthsFit_appended h.widths hf hres.grow,
    h.chains.append hres hlt h.entriesLow hn (appendEntry_entryAt s)⟩

end TableInvariant

/-- From a state that meets the loop invariant the table step is done: a clear, a frozen table, or an append
(41_lzw.md R84 to R87, R99 point 5). -/
theorem LoopInvariant.tableStep_cases {m : Nat} {s : State} (h : LoopInvariant m s) :
    (s.lzw.code.toNat = clearCode m ∧ tableStep m s = .done () (s.setLzw (s.lzw.clear m))) ∨
    (DataResolved m s ∧ s.lzw.full = true ∧ tableStep m s = .done () (s.setLzw s.lzw.frozen)) ∨
    (DataResolved m s ∧ s.lzw.full = false ∧ tableStep m s = .done () (appendEntry s)) := by
  obtain ⟨htab, hclear | hres⟩ := loopInvariant_iff.mp h
  · exact .inl ⟨hclear, tableStep_clear hclear⟩
  · have ⟨⟨_, hne, _⟩, _, _⟩ := hres
    cases hf : s.lzw.full with
    | true => exact .inr (.inl ⟨hres, rfl, tableStep_frozen hne hf⟩)
    | false => exact .inr (.inr ⟨hres, rfl, tableStep_append hne hf (htab.lt_of_not_full hf).ne⟩)

theorem LoopInvariant.tableStep {m : Nat} {s : State} (h : LoopInvariant m s) :
    ∃ t, tableStep m s = .done () t ∧ TableInvariant m t := by
  have htab := (loopInvariant_iff.mp h).1
  obtain ⟨-, e⟩ | ⟨-, -, e⟩ | ⟨hres, hf, e⟩ := h.tableStep_cases
  · exact ⟨_, e, htab.clear⟩
  · exact ⟨_, e, htab.frozen⟩
  · exact ⟨_, e, htab.append hres hf⟩

/-! A data code. -/

/-- The string of an entry, first pixel first (41_lzw.md R91). -/
def entryString (s : State) (e : Nat) : List Byte := (chainPixels s Config.tableCap e).reverse

/-- A data code's pixels in FRAME, growth applied, and the registers after it (41_lzw.md R90, R91, R96). -/
def resolved (s : State) : State :=
  (putReversed s.lzw.off.toNat (chainPixels s Config.tableCap s.lzw.code.toNat) (s.setLzw s.lzw.applyGrowth)).setLzw
    (s.lzw.applyGrowth.resolved (s.entryAt s.lzw.code.toNat).len ((entryString s s.lzw.code.toNat).headD 0))

/-- A data code that has passed its check is resolved and the last entry fixed up (41_lzw.md R89 to R92). -/
def afterDataCode (s : State) : State := fixUp (resolved s)

@[simp] theorem resolved_lzw (s : State) :
    (resolved s).lzw =
      s.lzw.applyGrowth.resolved (s.entryAt s.lzw.code.toNat).len ((entryString s s.lzw.code.toNat).headD 0) := rfl

theorem resolved_eq (s : State) : resolved s = (s.setFrame (resolved s).frame).setLzw (resolved s).lzw := by
  unfold resolved
  rw [putReversed_frameOnly]
  rfl

@[simp] theorem resolved_entryAt (s : State) (j : Nat) : (resolved s).entryAt j = s.entryAt j := by
  rw [resolved_eq]; rfl

theorem afterDataCode_eq (s : State) :
    afterDataCode s =
      ((s.setFrame (resolved s).frame).setLzw (resolved s).lzw).setTable (afterDataCode s).table := by
  unfold afterDataCode
  rw [fixUp_tableOnly, resolved_eq]
  rfl

theorem afterDataCode_lzw (s : State) : (afterDataCode s).lzw = (resolved s).lzw := by
  rw [afterDataCode_eq]; rfl

theorem afterDataCode_entryAt (s : State) (j : Nat) :
    (afterDataCode s).entryAt j =
      if s.lzw.patchEn = true ∧ j = s.lzw.nentries.toNat - 1 then
        { s.entryAt j with suffix := (entryString s s.lzw.code.toNat).headD 0 }
      else s.entryAt j := by
  have hp : (resolved s).lzw.patchEn = s.lzw.patchEn := Lzw.applyGrowth_patchEn _
  have hn : (resolved s).lzw.nentries = s.lzw.nentries := Lzw.applyGrowth_nentries _
  rw [afterDataCode, fixUp_entryAt, hp, hn, resolved_entryAt]
  rfl

/-- A data code changes no LEN and no PREFIX (41_lzw.md R92). -/
theorem afterDataCode_links (s : State) (j : Nat) :
    ((afterDataCode s).entryAt j).len = (s.entryAt j).len ∧
      ((afterDataCode s).entryAt j).parent = (s.entryAt j).parent := by
  rw [afterDataCode_entryAt]
  split <;> exact ⟨rfl, rfl⟩

namespace TableInvariant

variable {m : Nat} {s : State}

/-- The length of a defined entry's string is within the bounds of a walk (41_lzw.md R99 point 4). -/
theorem len_le (h : TableInvariant m s) {e : Nat} (he : DataCode m s.lzw e) :
    (s.entryAt e).len.toNat ≤ Config.tableCap := by
  have hcap : Config.tableCap = 4096 := rfl
  obtain hlit | ⟨hlow, hlt⟩ := dataCode_cases he
  · rw [h.chains.1 e hlit]
    show 1 ≤ _
    omega
  · obtain ⟨-, -, -, -, hle⟩ := h.chains.2 e hlt hlow
    have := h.nentries_le
    omega

theorem entryString_length (h : TableInvariant m s) {e : Nat} (he : DataCode m s.lzw e) :
    (entryString s e).length = (s.entryAt e).len.toNat := by
  rw [entryString, List.length_reverse]
  exact (walkChain_spec h.nentries_le h.chains _ e he (h.len_le he)).1

/-- A growth that was signalled is applied (41_lzw.md R90). -/
theorem applyGrowth (h : TableInvariant m s) : TableInvariant m (s.setLzw s.lzw.applyGrowth) := by
  have hn : (s.setLzw s.lzw.applyGrowth).lzw.nentries = s.lzw.nentries := Lzw.applyGrowth_nentries _
  exact ⟨h.sizeLow, h.sizeHigh, (congrArg BitVec.toNat (Lzw.applyGrowth_initKs _)).trans h.initKs,
    by rw [hn]; exact h.entriesLow, widthsFit_applyGrowth h.widths,
    h.chains.of_links (by rw [hn]) (fun _ _ => rfl) fun _ => ⟨rfl, rfl⟩⟩

/-- A defined data code is resolved (41_lzw.md R89 to R92). -/
theorem dataCode (h : TableInvariant m s) (hk : DataCode m s.lzw s.lzw.code.toNat) :
    dataCode s = .done () (afterDataCode s) := by
  have hgrown := h.applyGrowth
  have hk' : DataCode m (s.setLzw s.lzw.applyGrowth).lzw s.lzw.code.toNat := by
    unfold DataCode
    rw [State.setLzw_lzw, Lzw.applyGrowth_nentries]
    exact hk
  have hwalk := (walkChain_spec hgrown.nentries_le hgrown.chains _ _ hk' (hgrown.len_le hk')).2
  rw [chainPixels_congr (s := s) (t := s.setLzw s.lzw.applyGrowth) rfl] at hwalk
  rw [Machine.dataCode, if_neg (by have := hk.1; omega), resolveCode]
  rw [State.setLzw_lzw, Lzw.applyGrowth_code, hwalk, Res.done_andThen, Res.done_andThen]
  congr 2
  unfold resolved entryString
  rw [State.setLzw_lzw, Lzw.applyGrowth_off, putReversed_frameOnly, List.headD_eq_head?_getD, List.head?_reverse,
    ← List.getLastD_eq_getLast?]
  rfl

/-- The invariant after a data code (41_lzw.md R99). -/
theorem afterDataCode (h : TableInvariant m s) (hk : DataCode m s.lzw s.lzw.code.toNat) :
    LoopInvariant m (afterDataCode s) := by
  have hlink := afterDataCode_links s
  have hn : (Safety.afterDataCode s).lzw.nentries = s.lzw.nentries := by
    rw [afterDataCode_lzw]; exact Lzw.applyGrowth_nentries _
  have hcode : (Safety.afterDataCode s).lzw.code = s.lzw.code := by
    rw [afterDataCode_lzw]; exact Lzw.applyGrowth_code _
  refine loopInvariant_iff.mpr ⟨⟨h.sizeLow, h.sizeHigh, ?_, by rw [hn]; exact h.entriesLow, ?_, ?_⟩, .inr ⟨?_, ?_, ?_⟩⟩
  · rw [afterDataCode_lzw]; exact h.applyGrowth.initKs
  · rw [afterDataCode_lzw]; exact h.applyGrowth.widths
  · refine h.chains.of_links (by rw [hn]) (fun j hj => ?_) hlink
    rw [afterDataCode_entryAt, if_neg]
    have := h.entriesLow
    omega
  · unfold DataCode
    rw [hn, hcode]
    exact hk
  · rw [afterDataCode_lzw]; exact Lzw.applyGrowth_grow _
  · rw [hcode, (hlink _).1, afterDataCode_lzw]; rfl

end TableInvariant

/-! A round. -/

/-- A round that goes on keeps the loop invariant: it has read a clear code, or a data code and put its string
(41_lzw.md R84 to R92, R99). -/
theorem LoopInvariant.decodeRound {m : Nat} {s t : State} (h : LoopInvariant m s)
    (hround : decodeRound m s = .done true t) : LoopInvariant m t := by
  obtain ⟨u, hu, hutab⟩ := h.tableStep
  unfold Machine.decodeRound at hround
  rw [hu, Res.done_andThen] at hround
  obtain ⟨k, v, hcode, hrest⟩ := Res.andThen_eq_done hround
  have hv := hutab.nextCode hcode
  have hk := nextCode_code hcode
  split at hrest
  next hclear =>
    cases hrest
    exact loopInvariant_iff.mpr ⟨hv, .inl (by rw [hk, hclear])⟩
  next hclear =>
    split at hrest
    next => cases hrest
    next hstop =>
      obtain ⟨_, w, hdata, hdone⟩ := Res.andThen_eq_done hrest
      cases hdone
      have hlt : v.lzw.code.toNat < v.lzw.nentries.toNat := by
        by_contra hge
        rw [Machine.dataCode, if_pos (Nat.not_lt.mp hge)] at hdata
        cases hdata
      have hdc : DataCode m v.lzw v.lzw.code.toNat := ⟨hlt, by rw [hk]; exact hclear, by rw [hk]; exact hstop⟩
      rw [hv.dataCode hdc] at hdata
      cases hdata
      exact hv.afterDataCode hdc

/-- The loop is entered with its invariant (41_lzw.md R83, R99). -/
theorem loopInvariant_of_firstCode {m : Nat} (h1 : 2 ≤ m) (h2 : m ≤ 8) {s t : State} {k : Code}
    (hcode : nextCode (startDecode m s) = .done k t) (hclear : k.toNat = clearCode m) : LoopInvariant m t :=
  loopInvariant_iff.mpr
    ⟨(TableInvariant.startDecode h1 h2 s).nextCode hcode, .inl (by rw [nextCode_code hcode, hclear])⟩

end Sys2Proof.Safety
end

/-! PROOF. What no command reads: the status before it, GCE.DELAY, and the entries of T that DECODE has not written
(10_state.md R19, R24, R35, 41_lzw.md R93, 60_exceptions.md R115, R118). Two runs of a command are compared, from states
that differ in these only. -/

section
namespace Sys2Proof.Machine

/-! Two runs of one part. -/

section
variable {α β : Type} {R S : State → State → Prop}

/-- Two runs of a part end the same way, with the same value, status or fault, in states related by `R`. -/
def Res.Rel (R : State → State → Prop) : Res α → Res α → Prop
  | .done a s, .done b t => a = b ∧ R s t
  | .raised st s, .raised st' t => st = st' ∧ R s t
  | .faulted f, .faulted g => f = g
  | _, _ => False

theorem Res.rel_done {a : α} {s t : State} (h : R s t) : (Res.done a s).Rel R (.done a t) := ⟨rfl, h⟩
theorem Res.rel_raised {st : Status} {s t : State} (h : R s t) : (Res.raised st s : Res α).Rel R (.raised st t) :=
  ⟨rfl, h⟩
theorem Res.rel_faulted (f : Fault) : (Res.faulted f : Res α).Rel R (.faulted f) := rfl

/-- The three ways two runs end alike. -/
theorem Res.Rel.cases {r r' : Res α} (h : r.Rel R r') :
    (∃ a s t, r = .done a s ∧ r' = .done a t ∧ R s t) ∨
      (∃ st s t, r = .raised st s ∧ r' = .raised st t ∧ R s t) ∨ ∃ f, r = .faulted f ∧ r' = .faulted f := by
  cases r with
  | done a s =>
    cases r' with
    | done b t => obtain ⟨rfl, hR⟩ := h; exact .inl ⟨a, s, t, rfl, rfl, hR⟩
    | _ => exact h.elim
  | raised st s =>
    cases r' with
    | raised st' t => obtain ⟨rfl, hR⟩ := h; exact .inr (.inl ⟨st, s, t, rfl, rfl, hR⟩)
    | _ => exact h.elim
  | faulted f =>
    cases r' with
    | faulted g => obtain rfl : f = g := h; exact .inr (.inr ⟨f, rfl, rfl⟩)
    | _ => exact h.elim

theorem Res.Rel.andThen {r r' : Res α} {next next' : α → State → Res β} (h : r.Rel R r')
    (hraised : ∀ s t, R s t → S s t)
    (hnext : ∀ a s t, r = .done a s → r' = .done a t → R s t → (next a s).Rel S (next' a t)) :
    (r.andThen next).Rel S (r'.andThen next') := by
  obtain ⟨a, s, t, rfl, rfl, hR⟩ | ⟨st, s, t, rfl, rfl, hR⟩ | ⟨f, rfl, rfl⟩ := h.cases
  · exact hnext a s t rfl rfl hR
  · exact Res.rel_raised (hraised s t hR)
  · exact Res.rel_faulted f

theorem Res.Rel.ite {c : Prop} [Decidable c] {a b a' b' : Res α} (ht : c → a.Rel R a') (hf : ¬ c → b.Rel R b') :
    (if c then a else b).Rel R (if c then a' else b') := by
  split
  next h => exact ht h
  next h => exact hf h

end

/-! Two runs of the stream and the bit reader. -/

/-- Related states have one stream, POS and bit reader, and stay related when these are written. -/
structure ReaderCongruence (R : State → State → Prop) : Prop where
  stream {s t : State} : R s t → t.stream = s.stream
  pos {s t : State} : R s t → t.pos = s.pos
  reader {s t : State} : R s t → t.reader = s.reader
  setPos {s t : State} (p : BitVec 32) : R s t → R (s.setPos p) (t.setPos p)
  setReader {s t : State} (r : BitReader) : R s t → R (s.setReader r) (t.setReader r)

namespace ReaderCongruence

variable {R : State → State → Prop} (hR : ReaderCongruence R) {s t : State}
include hR

theorem streamRead8 (h : R s t) : (streamRead8 s).Rel R (streamRead8 t) := by
  unfold Machine.streamRead8
  rw [hR.stream h, hR.pos h]
  cases s.stream[s.pos.toNat]? with
  | some b => exact Res.rel_done (hR.setPos _ h)
  | none => exact Res.rel_raised h

theorem openSubBlock (h : R s t) : (openSubBlock s).Rel R (openSubBlock t) := by
  unfold Machine.openSubBlock
  rw [hR.reader h]
  refine .ite (fun _ => (hR.streamRead8 h).andThen (fun _ _ h => h) fun len u v _ _ h => ?_) fun _ => Res.rel_done h
  rw [hR.reader h]
  exact .ite (fun _ => Res.rel_raised h) fun _ => Res.rel_done (hR.setReader _ h)

theorem loadByte (h : R s t) : (loadByte s).Rel R (loadByte t) :=
  (hR.openSubBlock h).andThen (fun _ _ h => h) fun _ _ _ _ _ h =>
    (hR.streamRead8 h).andThen (fun _ _ h => h) fun _ _ _ _ _ h => by
      rw [hR.reader h]
      exact Res.rel_done (hR.setReader _ h)

theorem getKeyLoop (w fuel n key : Nat) (h : R s t) :
    (getKeyLoop w fuel n key s).Rel R (getKeyLoop w fuel n key t) := by
  induction fuel generalizing n key s t with
  | zero =>
    unfold Machine.getKeyLoop
    exact .ite (fun _ => Res.rel_faulted _) fun _ => Res.rel_done h
  | succ fuel ih =>
    unfold Machine.getKeyLoop
    have hoff : bitOffset t n = bitOffset s n := by rw [bitOffset, hR.reader h, bitOffset]
    rw [hoff]
    refine .ite (fun _ => ?_) fun _ => Res.rel_done h
    refine Res.Rel.andThen (.ite (fun _ => hR.loadByte h) fun _ => Res.rel_done h) (fun _ _ h => h)
      fun _ u v _ _ h => ?_
    have hoff : bitOffset v n = bitOffset u n := by rw [bitOffset, hR.reader h, bitOffset]
    simp only [hoff, hR.reader h]
    exact ih _ _ h

theorem getKey (w : Nat) (h : R s t) : (getKey w s).Rel R (getKey w t) :=
  (hR.getKeyLoop w w 0 0 h).andThen (fun _ _ h => h) fun _ _ _ _ _ h => by
    rw [hR.reader h]
    exact Res.rel_done (hR.setReader _ h)

theorem skipLoop (fuel : Nat) (h : R s t) : (skipLoop fuel s).Rel R (skipLoop fuel t) := by
  induction fuel generalizing s t with
  | zero => exact Res.rel_faulted _
  | succ fuel ih =>
    refine (hR.streamRead8 h).andThen (fun _ _ h => h) fun len u v _ _ h => ?_
    rw [hR.pos h]
    exact .ite (fun _ => Res.rel_done h) fun _ => ih (hR.setPos _ h)

theorem skipSubBlocks (h : R s t) : (skipSubBlocks s).Rel R (skipSubBlocks t) := by
  unfold Machine.skipSubBlocks
  rw [hR.stream h]
  exact hR.skipLoop _ h

end ReaderCongruence

/-! States that differ in what no command reads. -/

/-- `s` with another STATUS, another GCE.DELAY and another T. -/
def State.withUnread (st : Status) (d : BitVec 16) (tbl : Memory Entry) (s : State) : State :=
  ((s.setStatus st).setGce { s.gce with delay := d }).setTable tbl

/-- `t` is `s` but for STATUS, GCE.DELAY and, unless `sameTable` holds, T. -/
def Alike (sameTable : Prop) (s t : State) : Prop :=
  ∃ st d tbl, (sameTable → tbl = s.table) ∧ t = s.withUnread st d tbl

section
variable {P : Prop} {s t : State}

theorem Alike.of_setStatus (st : Status) (s : State) : Alike True s (s.setStatus st) :=
  ⟨st, s.gce.delay, s.table, fun _ => rfl, rfl⟩

theorem Alike.of_withDelay (d : BitVec 16) (s : State) : Alike True s (Safety.withDelay d s) :=
  ⟨s.status, d, s.table, fun _ => rfl, rfl⟩

theorem Alike.of_setTable (tbl : Memory Entry) (s : State) : Alike False s (s.setTable tbl) :=
  ⟨s.status, s.gce.delay, tbl, False.elim, rfl⟩

theorem Alike.lzw (h : Alike P s t) : t.lzw = s.lzw := by
  obtain ⟨st, d, tbl, -, rfl⟩ := h; rfl

theorem Alike.setLzw (h : Alike P s t) (l : Lzw) : Alike P (s.setLzw l) (t.setLzw l) := by
  obtain ⟨st, d, tbl, hq, rfl⟩ := h; exact ⟨st, d, tbl, hq, rfl⟩

theorem Alike.setKeyOut (h : Alike P s t) (k : Code) : Alike P (s.setKeyOut k) (t.setKeyOut k) := by
  obtain ⟨st, d, tbl, hq, rfl⟩ := h; exact ⟨st, d, tbl, hq, rfl⟩

theorem Alike.readerCongruence : ReaderCongruence (Alike P) where
  stream := by rintro _ _ ⟨_, _, _, -, rfl⟩; rfl
  pos := by rintro _ _ ⟨_, _, _, -, rfl⟩; rfl
  reader := by rintro _ _ ⟨_, _, _, -, rfl⟩; rfl
  setPos := by rintro _ _ _ ⟨st, d, tbl, hq, rfl⟩; exact ⟨st, d, tbl, hq, rfl⟩
  setReader := by rintro _ _ _ ⟨st, d, tbl, hq, rfl⟩; exact ⟨st, d, tbl, hq, rfl⟩

/-- One entry written in both. -/
theorem Alike.writeEntry (h : Alike P s t) (i : Nat) {e e' : Entry} (he : P → e' = e) :
    Alike P (s.writeEntry i e) (t.writeEntry i e') := by
  obtain ⟨st, d, tbl, hq, rfl⟩ := h
  refine ⟨st, d, Memory.write tableUnlisted tbl i e', fun hp => ?_, rfl⟩
  rw [he hp, hq hp]
  rfl

theorem Alike.entryAt (h : Alike P s t) (hp : P) (j : Nat) : t.entryAt j = s.entryAt j := by
  obtain ⟨st, d, tbl, hq, rfl⟩ := h
  exact State.entryAt_congr (hq hp) j

/-- PutPixel reads the rectangle, FRAME_CTRL and the canvas width, which are the same. -/
theorem Alike.putPixel (h : Alike P s t) (p : Nat) (v : Byte) : Alike P (putPixel p v s) (putPixel p v t) := by
  obtain ⟨st, d, tbl, hq, rfl⟩ := h
  unfold Machine.putPixel
  show Alike P (if s.rect.fw.toNat * s.rect.fh.toNat ≤ p then _ else _)
    (if s.rect.fw.toNat * s.rect.fh.toNat ≤ p then _ else _)
  split
  · exact ⟨st, d, tbl, hq, rfl⟩
  · exact ⟨st, d, tbl, hq, rfl⟩

theorem Alike.putReversed (h : Alike P s t) (off : Nat) (l : List Byte) :
    Alike P (Safety.putReversed off l s) (Safety.putReversed off l t) := by
  induction l generalizing s t with
  | nil => exact h
  | cons v rest ih => exact ih (h.putPixel _ _)

theorem Alike.fixUp (h : Alike P s t) : Alike P (fixUp s) (fixUp t) := by
  unfold Machine.fixUp
  rw [h.lzw]
  split
  · exact h.writeEntry _ fun hp => by rw [h.entryAt hp]
  · exact h

theorem Alike.writeLiterals (h : Alike P s t) (n : Nat) : Alike P (writeLiterals n s) (writeLiterals n t) := by
  induction n with
  | zero => exact h
  | succ n ih => exact ih.writeEntry n fun _ => rfl

theorem Alike.startDecode (h : Alike P s t) (m : Nat) : Alike P (startDecode m s) (startDecode m t) := by
  have hw := h.writeLiterals (clearCode m)
  unfold Machine.startDecode
  dsimp only
  rw [hw.lzw]
  exact Alike.readerCongruence.setReader _ (hw.setLzw _)

end

end Sys2Proof.Machine

namespace Sys2Proof.Safety

open Sys2Proof.Machine

/-! Two runs of DECODE's loop. -/

/-- The pixels of a defined data code depend on the defined entries up to it (41_lzw.md R91, R99 point 3). -/
theorem chainPixels_of_agree {m : Nat} {s t : State} (hc : ChainsWellFormed m s)
    (fuel : Nat) {e : Nat} (he : DataCode m s.lzw e)
    (hagree : ∀ j, j ≤ e → DataCode m s.lzw j → t.entryAt j = s.entryAt j) :
    chainPixels t fuel e = chainPixels s fuel e := by
  induction fuel generalizing e with
  | zero => rfl
  | succ fuel ih =>
    rw [chainPixels, chainPixels, hagree e le_rfl he]
    obtain hlit | ⟨hlow, hlt⟩ := dataCode_cases he
    · rw [hc.1 e hlit, if_pos rfl, if_pos rfl]
    · have hdown := (hc.2 e hlt hlow).1
      rw [ih (parent_dataCode hc hlow hlt) fun j hj => hagree j (hj.trans hdown.le)]

/-- The states are alike and agree on every defined data code of T. -/
structure CodesAlike (P : Prop) (m : Nat) (s t : State) : Prop where
  alike : Alike P s t
  entries : ∀ j, DataCode m s.lzw j → t.entryAt j = s.entryAt j

namespace CodesAlike

variable {P : Prop} {m : Nat} {s t : State}

theorem readerCongruence : ReaderCongruence (CodesAlike P m) where
  stream h := Alike.readerCongruence.stream h.alike
  pos h := Alike.readerCongruence.pos h.alike
  reader h := Alike.readerCongruence.reader h.alike
  setPos p h := ⟨Alike.readerCongruence.setPos p h.alike, h.entries⟩
  setReader r h := ⟨Alike.readerCongruence.setReader r h.alike, h.entries⟩

/-- Registers written with NENTRIES no higher. -/
theorem setLzw (h : CodesAlike P m s t) {l : Lzw} (hn : l.nentries.toNat ≤ s.lzw.nentries.toNat) :
    CodesAlike P m (s.setLzw l) (t.setLzw l) :=
  ⟨h.alike.setLzw l, fun j hj => h.entries j ⟨hj.1.trans_le hn, hj.2⟩⟩

theorem nextCode (h : CodesAlike P m s t) : (nextCode s).Rel (CodesAlike P m) (nextCode t) := by
  unfold Machine.nextCode
  rw [h.alike.lzw]
  refine (readerCongruence.getKey _ h).andThen (fun _ _ h => h) fun k u v _ _ h => ?_
  rw [h.alike.lzw]
  exact Res.rel_done (h.setLzw le_rfl)

/-- The other run meets the invariant too. -/
theorem tableInvariant (h : CodesAlike P m s t) (hs : TableInvariant m s) : TableInvariant m t := by
  have hl := h.alike.lzw
  refine ⟨hs.sizeLow, hs.sizeHigh, by rw [hl]; exact hs.initKs, by rw [hl]; exact hs.entriesLow,
    by rw [hl]; exact hs.widths, fun i hi => ?_, fun j hj hlow => ?_⟩
  · have hlow := hs.entriesLow
    rw [h.entries i ⟨by omega, by omega, by unfold stopCode; omega⟩]
    exact hs.chains.1 i hi
  · rw [hl] at hj
    rw [h.entries j ⟨hj, by omega, by unfold stopCode; omega⟩, h.entries _ (parent_dataCode hs.chains hlow hj)]
    exact hs.chains.2 j hj hlow

/-- The table step takes the same branch in both runs and appends the same entry (41_lzw.md R84 to R87). -/
theorem tableStep (h : CodesAlike P m s t) (hs : LoopInvariant m s) :
    ∃ u v, tableStep m s = .done () u ∧ tableStep m t = .done () v ∧ TableInvariant m u ∧ CodesAlike P m u v := by
  have htab := (loopInvariant_iff.mp hs).1
  have hl := h.alike.lzw
  obtain ⟨hclear, e⟩ | ⟨hres, hf, e⟩ | ⟨hres, hf, e⟩ := hs.tableStep_cases
  · refine ⟨_, _, e, tableStep_clear (by rw [hl]; exact hclear), htab.clear, ?_⟩
    rw [hl]
    exact h.setLzw ((firstFree_toNat htab.sizeLow htab.sizeHigh).trans_le htab.entriesLow)
  · refine ⟨_, _, e, tableStep_frozen (by rw [hl]; exact hres.code.2.1) (by rw [hl]; exact hf), htab.frozen, ?_⟩
    rw [hl]
    exact h.setLzw le_rfl
  · refine ⟨_, _, e, tableStep_append (by rw [hl]; exact hres.code.2.1) (by rw [hl]; exact hf)
      (by rw [hl]; exact (htab.lt_of_not_full hf).ne), htab.append hres hf, ?_, fun j hj => ?_⟩
    · unfold appendEntry
      rw [hl]
      exact (h.alike.writeEntry _ fun _ => rfl).setLzw _
    · rw [appendEntry_entryAt, appendEntry_entryAt, hl]
      split
      next => rfl
      next hne =>
        have hn : (appendEntry s).lzw.nentries.toNat = s.lzw.nentries.toNat + 1 := htab.appended_nentries hf
        obtain ⟨hlt, hrest⟩ := hj
        exact h.entries j ⟨by omega, hrest⟩

/-- A defined data code has one string in both runs. -/
theorem chainPixels (h : CodesAlike P m s t) (hs : TableInvariant m s) {e : Nat} (he : DataCode m s.lzw e) :
    chainPixels t Config.tableCap e = chainPixels s Config.tableCap e :=
  chainPixels_of_agree hs.chains _ he fun j _ hj => h.entries j hj

theorem afterDataCode (h : CodesAlike P m s t) (hs : TableInvariant m s) (hk : DataCode m s.lzw s.lzw.code.toNat) :
    CodesAlike P m (afterDataCode s) (afterDataCode t) := by
  have hl := h.alike.lzw
  have hpix := h.chainPixels hs hk
  have hstr : entryString t s.lzw.code.toNat = entryString s s.lzw.code.toNat := by
    rw [entryString, hpix, entryString]
  refine ⟨Alike.fixUp ?_, fun j hj => ?_⟩
  · unfold resolved
    rw [hl, hpix, hstr, h.entries _ hk]
    exact ((h.alike.setLzw _).putReversed _ _).setLzw _
  · have hn : (Safety.afterDataCode s).lzw.nentries = s.lzw.nentries := by
      rw [afterDataCode_lzw]; exact Lzw.applyGrowth_nentries _
    unfold DataCode at hj
    rw [hn] at hj
    rw [afterDataCode_entryAt, afterDataCode_entryAt, hl, hstr, h.entries j hj]

/-- A code that is no clear and no stop code: refused in both runs, or resolved in both. -/
theorem dataCode (h : CodesAlike P m s t) (hs : TableInvariant m s) (hclear : s.lzw.code.toNat ≠ clearCode m)
    (hstop : s.lzw.code.toNat ≠ stopCode m) : (dataCode s).Rel (CodesAlike P m) (dataCode t) := by
  have hl := h.alike.lzw
  by_cases hge : s.lzw.nentries.toNat ≤ s.lzw.code.toNat
  · rw [Machine.dataCode, Machine.dataCode, hl, if_pos hge, if_pos hge]
    exact Res.rel_raised h
  · have hk : DataCode m s.lzw s.lzw.code.toNat := ⟨Nat.not_le.mp hge, hclear, hstop⟩
    rw [hs.dataCode hk, (h.tableInvariant hs).dataCode (by rw [hl]; exact hk)]
    exact Res.rel_done (h.afterDataCode hs hk)

/-- One round (41_lzw.md R84 to R92). -/
theorem decodeRound (h : CodesAlike P m s t) (hs : LoopInvariant m s) :
    (decodeRound m s).Rel (CodesAlike P m) (decodeRound m t) := by
  obtain ⟨u, v, hu, hv, hutab, huv⟩ := h.tableStep hs
  unfold Machine.decodeRound
  rw [hu, hv, Res.done_andThen, Res.done_andThen]
  refine huv.nextCode.andThen (fun _ _ h => h) fun k u' v' hcode _ h => ?_
  have hk := nextCode_code hcode
  refine .ite (fun _ => Res.rel_done h) fun hclear => .ite (fun _ => Res.rel_done h) fun hstop => ?_
  exact (h.dataCode (hutab.nextCode hcode) (by rwa [hk]) (by rwa [hk])).andThen (fun _ _ h => h)
    fun _ _ _ _ _ h => Res.rel_done h

theorem decodeLoop (fuel : Nat) (h : CodesAlike P m s t) (hs : LoopInvariant m s) :
    (decodeLoop m fuel s).Rel (CodesAlike P m) (decodeLoop m fuel t) := by
  induction fuel generalizing s t with
  | zero => exact Res.rel_faulted _
  | succ fuel ih =>
    refine (h.decodeRound hs).andThen (fun _ _ h => h) fun goOn u v hround _ h => ?_
    cases goOn with
    | false => exact Res.rel_done h
    | true => exact ih h (hs.decodeRound hround)

/-- After initialisation the literals stand in both tables and no other data code is defined (41_lzw.md R82). -/
theorem startDecode (h : Alike P s t) (h1 : 2 ≤ m) (h2 : m ≤ 8) :
    CodesAlike P m (startDecode m s) (startDecode m t) := by
  refine ⟨h.startDecode m, fun j ⟨hj, hclear, hstop⟩ => ?_⟩
  have hn : (Machine.startDecode m s).lzw.nentries.toNat = clearCode m + 2 := by
    rw [startDecode_lzw]; exact firstFree_toNat h1 h2
  have hlit : j < clearCode m := by unfold stopCode at hstop; omega
  rw [startDecode_entryAt, startDecode_entryAt, entryAt_writeLiterals, entryAt_writeLiterals, if_pos hlit, if_pos hlit]

theorem decodeCodes (h : Alike P s t) (h1 : 2 ≤ m) (h2 : m ≤ 8) :
    (decodeCodes m (Machine.startDecode m s)).Rel (CodesAlike P m) (decodeCodes m (Machine.startDecode m t)) :=
  (startDecode h h1 h2).nextCode.andThen (fun _ _ h => h) fun k u v hcode _ h => by
    rw [readerCongruence.stream h]
    exact .ite (fun hclear => h.decodeLoop _ (loopInvariant_of_firstCode h1 h2 hcode hclear)) fun _ => Res.rel_raised h

end CodesAlike

end Sys2Proof.Safety

namespace Sys2Proof.Machine

open Sys2Proof.Safety

/-! Two runs of a command. -/

section
variable {P : Prop} {s t : State}

theorem Alike.decodeImage {m : Nat} (h : Alike P s t) (h1 : 2 ≤ m) (h2 : m ≤ 8) :
    (decodeImage m s).Rel (Alike P) (decodeImage m t) :=
  (CodesAlike.decodeCodes h h1 h2).andThen (fun _ _ h => h.alike) fun _ _ _ _ _ h =>
    (Alike.readerCongruence.streamRead8 h.alike).andThen (fun _ _ h => h) fun _ _ _ _ _ h => Res.rel_done h

theorem Alike.seekAtEnd (p : BitVec 32) {r r' : Res Unit} (h : r.Rel (Alike P) r') :
    (seekAtEnd p r).Rel (Alike P) (seekAtEnd p r') := by
  obtain ⟨a, s, t, rfl, rfl, hR⟩ | ⟨st, s, t, rfl, rfl, hR⟩ | ⟨f, rfl, rfl⟩ := h.cases
  · exact Res.rel_done (Alike.readerCongruence.setPos p hR)
  · exact Res.rel_raised (Alike.readerCongruence.setPos p hR)
  · exact Res.rel_faulted f

theorem Alike.readCodeSize (h : Alike P s t) : (readCodeSize s).Rel (Alike P) (readCodeSize t) :=
  (Alike.readerCongruence.streamRead8 h).andThen (fun _ _ h => h) fun _ _ _ _ _ h =>
    .ite (fun _ => Res.rel_raised h) fun _ => Res.rel_done h

theorem Alike.decodeCommand (h : Alike P s t) : (decodeCommand s).Rel (Alike P) (decodeCommand t) := by
  have hfits : t.rectFits = s.rectFits := by obtain ⟨st, d, tbl, -, rfl⟩ := h; rfl
  unfold Machine.decodeCommand
  rw [hfits]
  refine .ite (fun _ => h.readCodeSize.andThen (fun _ _ h => h) fun m u v hm _ h => ?_) fun _ => Res.rel_raised h
  obtain ⟨h1, h2⟩ := readCodeSize_range hm
  have hR := Alike.readerCongruence (P := P)
  refine (hR.skipSubBlocks h).andThen (fun _ _ h => h) fun _ u' v' _ _ h' => ?_
  unfold streamPos
  rw [hR.pos h, hR.pos h']
  exact Alike.seekAtEnd _ ((hR.setPos _ h').decodeImage h1 h2)

/-- DISPOSE as nested tests (42_compositor.md R105 to R108). -/
theorem disposeCommand_eq (s : State) :
    disposeCommand s =
      if s.rectFits then
        if s.gce.disposal = 2 then .done () (disposeToBackground s)
        else if s.gce.disposal = 3 then .done () s else disposeByDrawing s
      else .raised .badRect s := by
  obtain ⟨hf, e⟩ | ⟨hf, hd, e⟩ | ⟨hf, hd, e⟩ | ⟨hf, h2, h3, e⟩ := disposeCommand_cases s
  · rw [e, hf]; rfl
  · rw [e, hf, hd]; rfl
  · rw [e, hf, hd]; rfl
  · rw [e, hf, if_pos rfl, if_neg h2, if_neg h3]

/-- Drawing reads FRAME, the palettes, LPAL_SEL and the transparent index, which are the same. -/
theorem drawCells_withUnread (st : Status) (d : BitVec 16) (tbl : Memory Entry) (s : State) (l : List Nat)
    (canvas : Memory Color) : drawCells (s.withUnread st d tbl) l canvas = drawCells s l canvas := by
  induction l generalizing canvas with
  | nil => rfl
  | cons i rest ih =>
    rw [drawCells, drawCells, show (s.withUnread st d tbl).frameAt i = s.frameAt i from rfl]
    cases s.frameAt i with
    | none => rfl
    | some idx => exact ih _

theorem Alike.disposeByDrawing (h : Alike P s t) : (disposeByDrawing s).Rel (Alike P) (disposeByDrawing t) := by
  obtain ⟨st, d, tbl, hq, rfl⟩ := h
  unfold Machine.disposeByDrawing
  rw [drawCells_withUnread, show (s.withUnread st d tbl).rectCells = s.rectCells from rfl,
    show (s.withUnread st d tbl).canvas = s.canvas from rfl]
  cases drawCells s s.rectCells s.canvas with
  | some canvas => exact Res.rel_done ⟨st, d, tbl, hq, rfl⟩
  | none => exact Res.rel_faulted _

theorem Alike.disposeCommand (h : Alike P s t) : (disposeCommand s).Rel (Alike P) (disposeCommand t) := by
  have hdraw := h.disposeByDrawing
  obtain ⟨st, d, tbl, hq, rfl⟩ := h
  rw [disposeCommand_eq, disposeCommand_eq]
  exact .ite (fun _ => .ite (fun _ => Res.rel_done ⟨st, d, tbl, hq, rfl⟩) fun _ =>
    .ite (fun _ => Res.rel_done ⟨st, d, tbl, hq, rfl⟩) fun _ => hdraw) fun _ => Res.rel_raised ⟨st, d, tbl, hq, rfl⟩

theorem Alike.getKeyCommand (h : Alike P s t) (w : BitVec 4) :
    (getKeyCommand w s).Rel (Alike P) (getKeyCommand w t) :=
  .ite (fun _ => (Alike.readerCongruence.getKey _ h).andThen (fun _ _ h => h)
    fun k _ _ _ _ h => Res.rel_done (h.setKeyOut k)) fun _ => Res.rel_raised h

theorem commandPart_alike (i : Instr) (h : Alike P s t) : (commandPart i s).Rel (Alike P) (commandPart i t) := by
  cases i with
  | init => obtain ⟨st, d, tbl, hq, rfl⟩ := h; exact Res.rel_done ⟨st, 0, tbl, hq, rfl⟩
  | skip => exact Alike.readerCongruence.skipSubBlocks h
  | decode => exact h.decodeCommand
  | dispose => exact h.disposeCommand
  | palWrite sel index color =>
    obtain ⟨st, d, tbl, hq, rfl⟩ := h
    cases sel <;> exact Res.rel_done ⟨st, d, tbl, hq, rfl⟩
  | brReset => exact Res.rel_done (Alike.readerCongruence.setReader _ h)
  | getKey w => exact h.getKeyCommand w

/-- Alike states with one STATUS differ in GCE and T only. -/
theorem Alike.eq_of_status (h : Alike P s t) (hst : t.status = s.status) : t = (s.setGce t.gce).setTable t.table := by
  obtain ⟨st, d, tbl, -, rfl⟩ := h
  obtain rfl : st = s.status := hst
  rfl

theorem Alike.table (h : Alike P s t) (hp : P) : t.table = s.table := by
  obtain ⟨st, d, tbl, hq, rfl⟩ := h
  exact hq hp

/-- A command started in alike states ends alike: in one fault, or in states with one STATUS that are alike. -/
theorem exec_alike (i : Instr) (h : Alike P s t) :
    (∃ u v, exec i s = .next u ∧ exec i t = .next v ∧ Alike P u v ∧ v.status = u.status) ∨
      ∃ f, exec i s = .fault f ∧ exec i t = .fault f := by
  rw [exec_eq_endCommand, exec_eq_endCommand]
  obtain ⟨a, u, v, e, e', huv⟩ | ⟨st, u, v, e, e', huv⟩ | ⟨f, e, e'⟩ := (commandPart_alike i h).cases <;> rw [e, e']
  · obtain ⟨_, d, tbl, hq, rfl⟩ := huv
    exact .inl ⟨_, _, rfl, rfl, ⟨.ok, d, tbl, hq, rfl⟩, rfl⟩
  · obtain ⟨_, d, tbl, hq, rfl⟩ := huv
    exact .inl ⟨_, _, rfl, rfl, ⟨st, d, tbl, hq, rfl⟩, rfl⟩
  · exact .inr ⟨f, rfl, rfl⟩

end

/-- GCE after a command: 0 after INIT, as before after any other. -/
theorem exec_gce {i : Instr} {s t : State} (h : exec i s = .next t) :
    t.gce = if i = .init then { disposal := 0, transp := false, tindex := 0, delay := 0 } else s.gce := by
  split
  next hi => subst hi; cases h; rfl
  next hi =>
    obtain ⟨-, -, -, -, -, -, -, hregs, -⟩ := eachStateHasItsWriters i s t h
    exact (hregs hi).2.2

/-- Settles O47: the two runs are alike with the same T, and INIT or not, GCE ends the same. -/
theorem earlierStatusIsForgotten : Obligations.EarlierStatusIsForgotten := by
  intro i s st
  obtain ⟨u, v, hu, hv, huv, hst⟩ | ⟨f, hu, hv⟩ := exec_alike i (Alike.of_setStatus st s)
  · have hgce : v.gce = u.gce := by rw [exec_gce hu, exec_gce hv]; rfl
    rw [hu, hv, huv.eq_of_status hst, huv.table trivial, hgce]
    rfl
  · rw [hu, hv]

/-- Settles O48: the two runs are alike with the same T, and no command but INIT writes GCE. -/
theorem delayIsNeverRead : Obligations.DelayIsNeverRead := by
  intro i s d hi
  obtain ⟨u, v, hu, hv, huv, hst⟩ | ⟨f, hu, hv⟩ := exec_alike i (Alike.of_withDelay d s)
  · have hgce : v.gce = { u.gce with delay := d } := by
      rw [exec_gce hu, exec_gce hv, if_neg hi, if_neg hi]; rfl
    rw [hu, hv, huv.eq_of_status hst, huv.table trivial, hgce]
    rfl
  · rw [hu, hv]; rfl

/-- A command started with another T ends in the same state but for T. -/
theorem exec_setTable_agree (i : Instr) (s : State) (tbl : Memory Entry) :
    AgreeButTable (exec i s) (exec i (s.setTable tbl)) := by
  obtain ⟨u, v, hu, hv, huv, hst⟩ | ⟨f, hu, hv⟩ := exec_alike i (Alike.of_setTable tbl s)
  · have hgce : v.gce = u.gce := by rw [exec_gce hu, exec_gce hv]; rfl
    rw [hu, hv]
    show u.setTable v.table = v
    conv_rhs => rw [huv.eq_of_status hst, hgce]
    rfl
  · rw [hu, hv]; rfl

/-- Recording the status keeps what two outcomes agree on. -/
theorem recordStatus_agree {o o' : Host.Outcome State Fault Refusal} (h : AgreeButTable o o') :
    AgreeButTable (recordStatus o) (recordStatus o') := by
  cases o with
  | next s =>
    cases o' with
    | next t =>
      have h : s.setTable t.table = t := h
      show s.logStatus.setTable t.table = t.logStatus
      rw [← h]; rfl
    | _ => exact h
  | fault f => cases o' <;> exact h
  | refused r => cases o' <;> exact h

/-- A renderer read looks at no entry of T. -/
theorem answerPort_agree {α : Type} (p : PortRead α) (wrap : α → Reply) (s : State) (tbl : Memory Entry) :
    AgreeButTable (answerPort p wrap s) (answerPort p wrap (s.setTable tbl)) := by
  cases p <;> rfl

theorem memWrite_agree (addr v : Word) (s : State) (tbl : Memory Entry) :
    AgreeButTable (memWrite addr v s) (memWrite addr v (s.setTable tbl)) := by
  obtain ⟨hc, e⟩ | ⟨hc, e⟩ := memWrite_cases addr v s
  · obtain ⟨-, e'⟩ | ⟨hc', -⟩ := memWrite_cases addr v (s.setTable tbl)
    · rw [e, e']
      refine recordStatus_agree ?_
      unfold performWord
      cases decodeWord v with
      | instr i => exact exec_setTable_agree i s tbl
      | reject r => rfl
    · exact absurd hc hc'
  · obtain ⟨hc', -⟩ | ⟨-, e'⟩ := memWrite_cases addr v (s.setTable tbl)
    · exact absurd hc' hc
    · rw [e, e']
      cases regAt addr <;> rfl

/-- An interaction in two states that differ in T: a CMD write performs its command in both, and no other reads T. -/
theorem interact_agree (a : Interaction) (s : State) (tbl : Memory Entry) :
    AgreeButTable (interact a s) (interact a (s.setTable tbl)) := by
  cases a with
  | writeReg addr v => exact memWrite_agree addr v s tbl
  | frameRead i => exact answerPort_agree (framePort s i) _ s tbl
  | canvasRead i => exact answerPort_agree (canvasPort s i) _ s tbl
  | view x y => exact answerPort_agree (viewPort s x y) _ s tbl
  | streamRead =>
    unfold interact hostStreamRead
    dsimp only
    rw [State.setTable_stream, State.setTable_pos]
    cases s.stream[s.pos.toNat]? <;> rfl
  | readReg addr => rfl
  | streamSeek p => rfl
  | streamPos => rfl
  | hardReset => rfl

/-- Settles O49: a command by the comparison of its two runs; no other interaction reads or writes T, but for a reset,
which clears it. -/
theorem staleTableIsUnobservable : Obligations.StaleTableIsUnobservable := by
  intro s tbl
  unfold step performNext
  rw [State.setTable_pending]
  cases s.pending with
  | nil => rfl
  | cons a rest => exact interact_agree a (s.setPending rest) tbl

end Sys2Proof.Machine
end

/-! PROOF. The bit reader over many codes: where it stands when some bits of a code stream have been taken
(40_subblock_reader.md R70, R72, R73). -/

section
namespace Sys2Proof.Safety

open Sys2Proof.Machine

/-! Two readings one after the other. -/

theorem readLength_add (a b rem : Nat) (bytes : List Byte) :
    readLength (a + b) rem bytes =
      readLength a rem bytes + readLength b (blockLeft a rem bytes) (bytes.drop (readLength a rem bytes)) := by
  induction bytes generalizing a rem with
  | nil => simp
  | cons x rest ih =>
    cases a with
    | zero => simp
    | succ a =>
      cases rem with
      | zero =>
        rw [Nat.succ_add, readLength_header, readLength_header, blockLeft_header, List.drop_succ_cons,
          Nat.add_right_comm, ih]
        omega
      | succ rem =>
        rw [Nat.succ_add, readLength_data, readLength_data, blockLeft_data, List.drop_succ_cons, ih]
        omega

theorem blockLeft_add (a b rem : Nat) (bytes : List Byte) :
    blockLeft (a + b) rem bytes = blockLeft b (blockLeft a rem bytes) (bytes.drop (readLength a rem bytes)) := by
  induction bytes generalizing a rem with
  | nil => simp
  | cons x rest ih =>
    cases a with
    | zero => simp
    | succ a =>
      cases rem with
      | zero =>
        rw [Nat.succ_add, blockLeft_header, readLength_header, blockLeft_header, List.drop_succ_cons,
          Nat.add_right_comm, ih]
      | succ rem => rw [Nat.succ_add, blockLeft_data, readLength_data, blockLeft_data, List.drop_succ_cons, ih]

/-- The data bytes after `n` of them have been read. -/
theorem payload_after (n rem : Nat) (bytes : List Byte) (h : n ≤ (payload rem bytes).length) :
    payload (blockLeft n rem bytes) (bytes.drop (readLength n rem bytes)) = (payload rem bytes).drop n := by
  induction bytes generalizing n rem with
  | nil => simp [payload]
  | cons x rest ih =>
    cases n with
    | zero => simp
    | succ n =>
      cases rem with
      | zero =>
        have hx : x ≠ 0 := by rintro rfl; rw [payload_zero_terminator] at h; cases h
        rw [payload_zero_header hx] at h ⊢
        rw [blockLeft_header, readLength_header, List.drop_succ_cons, ih _ _ h]
      | succ rem =>
        rw [payload] at h ⊢
        rw [blockLeft_data, readLength_data, List.drop_succ_cons, List.drop_succ_cons]
        exact ih _ _ (Nat.le_of_succ_le_succ h)

theorem getLastD_append_eq {α : Type} (l l' : List α) (a : α) : (l ++ l').getLastD a = l'.getLastD (l.getLastD a) := by
  simp only [List.getLastD_eq_getLast?, List.getLast?_append]
  cases l'.getLast? <;> simp

section
variable {s t u : State} {a b : Nat}

theorem ReaderAfter.streamFrom (h : ReaderAfter s t a) (hs : t.stream = s.stream) :
    streamFrom t = (streamFrom s).drop (readLength a s.reader.sbRem.toNat (streamFrom s)) :=
  streamFrom_of_pos hs h.1

theorem ReaderAfter.dataLeft (h : ReaderAfter s t a) (hs : t.stream = s.stream) (ha : a ≤ (dataLeft s).length) :
    dataLeft t = (dataLeft s).drop a := by
  rw [Safety.dataLeft, h.streamFrom hs, h.2.1]
  exact payload_after _ _ _ ha

theorem ReaderAfter.trans (h : ReaderAfter s t a) (hs : t.stream = s.stream) (ha : a ≤ (Safety.dataLeft s).length)
    (k : ReaderAfter t u b) : ReaderAfter s u (a + b) := by
  have hfrom := h.streamFrom hs
  have hdata := h.dataLeft hs ha
  obtain ⟨hpos, hrem, hcur⟩ := h
  obtain ⟨kpos, krem, kcur⟩ := k
  refine ⟨?_, ?_, ?_⟩
  · rw [kpos, posAfter, hpos, hrem, hfrom, posAfter, posAfter, blockAfter, readLength_add, Nat.add_assoc]
  · rw [krem, blockAfter, hrem, hfrom, blockAfter, blockAfter, blockLeft_add]
  · rw [kcur, hdata, hcur, List.take_add, getLastD_append_eq]

end

/-! Bits taken from a code stream. -/

theorem unreadBits_of_shift_zero {s : State} (h : s.reader.shift = 0) :
    unreadBits s = (dataLeft s).flatMap byteBits := by
  rw [unreadBits, loadedBits, if_pos h]
  rfl

theorem flatMap_byteBits_length (data : List Byte) : (data.flatMap byteBits).length = 8 * data.length := by
  induction data with
  | nil => rfl
  | cons b rest ih => rw [List.flatMap_cons, List.length_append, byteBits_length, ih, List.length_cons]; omega

/-- The unread bits of CUR_BYTE are counted by SHIFT. -/
theorem loadedBits_length (r : BitReader) :
    (loadedBits r).length = if r.shift.toNat = 0 then 0 else 8 - r.shift.toNat := by
  have hz : r.shift.toNat = 0 ↔ r.shift = 0 :=
    ⟨fun h => BitVec.eq_of_toNat_eq (by simpa using h), fun h => by rw [h]; rfl⟩
  unfold loadedBits
  simp only [hz]
  split
  · rfl
  · rw [List.length_drop, byteBits_length]

/-- `used` bits of the code stream of `s₀`, which starts at a data byte, have been taken, and the reader of `s` has
loaded the data bytes they need and no more. -/
structure BitsTaken (s₀ s : State) (used : Nat) : Prop where
  start : s₀.reader.shift = 0
  stream : s.stream = s₀.stream
  within : used ≤ 8 * (dataLeft s₀).length
  shift : s.reader.shift.toNat = used % 8
  bits : unreadBits s = ((dataLeft s₀).flatMap byteBits).drop used
  reader : ReaderAfter s₀ s ((used + 7) / 8)
  ends : terminated s = terminated s₀

namespace BitsTaken

variable {s₀ s t : State} {used : Nat}

theorem refl (h : s₀.reader.shift = 0) : BitsTaken s₀ s₀ 0 :=
  ⟨h, rfl, Nat.zero_le _, by rw [h]; rfl, unreadBits_of_shift_zero h, ReaderAfter.refl s₀, rfl⟩

/-- A state with the same stream, POS and reader. -/
theorem congr (h : BitsTaken s₀ s used) (hs : t.stream = s.stream) (hp : t.pos = s.pos) (hr : t.reader = s.reader) :
    BitsTaken s₀ t used := by
  obtain ⟨hstart, hstream, hwithin, hshift, hbits, ⟨hpos, hrem, hcur⟩, hends⟩ := h
  refine ⟨hstart, hs.trans hstream, hwithin, by rw [hr, hshift], ?_,
    ⟨by rw [hp, hpos], by rw [hr, hrem], by rw [hr, hcur]⟩, ?_⟩
  · rw [← hbits, unreadBits, unreadBits, hs, hp, hr]
  · rw [← hends, terminated, terminated, streamFrom, streamFrom, hs, hp, hr]

theorem bytes_le (h : BitsTaken s₀ s used) : (used + 7) / 8 ≤ (dataLeft s₀).length := by
  have := h.within
  omega

theorem dataLeft (h : BitsTaken s₀ s used) : dataLeft s = (dataLeft s₀).drop ((used + 7) / 8) :=
  h.reader.dataLeft h.stream h.bytes_le

theorem unread_length (h : BitsTaken s₀ s used) : used + (unreadBits s).length = 8 * (Safety.dataLeft s₀).length := by
  have := h.within
  rw [h.bits, List.length_drop, flatMap_byteBits_length]
  omega

/-- A code of `w` bits is read when the code stream has them (40_subblock_reader.md R72). -/
theorem getKey (h : BitsTaken s₀ s used) (hs : streamWf s₀.stream = true) {w : Nat} (hw : w ≤ 12)
    (hlen : w ≤ (unreadBits s).length) :
    ∃ k t, getKey w s = .done k t ∧ k.toNat = bitsToNat ((unreadBits s).take w) ∧ ReaderOnly s t ∧
      BitsTaken s₀ t (used + w) := by
  have hs' : streamWf s.stream = true := by rw [h.stream]; exact hs
  obtain ⟨t, hkey, hunread, hshift, -, hends, hro, hafter⟩ := getKey_spec w s hs' hw hlen
  have hstream : t.stream = s.stream := by rw [hro]; rfl
  have hcount := h.unread_length
  refine ⟨_, t, hkey, ofNat_bitsToNat_toNat _ ((List.length_take_le _ _).trans hw), hro, h.start,
    hstream.trans h.stream, by omega, ?_, ?_, ?_, hends.trans h.ends⟩
  · rw [hshift, h.shift]
    omega
  · rw [hunread, h.bits, List.drop_drop]
  · have hbytes : (used + 7) / 8 + bytesNeeded w s.reader = (used + w + 7) / 8 := by
      rw [bytesNeeded, loadedBits_length, h.shift]
      split <;> omega
    exact hbytes ▸ h.reader.trans h.stream h.bytes_le hafter

/-- A code that the code stream has not the bits for ends the data (40_subblock_reader.md R73). -/
theorem getKey_short (h : BitsTaken s₀ s used) (hs : streamWf s₀.stream = true) (hends : terminated s₀ = true) {w : Nat}
    (hlen : (unreadBits s).length < w) :
    ∃ t, Machine.getKey w s = .raised .endOfData t ∧ ReaderOnly s t ∧ t.reader.shift = s.reader.shift ∧
      t.reader.sbRem = 0 ∧ t.reader.curByte = (Safety.dataLeft s₀).getLastD s₀.reader.curByte := by
  have hs' : streamWf s.stream = true := by rw [h.stream]; exact hs
  obtain ⟨t, hshift, hro, hterm, -⟩ := Safety.getKey_short w s hs' hlen
  obtain ⟨hkey, hrem, -, hcur⟩ := hterm (h.ends.trans hends)
  obtain ⟨-, -, hcur'⟩ := h.reader
  refine ⟨t, hkey, hro, hshift, hrem, ?_⟩
  rw [hcur, h.dataLeft, hcur', ← getLastD_append_eq, List.take_append_drop]

end BitsTaken

/-- The next code as DECODE reads it: its number, and where the reader stands after it (41_lzw.md R88). -/
theorem BitsTaken.nextCode {s₀ s : State} {used : Nat} (h : BitsTaken s₀ s used) (hs : streamWf s₀.stream = true)
    (hw : s.lzw.ks.toNat ≤ 12) (hlen : s.lzw.ks.toNat ≤ (unreadBits s).length) :
    ∃ k t, Machine.nextCode s = .done k t ∧ k.toNat = bitsToNat ((unreadBits s).take s.lzw.ks.toNat) ∧
      BitsTaken s₀ t (used + s.lzw.ks.toNat) := by
  obtain ⟨k, t, hkey, hk, -, htaken⟩ := h.getKey hs hw hlen
  exact ⟨k, t.setLzw { t.lzw with code := k }, by rw [Machine.nextCode, hkey]; rfl, hk, htaken.congr rfl rfl rfl⟩

/-- The next code when the data is over (40_subblock_reader.md R73). -/
theorem BitsTaken.nextCode_short {s₀ s : State} {used : Nat} (h : BitsTaken s₀ s used)
    (hs : streamWf s₀.stream = true) (hends : terminated s₀ = true) (hlen : (unreadBits s).length < s.lzw.ks.toNat) :
    ∃ t, Machine.nextCode s = .raised .endOfData t ∧ t.lzw = s.lzw ∧ t.reader.shift.toNat = used % 8 ∧
      t.reader.sbRem = 0 ∧ t.reader.curByte = (Safety.dataLeft s₀).getLastD s₀.reader.curByte := by
  obtain ⟨t, hkey, hro, hshift, hrem, hcur⟩ := h.getKey_short hs hends hlen
  exact ⟨t, by rw [Machine.nextCode, hkey]; rfl, by rw [hro]; rfl, by rw [hshift, h.shift], hrem, hcur⟩

/-- A byte follows while the sequence is not over (41_lzw.md R94). -/
theorem BitsTaken.streamRead8 {s₀ s : State} {used : Nat} (h : BitsTaken s₀ s used) (hends : terminated s₀ = true) :
    ∃ b, Machine.streamRead8 s = .done b (s.setPos (s.pos + 1)) := by
  obtain ⟨b, -, e⟩ | ⟨hnone, -⟩ := streamRead8_cases s
  · exact ⟨b, e⟩
  · have hterm := h.ends.trans hends
    have hnil : streamFrom s = [] := List.drop_eq_nil_of_le (List.getElem?_eq_none_iff.mp hnone)
    rw [terminated, hnil, hasTerminator] at hterm
    cases hterm

end Sys2Proof.Safety
end

/-! PROOF. DECODE against LZW over whole strings (41_lzw.md R84 to R96): the strings of the table are the reference's
dictionary, and every round does to the registers what the reference does to its `ImageEnd`. -/

section
namespace Sys2Proof.Safety

open Sys2Proof.Machine

/-! Strings of entries. -/

theorem chainPixels_literal {m : Nat} {s : State} (hc : ChainsWellFormed m s) (fuel : Nat) {e : Nat}
    (he : e < clearCode m) : chainPixels s (fuel + 1) e = [BitVec.ofNat 8 e] := by
  rw [chainPixels, hc.1 e he, if_pos rfl]

/-- A walk's bound does not matter once it is as long as the chain. -/
theorem chainPixels_succ_fuel {m : Nat} {s : State} (hc : ChainsWellFormed m s) (fuel : Nat) {e : Nat}
    (he : DataCode m s.lzw e) (hf : (s.entryAt e).len.toNat ≤ fuel) :
    chainPixels s (fuel + 1) e = chainPixels s fuel e := by
  induction fuel generalizing e with
  | zero =>
    obtain hlit | ⟨hlow, hlt⟩ := dataCode_cases he
    · rw [hc.1 e hlit] at hf
      exact absurd hf (by show ¬ 1 ≤ 0; decide)
    · obtain ⟨-, -, -, hlen, -⟩ := hc.2 e hlt hlow
      omega
  | succ fuel ih =>
    obtain hlit | ⟨hlow, hlt⟩ := dataCode_cases he
    · rw [chainPixels_literal hc _ hlit, chainPixels_literal hc _ hlit]
    · obtain ⟨-, -, -, hlen, -⟩ := hc.2 e hlt hlow
      rw [chainPixels, ih (parent_dataCode hc hlow hlt) (by omega), chainPixels]

namespace TableInvariant

variable {m : Nat} {s : State}

/-- A literal's string is its pixel (41_lzw.md R82). -/
theorem entryString_literal (h : TableInvariant m s) {e : Nat} (he : e < clearCode m) :
    entryString s e = [BitVec.ofNat 8 e] := by
  rw [entryString, show Config.tableCap = 4095 + 1 from rfl, chainPixels_literal h.chains _ he]
  rfl

/-- An entry's string is its parent's with SUFFIX after it (41_lzw.md R85, R91). -/
theorem entryString_parent (h : TableInvariant m s) {e : Nat} (hlow : clearCode m + 2 ≤ e)
    (hlt : e < s.lzw.nentries.toNat) :
    entryString s e = entryString s (s.entryAt e).parent.toNat ++ [(s.entryAt e).suffix] := by
  obtain ⟨-, -, -, hlen, -⟩ := h.chains.2 e hlt hlow
  have hpar := parent_dataCode h.chains hlow hlt
  have hle := h.len_le (e := e) ⟨hlt, by omega, by unfold stopCode; omega⟩
  have hcap : Config.tableCap = 4095 + 1 := rfl
  rw [entryString, entryString, hcap, chainPixels_succ_fuel h.chains _ hpar (by omega), chainPixels,
    if_neg (parent_ne_sentinel h.nentries_le h.chains hlow hlt), List.reverse_cons]

theorem entryString_ne_nil (h : TableInvariant m s) {e : Nat} (he : DataCode m s.lzw e) : entryString s e ≠ [] := by
  obtain hlit | ⟨hlow, hlt⟩ := dataCode_cases he
  · rw [h.entryString_literal hlit]; simp
  · rw [h.entryString_parent hlow hlt]; simp

end TableInvariant

/-- Strings do not change when the defined entries up to theirs do not. -/
theorem entryString_of_agree {m : Nat} {s t : State} (hc : ChainsWellFormed m s) {e : Nat} (he : DataCode m s.lzw e)
    (hagree : ∀ j, j ≤ e → DataCode m s.lzw j → t.entryAt j = s.entryAt j) : entryString t e = entryString s e := by
  rw [entryString, chainPixels_of_agree hc _ he hagree, entryString]

/-- The strings of the entries above the stop code, in order. -/
def dictOf (m : Nat) (s : State) : List (List Byte) :=
  (List.range (s.lzw.nentries.toNat - (clearCode m + 2))).map fun i => entryString s (clearCode m + 2 + i)

@[simp] theorem dictOf_length (m : Nat) (s : State) :
    (dictOf m s).length = s.lzw.nentries.toNat - (clearCode m + 2) := by
  rw [dictOf, List.length_map, List.length_range]

/-- The dictionary's string of a code is the entry's, up to NENTRIES. -/
theorem stringOf_dictOf {m : Nat} {s : State} (h : TableInvariant m s) {c : Nat} (hc : DataCode m s.lzw c)
    (prev : List Byte) : stringOf m (dictOf m s) prev c = entryString s c := by
  unfold stringOf
  obtain hlit | ⟨hlow, hlt⟩ := dataCode_cases hc
  · rw [if_pos hlit, h.entryString_literal hlit]
  · rw [if_neg (by omega), dictOf, List.getElem?_map, List.getElem?_range (by omega)]
    show entryString s _ = _
    congr 1
    omega

/-- The string of the entry to come is the previous one with its own first pixel after it (41_lzw.md R85). -/
theorem stringOf_next {m : Nat} {dict : List (List Byte)} {c : Nat} (hc : c = clearCode m + 2 + dict.length)
    (prev : List Byte) : stringOf m dict prev c = prev ++ prev.take 1 := by
  rw [stringOf, if_neg (by omega), List.getElem?_eq_none (by omega)]
  rfl

theorem take_one_of_ne_nil {l : List Byte} (h : l ≠ []) : l.take 1 = [l.headD 0] := by
  cases l with
  | nil => exact absurd rfl h
  | cons a rest => rfl

/-! The width of a code. -/

/-- KS, FULL and GROW are those of a table with `n` entries at the end of a table step (41_lzw.md R86, R90). -/
structure TableRegisters (n : Nat) (l : Lzw) : Prop where
  nentries : l.nentries.toNat = n
  ks : l.ks.toNat = codeWidth n
  full : l.full = decide (n = 4096)
  grow : l.grow = (decide (n ≠ 4096) && decide (n = 2 ^ codeWidth n))

theorem codeWidth_eq {n w : Nat} (hlo : 2 ^ (w - 1) < n) (hhi : n ≤ 2 ^ w) (hw : 1 ≤ w) : codeWidth n = w := by
  have hlog : Nat.log2 (n - 1) = w - 1 := by
    have hpow : 2 ^ (w - 1 + 1) = 2 ^ w := by rw [Nat.sub_add_cancel hw]
    exact (Nat.log2_eq_iff (by have := Nat.two_pow_pos (w - 1); omega)).mpr ⟨by omega, by omega⟩
  rw [codeWidth, hlog]
  omega

/-- The registers as a clear leaves them (41_lzw.md R82, R84). -/
theorem tableRegisters_of_firstFree {m : Nat} (h1 : 2 ≤ m) (h2 : m ≤ 8) {l : Lzw} (hks : l.ks.toNat = m + 1)
    (hn : l.nentries = firstFree m) (hf : l.full = false) (hg : l.grow = false) :
    TableRegisters (clearCode m + 2) l := by
  obtain ⟨-, hle, hlt⟩ := clearCode_bounds h1 h2
  have hw : codeWidth (clearCode m + 2) = m + 1 :=
    codeWidth_eq (by unfold clearCode; rw [Nat.add_sub_cancel]; omega) hlt.le (by omega)
  refine ⟨by rw [hn, firstFree_toNat h1 h2], by rw [hks, hw], ?_, ?_⟩
  · rw [hf]
    exact (decide_eq_false (by omega)).symm
  · rw [hg, hw, decide_eq_false hlt.ne, Bool.and_false]

/-- A full table stays as it is (41_lzw.md R86, R87). -/
theorem tableRegisters_of_full {l : Lzw} (h : WidthsFit l) (hf : l.full = true) : TableRegisters 4096 l := by
  obtain ⟨hn, hks, hg⟩ := h.1 hf
  exact ⟨hn, by rw [hks]; decide, by rw [hf]; rfl, by rw [hg]; rfl⟩

/-- The registers after an append with no growth pending (41_lzw.md R85, R86). -/
theorem tableRegisters_appended {l : Lzw} (h : WidthsFit l) (hf : l.full = false) (hg : l.grow = false)
    (h0 : 0 < l.nentries.toNat) : TableRegisters (l.nentries.toNat + 1) l.appended := by
  obtain ⟨hn, -, -, hrange⟩ := h.2 hf
  obtain ⟨hlo, hhi⟩ := hrange hg
  have hcap : Config.tableCap = 4096 := rfl
  have hnum : l.appended.nentries.toNat = l.nentries.toNat + 1 := by
    rw [Lzw.appended_nentries, BitVec.toNat_ofNat]; omega
  have hks : 1 ≤ l.ks.toNat := by
    by_contra hz
    rw [show l.ks.toNat = 0 by omega] at hhi
    omega
  have hw : codeWidth (l.nentries.toNat + 1) = l.ks.toNat := codeWidth_eq (by omega) hhi hks
  refine ⟨hnum, ?_, ?_, ?_⟩ <;> unfold Lzw.appended <;> rw [hcap]
  · rw [hw]
    split
    · rfl
    · split <;> rfl
  · split
    next hfull => rw [decide_eq_true hfull]
    next hfull => rw [decide_eq_false hfull]; split <;> exact hf
  · rw [hw]
    split
    next hfull => simp [hfull]
    next hfull =>
      split
      next hpow =>
        obtain ⟨k, hk⟩ := (isPow2_iff _).mp hpow
        have hkw := eq_of_succ_eq_two_pow hlo hhi hk
        rw [decide_eq_true hfull, decide_eq_true (hk.trans (by rw [hkw]))]
        rfl
      next hpow =>
        have hne : l.nentries.toNat + 1 ≠ 2 ^ l.ks.toNat := fun e => hpow ((isPow2_iff _).mpr ⟨_, e⟩)
        simp [hfull, hne, hg]

/-! The table step. -/

/-- The reference's count of entries after a table step, with the string before, if any (41_lzw.md R84 to R87). -/
def entriesAfter (m : Nat) (dict : List (List Byte)) (prev : Option (List Byte)) : Nat :=
  clearCode m + 2 + dict.length +
    if prev.isSome && !decide (clearCode m + 2 + dict.length = Config.tableCap) then 1 else 0

/-- From `s` to `u` a table step does what the reference does with the dictionary `dict` and the previous string `prev`,
if there is one: the registers, the strings of the codes that may follow, and the dictionary once one has followed. -/
structure TableStepMatches (m : Nat) (dict : List (List Byte)) (prev : Option (List Byte)) (s u : State) : Prop where
  inv : TableInvariant m u
  registers : TableRegisters (entriesAfter m dict prev) u.lzw
  patchEn : u.lzw.patchEn = !decide (clearCode m + 2 + dict.length = Config.tableCap)
  code : u.lzw.code = s.lzw.code
  first : u.lzw.first = s.lzw.first
  prevLen : u.lzw.prevLen = s.lzw.prevLen
  readerOnly : u.stream = s.stream ∧ u.pos = s.pos ∧ u.reader = s.reader
  strings : ∀ c, DataCode m u.lzw c → entryString u c = stringOf m dict (prev.getD []) c
  after : ∀ (k : Code) (v : State), v.table = u.table → v.lzw = { u.lzw with code := k } →
    DataCode m u.lzw k.toNat →
    dictOf m (afterDataCode v) =
        extendDict (decide (clearCode m + 2 + dict.length = Config.tableCap)) dict prev (entryString v k.toNat) ∧
      entryString (afterDataCode v) k.toNat = entryString v k.toNat

/-! A data code's effect on the strings. -/

theorem entryString_congr {s t : State} (h : t.table = s.table) (e : Nat) : entryString t e = entryString s e := by
  rw [entryString, chainPixels_congr h, entryString]

theorem dictOf_congr {m : Nat} {s t : State} (hn : t.lzw.nentries = s.lzw.nentries)
    (h : ∀ e, DataCode m s.lzw e → entryString t e = entryString s e) : dictOf m t = dictOf m s := by
  unfold dictOf
  rw [hn]
  refine List.map_congr_left fun i hi => h _ ?_
  have := List.mem_range.mp hi
  exact ⟨by omega, by omega, by unfold stopCode; omega⟩

theorem afterDataCode_nentries (s : State) : (afterDataCode s).lzw.nentries = s.lzw.nentries := by
  rw [afterDataCode_lzw]
  exact Lzw.applyGrowth_nentries _

namespace TableInvariant

variable {m : Nat} {s : State}

/-- A data code leaves the string of every entry that is not fixed up (41_lzw.md R92). -/
theorem entryString_afterDataCode (h : TableInvariant m s) {e : Nat} (he : DataCode m s.lzw e)
    (hbelow : s.lzw.patchEn = true → e < s.lzw.nentries.toNat - 1) :
    entryString (Safety.afterDataCode s) e = entryString s e := by
  refine entryString_of_agree h.chains he fun j hj _ => ?_
  rw [afterDataCode_entryAt, if_neg]
  rintro ⟨hp, rfl⟩
  have := hbelow hp
  omega

/-- The fix-up makes the last entry's string end in the first pixel of the data code's (41_lzw.md R92). -/
theorem entryString_afterDataCode_last (h : TableInvariant m s) (hk : DataCode m s.lzw s.lzw.code.toNat)
    (hp : s.lzw.patchEn = true) {e : Nat} (hlow : clearCode m + 2 ≤ e) (he : e + 1 = s.lzw.nentries.toNat) :
    entryString (Safety.afterDataCode s) e =
      entryString s (s.entryAt e).parent.toNat ++ [(entryString s s.lzw.code.toNat).headD 0] := by
  have hafter := (loopInvariant_iff.mp (h.afterDataCode hk)).1
  have hpar := parent_dataCode h.chains hlow (by omega)
  have hdown := (h.chains.2 e (by omega) hlow).1
  rw [hafter.entryString_parent hlow (by rw [afterDataCode_nentries]; omega), (afterDataCode_links s e).2,
    h.entryString_afterDataCode hpar fun _ => by omega, afterDataCode_entryAt, if_pos ⟨hp, by omega⟩]

end TableInvariant

/-! The table step against the reference, case by case. -/

section
variable {m : Nat} {s : State}

/-- After a clear there is no dictionary and no previous string (41_lzw.md R84). -/
theorem TableInvariant.clear_matches (h : TableInvariant m s) :
    TableStepMatches m [] none s (s.setLzw (s.lzw.clear m)) := by
  have hinv := h.clear
  have hn : (s.setLzw (s.lzw.clear m)).lzw.nentries.toNat = clearCode m + 2 := firstFree_toNat h.sizeLow h.sizeHigh
  obtain ⟨-, hle, -⟩ := clearCode_bounds h.sizeLow h.sizeHigh
  have hcap : Config.tableCap = 4096 := rfl
  have hlit : ∀ c, DataCode m (s.setLzw (s.lzw.clear m)).lzw c → c < clearCode m := fun c hc =>
    (dataCode_cases hc).resolve_right (by omega)
  refine ⟨hinv, tableRegisters_of_firstFree h.sizeLow h.sizeHigh h.initKs rfl rfl rfl, ?_, rfl, rfl, rfl,
    ⟨rfl, rfl, rfl⟩, fun c hc => ?_, fun k v ht hl hk => ⟨?_, ?_⟩⟩
  · rw [decide_eq_false (by rw [List.length_nil]; omega)]
    rfl
  · rw [hinv.entryString_literal (hlit c hc), stringOf, if_pos (hlit c hc)]
  · refine List.eq_nil_of_length_eq_zero ?_
    rw [dictOf_length, afterDataCode_nentries, hl, hn, Nat.sub_self]
  · have hlt := hlit _ hk
    exact (hinv.setCode hl ht).entryString_afterDataCode (by rw [hl]; exact hk) fun _ => by rw [hl, hn]; omega

/-- A frozen table keeps its dictionary (41_lzw.md R87). -/
theorem TableInvariant.frozen_matches (h : TableInvariant m s) (hf : s.lzw.full = true) (p : List Byte) :
    TableStepMatches m (dictOf m s) (some p) s (s.setLzw s.lzw.frozen) := by
  have hinv := h.frozen
  have hn : s.lzw.nentries.toNat = Config.tableCap := (h.widths.1 hf).1
  have hfull : decide (clearCode m + 2 + (dictOf m s).length = Config.tableCap) = true := by
    rw [dictOf_length, decide_eq_true]
    have := h.entriesLow
    omega
  have hkeep : ∀ (k : Code) (v : State), v.table = s.table → v.lzw = { s.lzw.frozen with code := k } →
      ∀ e, DataCode m s.lzw e → entryString (Safety.afterDataCode v) e = entryString v e := fun k v ht hl e he =>
    (hinv.setCode hl ht).entryString_afterDataCode (by rw [hl]; exact he) fun hp => by rw [hl] at hp; cases hp
  refine ⟨hinv, ?_, by rw [hfull]; rfl, rfl, rfl, rfl, ⟨rfl, rfl, rfl⟩, fun c hc => ?_, fun k v ht hl hk => ⟨?_, ?_⟩⟩
  · have hent : entriesAfter m (dictOf m s) (some p) = 4096 := by
      rw [entriesAfter, hfull]
      exact of_decide_eq_true hfull
    rw [hent]
    exact tableRegisters_of_full h.widths hf
  · rw [entryString_congr (s := s) (t := s.setLzw s.lzw.frozen) rfl]
    exact (stringOf_dictOf h hc _).symm
  · rw [hfull, extendDict, if_pos rfl]
    refine dictOf_congr (by rw [afterDataCode_nentries, hl]; rfl) fun e he => ?_
    rw [hkeep k v ht hl e he, entryString_congr (s := s) ht]
  · exact hkeep k v ht hl _ hk

/-- An append makes the entry whose string is the previous one and the first pixel of the next (41_lzw.md R85, R92). -/
theorem TableInvariant.append_matches (h : TableInvariant m s) (hres : DataResolved m s) (hf : s.lzw.full = false)
    (hfirst : s.lzw.first = (entryString s s.lzw.code.toNat).headD 0) :
    TableStepMatches m (dictOf m s) (some (entryString s s.lzw.code.toNat)) s (appendEntry s) := by
  have hinv := h.append hres hf
  have hlow := h.entriesLow
  have hlt := h.lt_of_not_full hf
  have hcap : Config.tableCap = 4096 := rfl
  have hlen : clearCode m + 2 + (dictOf m s).length = s.lzw.nentries.toNat := by rw [dictOf_length]; omega
  have hfull : decide (clearCode m + 2 + (dictOf m s).length = Config.tableCap) = false := decide_eq_false (by omega)
  have hn : (appendEntry s).lzw.nentries.toNat = s.lzw.nentries.toNat + 1 := h.appended_nentries hf
  have hne := h.entryString_ne_nil hres.code
  have hcode : (appendEntry s).lzw.code = s.lzw.code := Lzw.appended_code _
  have hpatch : (appendEntry s).lzw.patchEn = true := Lzw.appended_patchEn _
  -- the strings before the next code
  have hold : ∀ c, DataCode m s.lzw c → entryString (appendEntry s) c = entryString s c := fun c hc =>
    entryString_of_agree h.chains hc fun j hj _ => by
      rw [appendEntry_entryAt, if_neg (by have := hc.1; omega)]
  have hnewEntry : (appendEntry s).entryAt s.lzw.nentries.toNat = newEntry s.lzw := by
    rw [appendEntry_entryAt, if_pos rfl]
  have hnew : entryString (appendEntry s) s.lzw.nentries.toNat =
      entryString s s.lzw.code.toNat ++ (entryString s s.lzw.code.toNat).take 1 := by
    rw [hinv.entryString_parent hlow (by omega), hnewEntry, show (newEntry s.lzw).parent = s.lzw.code from rfl,
      hold _ hres.code, show (newEntry s.lzw).suffix = s.lzw.first from rfl, hfirst, take_one_of_ne_nil hne]
  -- the strings after it
  have hafter : ∀ (k : Code) (v : State), v.table = (appendEntry s).table →
      v.lzw = { (appendEntry s).lzw with code := k } → DataCode m (appendEntry s).lzw k.toNat →
      (∀ c, DataCode m s.lzw c → entryString (Safety.afterDataCode v) c = entryString s c) ∧
        entryString (Safety.afterDataCode v) s.lzw.nentries.toNat =
          entryString s s.lzw.code.toNat ++ (entryString v k.toNat).take 1 := by
    intro k v ht hl hk
    have hv := hinv.setCode hl ht
    have hk' : DataCode m v.lzw v.lzw.code.toNat := by rw [hl]; exact hk
    have hnv : v.lzw.nentries.toNat = s.lzw.nentries.toNat + 1 := by rw [hl]; exact hn
    have hkcode : v.lzw.code = k := by rw [hl]
    refine ⟨fun c hc => ?_, ?_⟩
    · obtain ⟨hlt, hrest⟩ := hc
      rw [hv.entryString_afterDataCode ⟨by omega, hrest⟩ fun _ => by omega, entryString_congr ht, hold c ⟨hlt, hrest⟩]
    · rw [hv.entryString_afterDataCode_last hk' (by rw [hl]; exact hpatch) hlow hnv.symm, State.entryAt_congr ht,
        hnewEntry, show (newEntry s.lzw).parent = s.lzw.code from rfl, entryString_congr ht, hold _ hres.code, hkcode,
        take_one_of_ne_nil (hv.entryString_ne_nil (by rw [hl]; exact hk))]
  have hcases : ∀ c, DataCode m (appendEntry s).lzw c → DataCode m s.lzw c ∨ c = s.lzw.nentries.toNat :=
    fun c ⟨hlt, hrest⟩ => by
      obtain hlt | rfl : c < s.lzw.nentries.toNat ∨ c = s.lzw.nentries.toNat := by omega
      · exact .inl ⟨hlt, hrest⟩
      · exact .inr rfl
  refine ⟨hinv, ?_, by rw [hfull, hpatch]; rfl, hcode, Lzw.appended_first _, Lzw.appended_prevLen _, ⟨rfl, rfl, rfl⟩,
    fun c hc => ?_, fun k v ht hl hk => ?_⟩
  · have hent : entriesAfter m (dictOf m s) (some (entryString s s.lzw.code.toNat)) = s.lzw.nentries.toNat + 1 := by
      rw [entriesAfter, hfull, hlen]
      rfl
    rw [hent]
    exact tableRegisters_appended h.widths hf hres.grow (by omega)
  · obtain hc | rfl := hcases c hc
    · rw [hold c hc, stringOf_dictOf h hc]
    · rw [hnew, stringOf_next hlen.symm]
      rfl
  · obtain ⟨hbelow, hlast⟩ := hafter k v ht hl hk
    refine ⟨?_, ?_⟩
    · rw [hfull, extendDict, if_neg (by simp), dictOf, afterDataCode_nentries, hl]
      show (List.range ((appendEntry s).lzw.nentries.toNat - _)).map _ = _
      rw [hn, Nat.sub_add_comm hlow, List.range_succ, List.map_append]
      congr 1
      · refine List.map_congr_left fun i hi => hbelow _ ?_
        have := List.mem_range.mp hi
        exact ⟨by omega, by omega, by unfold stopCode; omega⟩
      · rw [List.map_singleton, Nat.add_sub_cancel' hlow, hlast]
    · obtain hc | hc := hcases _ hk
      · rw [hbelow _ hc, entryString_congr ht, hold _ hc]
      · rw [hc] at hlast ⊢
        rw [hlast, entryString_congr ht, hnew, List.take_append_of_le_length (List.length_pos_iff.mpr hne)]

end

end Sys2Proof.Safety
end

/-! PROOF. DECODE's loop against the string decoder (41_lzw.md R84 to R92): the registers and the bit reader it
leaves. -/

section
namespace Sys2Proof.Safety

open Sys2Proof.Machine

/-! One round of the reference, in parts. -/

/-- The previous string, if the code before was no clear. -/
def prevString (fresh : Bool) (e : ImageEnd) : Option (List Byte) := if fresh then none else e.last

/-- The table is full before a table step. -/
def dictFull (m : Nat) (dict : List (List Byte)) : Bool := decide (clearCode m + 2 + dict.length = Config.tableCap)

/-- The reference after a table step. -/
def ImageEnd.tableStepped (m : Nat) (dict : List (List Byte)) (prev : Option (List Byte)) (e : ImageEnd) : ImageEnd :=
  { e with entries := entriesAfter m dict prev, patch := some !dictFull m dict }

/-- The reference after a code of `w` bits. -/
def ImageEnd.codeTaken (w : Nat) (e : ImageEnd) : ImageEnd :=
  { e with code := some (bitsToNat (e.rest.take w)), rest := e.rest.drop w }

/-- The reference after a data code's string. -/
def ImageEnd.stringPut (str : List Byte) (e : ImageEnd) : ImageEnd :=
  { e with last := some str, pixels := e.pixels ++ str }

theorem referenceCodes_succ (m fuel : Nat) (dict : List (List Byte)) (fresh : Bool) (e : ImageEnd) :
    referenceCodes m (fuel + 1) dict fresh e =
      let prev := prevString fresh e
      let n := entriesAfter m dict prev
      let w := codeWidth n
      let c := bitsToNat (e.rest.take w)
      let str := stringOf m dict (prev.getD []) c
      let e₁ := e.tableStepped m dict prev
      let e₂ := e₁.codeTaken w
      if e.rest.length < w then { e₁ with status := .endOfData }
      else if c = clearCode m then referenceCodes m fuel [] true e₂
      else if c = stopCode m then { e₂ with status := .ok }
      else if n ≤ c then { e₂ with status := .badCode }
      else referenceCodes m fuel (extendDict (dictFull m dict) dict prev str) false (e₂.stringPut str) := rfl

/-! What the registers say of the reference. -/

/-- CODE, FIRST and PREV_LEN are those of the last code and the last string, or as in `l₀` before (41_lzw.md R91). -/
structure LastMatches (l₀ : Lzw) (e : ImageEnd) (l : Lzw) : Prop where
  code : l.code.toNat = e.code.getD l₀.code.toNat
  first : l.first = (e.last.map fun str => str.headD 0).getD l₀.first
  prevLen : l.prevLen.toNat = (e.last.map List.length).getD l₀.prevLen.toNat

/-- Every LZW register but OFF is the one the reference tells. -/
structure RegistersMatch (m : Nat) (l₀ : Lzw) (e : ImageEnd) (l : Lzw) : Prop extends LastMatches l₀ e l where
  initKs : l.initKs.toNat = m + 1
  table : TableRegisters e.entries l
  patchEn : l.patchEn = e.patch.getD l₀.patchEn

theorem RegistersMatch.setStatus {m : Nat} {l₀ l : Lzw} {e : ImageEnd} (h : RegistersMatch m l₀ e l) (st : Status) :
    RegistersMatch m l₀ { e with status := st } l :=
  ⟨⟨h.code, h.first, h.prevLen⟩, h.initKs, h.table, h.patchEn⟩

/-- A code read into CODE (41_lzw.md R88). -/
theorem RegistersMatch.codeTaken {m w : Nat} {l₀ l : Lzw} {e : ImageEnd} (h : RegistersMatch m l₀ e l) {k : Code}
    (hk : k.toNat = bitsToNat (e.rest.take w)) : RegistersMatch m l₀ (e.codeTaken w) { l with code := k } :=
  ⟨⟨hk, h.first, h.prevLen⟩, h.initKs, ⟨h.table.nentries, h.table.ks, h.table.full, h.table.grow⟩, h.patchEn⟩

/-- The bit reader stands after the bits the reference has taken, or at the terminator with SHIFT as before the read
that met it (40_subblock_reader.md R72, R73). -/
def ReaderMatches (s₀ : State) (e : ImageEnd) (t : State) : Prop :=
  ∃ used, used + e.rest.length = 8 * (dataLeft s₀).length ∧ t.reader.shift.toNat = used % 8 ∧
    (e.status = .endOfData → t.reader.sbRem = 0 ∧ t.reader.curByte = (dataLeft s₀).getLastD s₀.reader.curByte) ∧
    (e.status ≠ .endOfData → BitsTaken s₀ t used)

/-- The registers and the reader of `t` are those the end `e` of an image tells. -/
structure EndMatches (m : Nat) (s₀ : State) (l₀ : Lzw) (e : ImageEnd) (t : State) : Prop where
  registers : RegistersMatch m l₀ e t.lzw
  reader : ReaderMatches s₀ e t

theorem BitsTaken.readerMatches {s₀ t : State} {used : Nat} (h : BitsTaken s₀ t used) {e : ImageEnd}
    (hrest : e.rest = unreadBits t) (hst : e.status ≠ .endOfData) : ReaderMatches s₀ e t :=
  ⟨used, by rw [hrest]; exact h.unread_length, h.shift, fun h => absurd h hst, fun _ => h⟩

/-- The next code when the code stream is too short for it, against the reference. -/
theorem BitsTaken.nextCode_endOfData {m : Nat} {s₀ s : State} {used : Nat} (h : BitsTaken s₀ s used)
    (hs : streamWf s₀.stream = true) (hends : terminated s₀ = true) {l₀ : Lzw} {e : ImageEnd}
    (hregs : RegistersMatch m l₀ e s.lzw) (hrest : e.rest = unreadBits s) (hlen : e.rest.length < s.lzw.ks.toNat)
    (hst : e.status = .endOfData) :
    ∃ t, Machine.nextCode s = .raised .endOfData t ∧ EndMatches m s₀ l₀ e t := by
  obtain ⟨t, hcode, hl, hshift, hrem, hcur⟩ := h.nextCode_short hs hends (by rw [← hrest]; exact hlen)
  exact ⟨t, hcode, by rw [hl]; exact hregs, used, by rw [hrest]; exact h.unread_length, hshift,
    fun _ => ⟨hrem, hcur⟩, fun hne => absurd hst hne⟩

/-! The loop. -/

/-- At the head of DECODE's loop the state says what the reference knows: the dictionary, the code before and its
string, and the bits still to come. -/
structure HeadMatches (m : Nat) (s₀ : State) (l₀ : Lzw) (dict : List (List Byte)) (fresh : Bool) (e : ImageEnd)
    (used : Nat) (s : State) : Prop where
  inv : LoopInvariant m s
  last : LastMatches l₀ e s.lzw
  taken : BitsTaken s₀ s used
  rest : e.rest = unreadBits s
  afterClear : fresh = true → s.lzw.code.toNat = clearCode m ∧ dict = []
  afterData : fresh = false →
    DataResolved m s ∧ dict = dictOf m s ∧ e.last = some (entryString s s.lzw.code.toNat)

/-- The part of a command that ends with a status. -/
def endAs (st : Status) (t : State) : Res Unit := if st = .ok then .done () t else .raised st t

theorem endAs_ok (t : State) : endAs .ok t = .done () t := rfl
theorem endAs_raised {st : Status} (h : st ≠ .ok) (t : State) : endAs st t = .raised st t := if_neg h

theorem endCommand_endAs (st : Status) (t : State) : endCommand (endAs st t) = .next (t.setStatus st) := by
  unfold endAs
  split
  next h => rw [h]; rfl
  next => rfl

section
variable {m : Nat} {s₀ s : State} {l₀ : Lzw} {dict : List (List Byte)} {fresh : Bool} {e : ImageEnd} {used : Nat}

/-- The table step at the head of the loop, against the reference. -/
theorem HeadMatches.tableStep (h : HeadMatches m s₀ l₀ dict fresh e used s) :
    ∃ u, tableStep m s = .done () u ∧ TableStepMatches m dict (prevString fresh e) s u := by
  have htab := (loopInvariant_iff.mp h.inv).1
  cases fresh with
  | true =>
    obtain ⟨hclear, rfl⟩ := h.afterClear rfl
    exact ⟨_, tableStep_clear hclear, htab.clear_matches⟩
  | false =>
    obtain ⟨hres, rfl, hlast⟩ := h.afterData rfl
    have hprev : prevString false e = some (entryString s s.lzw.code.toNat) := hlast
    rw [hprev]
    obtain ⟨hclear, -⟩ | ⟨-, hf, hstep⟩ | ⟨-, hf, hstep⟩ := h.inv.tableStep_cases
    · exact absurd hclear hres.code.2.1
    · exact ⟨_, hstep, htab.frozen_matches hf _⟩
    · refine ⟨_, hstep, htab.append_matches hres hf ?_⟩
      rw [h.last.first, hlast]
      rfl

/-- The registers after the table step. -/
theorem HeadMatches.registers (h : HeadMatches m s₀ l₀ dict fresh e used s) {u : State}
    (hu : TableStepMatches m dict (prevString fresh e) s u) :
    RegistersMatch m l₀ (e.tableStepped m dict (prevString fresh e)) u.lzw :=
  ⟨⟨by rw [hu.code]; exact h.last.code, by rw [hu.first]; exact h.last.first, by rw [hu.prevLen]; exact h.last.prevLen⟩,
    hu.inv.initKs, hu.registers, hu.patchEn⟩

/-- The head of the loop after a data code. -/
theorem headMatches_afterDataCode {prev : Option (List Byte)} {u v : State} {k : Code}
    (hu : TableStepMatches m dict prev s u) (ht : v.table = u.table) (hl : v.lzw = { u.lzw with code := k })
    (hk : DataCode m u.lzw k.toNat) (htaken : BitsTaken s₀ v used) (hrest : e.rest = unreadBits v)
    (hcode : e.code = some k.toNat) :
    HeadMatches m s₀ l₀ (extendDict (dictFull m dict) dict prev (stringOf m dict (prev.getD []) k.toNat)) false
      (e.stringPut (stringOf m dict (prev.getD []) k.toNat)) used (afterDataCode v) := by
  have hv := hu.inv.setCode hl ht
  have hvcode : v.lzw.code = k := by rw [hl]
  have hvk : DataCode m v.lzw k.toNat := by rw [hl]; exact hk
  have hinv := hv.afterDataCode (by rw [hvcode]; exact hvk)
  have hstr : stringOf m dict (prev.getD []) k.toNat = entryString v k.toNat := by
    rw [entryString_congr ht, hu.strings _ hk]
  obtain ⟨hdict, hkeep⟩ := hu.after k v ht hl hk
  have hacode : (afterDataCode v).lzw.code = k := by
    rw [afterDataCode_lzw]; exact (Lzw.applyGrowth_code _).trans hvcode
  have hsame : (afterDataCode v).stream = v.stream ∧ (afterDataCode v).pos = v.pos ∧
      (afterDataCode v).reader = v.reader := by
    rw [afterDataCode_eq]; exact ⟨rfl, rfl, rfl⟩
  obtain ⟨hstream, hpos, hreader⟩ := hsame
  have htaken' := htaken.congr hstream hpos hreader
  rw [hstr]
  refine ⟨hinv, ⟨by rw [hacode]; exact (congrArg (Option.getD · _) hcode).symm, ?_, ?_⟩, htaken', ?_, nofun,
    fun _ => ⟨?_, hdict.symm, ?_⟩⟩
  · rw [afterDataCode_lzw, resolved_lzw, hvcode]
    rfl
  · rw [afterDataCode_lzw, resolved_lzw, hvcode]
    exact (hv.entryString_length hvk).symm
  · show e.rest = _
    rw [hrest, htaken.bits, htaken'.bits]
  · exact (loopInvariant_iff.mp hinv).2.resolve_left (by rw [hacode]; exact hk.2.1)
  · rw [hacode, hkeep]
    rfl

/-- The table step and the read of a code at the head of the loop, against the reference: the data is over, or the code
the reference takes is in CODE. -/
theorem HeadMatches.readCode (h : HeadMatches m s₀ l₀ dict fresh e used s) (hs : streamWf s₀.stream = true)
    (hends : terminated s₀ = true) {prev : Option (List Byte)} (hprev : prev = prevString fresh e) {w : Nat}
    (hw : w = codeWidth (entriesAfter m dict prev)) :
    ∃ u, Machine.tableStep m s = .done () u ∧ TableStepMatches m dict prev s u ∧
      ((e.rest.length < w ∧ ∃ t, nextCode u = .raised .endOfData t ∧
          EndMatches m s₀ l₀ { e.tableStepped m dict prev with status := .endOfData } t) ∨
        (w ≤ e.rest.length ∧ ∃ k v, nextCode u = .done k v ∧ k.toNat = bitsToNat (e.rest.take w) ∧
          RegistersMatch m l₀ ((e.tableStepped m dict prev).codeTaken w) v.lzw ∧ BitsTaken s₀ v (used + w) ∧
          e.rest.drop w = unreadBits v)) := by
  subst hprev
  obtain ⟨u, hstep, hu⟩ := h.tableStep
  obtain ⟨hstream, hpos, hreader⟩ := hu.readerOnly
  have hregs := h.registers hu
  have htaken := h.taken.congr hstream hpos hreader
  have hrest : e.rest = unreadBits u := by rw [h.rest, h.taken.bits, htaken.bits]
  obtain rfl : w = u.lzw.ks.toNat := hw.trans hu.registers.ks.symm
  refine ⟨u, hstep, hu, ?_⟩
  by_cases hlen : e.rest.length < u.lzw.ks.toNat
  · exact .inl ⟨hlen, htaken.nextCode_endOfData hs hends (hregs.setStatus .endOfData) hrest hlen rfl⟩
  · rw [Nat.not_lt] at hlen
    obtain ⟨k, v, hcode, hk, hvtaken⟩ := htaken.nextCode hs hu.inv.ks_le (by rw [← hrest]; exact hlen)
    rw [← hrest] at hk
    refine .inr ⟨hlen, k, v, hcode, hk, ?_, hvtaken, ?_⟩
    · rw [(nextCode_done hcode).1]
      exact hregs.codeTaken hk
    · rw [hrest, htaken.bits, hvtaken.bits, List.drop_drop]

/-- DECODE's loop ends as the reference ends, with the registers and the reader it tells (41_lzw.md R84 to R92). -/
theorem HeadMatches.decodeLoop (hs : streamWf s₀.stream = true) (hends : terminated s₀ = true) (fuel fuel' : Nat)
    (h : HeadMatches m s₀ l₀ dict fresh e used s) (hf : e.rest.length < fuel) (hf' : e.rest.length < fuel') :
    ∃ t, decodeLoop m fuel s = endAs (referenceCodes m fuel' dict fresh e).status t ∧
      EndMatches m s₀ l₀ (referenceCodes m fuel' dict fresh e) t := by
  induction fuel' generalizing fuel dict fresh e used s with
  | zero => omega
  | succ fuel' ih =>
    obtain ⟨fuel, rfl⟩ : ∃ f, fuel = f + 1 := ⟨fuel - 1, by omega⟩
    rw [referenceCodes_succ]
    unfold Machine.decodeLoop Machine.decodeRound
    dsimp only
    set prev := prevString fresh e with hprev
    set w := codeWidth (entriesAfter m dict prev) with hw
    have hw1 : 1 ≤ w := Nat.le_add_left 1 _
    obtain ⟨u, hstep, hu, ⟨hlen, t, hcode, ht⟩ | ⟨hlen, k, v, hcode, hk, hregs, htaken, hrest⟩⟩ :=
      h.readCode hs hends hprev hw <;> rw [hstep, Res.done_andThen, hcode]
    · rw [if_pos hlen]
      exact ⟨t, rfl, ht⟩
    obtain ⟨hl, htable⟩ := nextCode_done hcode
    have hv := hu.inv.nextCode hcode
    have hvcode : v.lzw.code = k := nextCode_code hcode
    have hless : (e.rest.drop w).length < e.rest.length := by rw [List.length_drop]; omega
    rw [if_neg (Nat.not_lt.mpr hlen), Res.done_andThen, ← hk]
    by_cases hclear : k.toNat = clearCode m
    · rw [if_pos hclear, if_pos hclear]
      have hhead : HeadMatches m s₀ l₀ [] true ((e.tableStepped m dict prev).codeTaken w) (used + w) v :=
        ⟨loopInvariant_iff.mpr ⟨hv, .inl (by rw [hvcode, hclear])⟩, hregs.toLastMatches, htaken, hrest,
          fun _ => ⟨by rw [hvcode, hclear], rfl⟩, nofun⟩
      exact ih fuel hhead (hless.trans_le (Nat.le_of_lt_succ hf)) (hless.trans_le (Nat.le_of_lt_succ hf'))
    rw [if_neg hclear, if_neg hclear]
    by_cases hstop : k.toNat = stopCode m
    · rw [if_pos hstop, if_pos hstop]
      exact ⟨v, rfl, hregs.setStatus .ok, htaken.readerMatches hrest nofun⟩
    rw [if_neg hstop, if_neg hstop]
    by_cases hbad : entriesAfter m dict prev ≤ k.toNat
    · rw [if_pos hbad, dataCode, if_pos (by rw [hvcode, hl, hu.registers.nentries]; exact hbad)]
      exact ⟨v, rfl, hregs.setStatus .badCode, htaken.readerMatches hrest nofun⟩
    rw [if_neg hbad]
    have hdata : DataCode m u.lzw k.toNat := ⟨by rw [hu.registers.nentries]; omega, hclear, hstop⟩
    rw [hv.dataCode (by rw [hvcode, hl]; exact hdata)]
    exact ih fuel (headMatches_afterDataCode hu htable hl hdata htaken hrest (congrArg some hk.symm))
      (hless.trans_le (Nat.le_of_lt_succ hf)) (hless.trans_le (Nat.le_of_lt_succ hf'))

end

end Sys2Proof.Safety
end

/-! PROOF. DECODE against the string decoder, from the image to the command (41_lzw.md R78 to R83, R94, R95). -/

section
namespace Sys2Proof.Safety

open Sys2Proof.Machine

/-! The whole image. -/

/-- The reference before its first code. -/
def imageStart (m : Nat) (bits : List Bool) : ImageEnd :=
  { status := .endOfData, pixels := [], code := none, last := none, entries := clearCode m + 2, patch := none,
    rest := bits }

theorem referenceImage_eq (m : Nat) (bits : List Bool) :
    referenceImage m bits =
      let e := (imageStart m bits).codeTaken (m + 1)
      if bits.length < m + 1 then imageStart m bits
      else if bitsToNat (bits.take (m + 1)) = clearCode m then referenceCodes m (bits.length + 1) [] true e
      else { e with status := .noClearCode } := rfl

theorem payload_length_le (rem : Nat) (bytes : List Byte) : (payload rem bytes).length ≤ bytes.length := by
  induction bytes generalizing rem with
  | nil => simp [payload]
  | cons b rest ih =>
    cases rem with
    | zero =>
      by_cases hb : b = 0
      · subst hb; rw [payload_zero_terminator]; exact Nat.zero_le _
      · rw [payload_zero_header hb]; exact Nat.le_succ_of_le (ih _)
    | succ rem => rw [payload]; exact Nat.succ_le_succ (ih _)

theorem dataLeft_length_le (s : State) : (dataLeft s).length ≤ s.stream.length :=
  (payload_length_le _ _).trans (by rw [streamFrom, List.length_drop]; exact Nat.sub_le _ _)

theorem startDecode_stream_pos (m : Nat) (s : State) :
    (startDecode m s).stream = s.stream ∧ (startDecode m s).pos = s.pos := by
  unfold startDecode
  rw [writeLiterals_tableOnly]
  exact ⟨rfl, rfl⟩

section
variable {m : Nat} {s : State} (h1 : 2 ≤ m) (h2 : m ≤ 8)
include h1 h2

/-- The registers after initialisation (41_lzw.md R82). -/
theorem registersMatch_start (l : Lzw) (bits : List Bool) : RegistersMatch m l (imageStart m bits) (l.start m) :=
  ⟨⟨rfl, rfl, rfl⟩, start_initKs h2 l, tableRegisters_of_firstFree h1 h2 (start_initKs h2 l) rfl rfl rfl, rfl⟩

/-- The first code and the loop end as the reference ends (41_lzw.md R83). -/
theorem decodeCodes_matches (hs : streamWf s.stream = true) (hends : terminated (startDecode m s) = true) :
    ∃ t, decodeCodes m (startDecode m s) =
        endAs (referenceImage m ((dataLeft (startDecode m s)).flatMap byteBits)).status t ∧
      EndMatches m (startDecode m s) s.lzw (referenceImage m ((dataLeft (startDecode m s)).flatMap byteBits)) t := by
  set s₀ := startDecode m s with hs₀
  set bits := (dataLeft s₀).flatMap byteBits with hbits
  have hstream : s₀.stream = s.stream := (startDecode_stream_pos m s).1
  have hs' : streamWf s₀.stream = true := by rw [hstream]; exact hs
  have htaken : BitsTaken s₀ s₀ 0 := BitsTaken.refl rfl
  have hunread : bits = unreadBits s₀ := htaken.bits.symm
  have hregs : RegistersMatch m s.lzw (imageStart m bits) s₀.lzw := by
    rw [hs₀, startDecode_lzw]; exact registersMatch_start h1 h2 _ _
  have hinv := TableInvariant.startDecode h1 h2 s
  have hks : s₀.lzw.ks.toNat = m + 1 := by rw [hs₀, startDecode_lzw]; exact start_initKs h2 s.lzw
  rw [referenceImage_eq]
  unfold decodeCodes
  dsimp only
  by_cases hlen : bits.length < m + 1
  · rw [if_pos hlen]
    obtain ⟨t, hcode, ht⟩ := htaken.nextCode_endOfData hs' hends hregs hunread (by rw [hks]; exact hlen) rfl
    exact ⟨t, by rw [hcode]; rfl, ht⟩
  rw [if_neg hlen]
  obtain ⟨k, v, hcode, hk, hvtaken⟩ := htaken.nextCode hs' (by omega) (by rw [hks, ← hunread]; omega)
  obtain ⟨hl, -⟩ := nextCode_done hcode
  rw [hks, ← hunread] at hk
  rw [hks] at hvtaken
  have hvrest : bits.drop (m + 1) = unreadBits v := by rw [hvtaken.bits, Nat.zero_add]
  have hvregs : RegistersMatch m s.lzw ((imageStart m bits).codeTaken (m + 1)) v.lzw := by
    rw [hl]; exact hregs.codeTaken hk
  rw [hcode, Res.done_andThen, ← hk]
  by_cases hclear : k.toNat = clearCode m
  · rw [if_pos hclear, if_pos hclear]
    have hhead : HeadMatches m s₀ s.lzw [] true ((imageStart m bits).codeTaken (m + 1)) (0 + (m + 1)) v :=
      ⟨loopInvariant_of_firstCode h1 h2 hcode hclear, hvregs.toLastMatches, hvtaken, hvrest,
        fun _ => ⟨by rw [hl]; exact hclear, rfl⟩, nofun⟩
    have hrestlen : ((imageStart m bits).codeTaken (m + 1)).rest.length ≤ bits.length := by
      show (bits.drop _).length ≤ _
      rw [List.length_drop]
      omega
    have hbound : bits.length ≤ 8 * v.stream.length := by
      rw [hbits, flatMap_byteBits_length, hvtaken.stream]
      exact Nat.mul_le_mul_left _ (dataLeft_length_le s₀)
    exact hhead.decodeLoop hs' hends _ _ (by omega) (by omega)
  · rw [if_neg hclear, if_neg hclear]
    exact ⟨v, rfl, hvregs.setStatus .noClearCode, hvtaken.readerMatches hvrest nofun⟩

/-- After the stop code one byte more is read and discarded, and it is there (41_lzw.md R94). -/
theorem decodeImage_matches (hs : streamWf s.stream = true) (hends : terminated (startDecode m s) = true) :
    ∃ t u, decodeImage m s = endAs (referenceImage m ((dataLeft (startDecode m s)).flatMap byteBits)).status u ∧
      EndMatches m (startDecode m s) s.lzw (referenceImage m ((dataLeft (startDecode m s)).flatMap byteBits)) t ∧
      u.lzw = t.lzw ∧ u.reader = t.reader := by
  obtain ⟨t, hcodes, ht⟩ := decodeCodes_matches h1 h2 hs hends
  unfold decodeImage
  rw [hcodes]
  by_cases hok : (referenceImage m ((dataLeft (startDecode m s)).flatMap byteBits)).status = .ok
  · obtain ⟨used, -, -, -, htaken⟩ := ht.reader
    obtain ⟨b, hread⟩ := (htaken (by rw [hok]; nofun)).streamRead8 hends
    refine ⟨t, t.setPos (t.pos + 1), ?_, ht, rfl, rfl⟩
    rw [hok, endAs_ok, Res.done_andThen, hread]
    rfl
  · exact ⟨t, t, by rw [endAs_raised hok]; rfl, ht, rfl, rfl⟩

end

theorem seekAtEnd_endAs (p : BitVec 32) (st : Status) (t : State) :
    seekAtEnd p (endAs st t) = endAs st (streamSeek p t) := by
  unfold endAs
  split <;> rfl

/-- DECODE of an image whose rectangle fits, whose code-size byte is in 2..8 and whose data has a terminator
(41_lzw.md R78 to R81, R94, R95): the image is decoded from just past that byte, and POS set at the end. -/
theorem execDecode_eq {s : State} {m : Byte} (hs : streamWf s.stream = true) (hfits : s.rectFits = true)
    (hm : s.stream[s.pos.toNat]? = some m) (h1 : 2 ≤ m.toNat) (h2 : m.toNat ≤ 8)
    (hends : hasTerminator 0 (s.stream.drop (s.pos.toNat + 1)) = true) :
    (s.pos + 1).toNat = s.pos.toNat + 1 ∧
      ∃ p, exec .decode s = endCommand (seekAtEnd p (decodeImage m.toNat (s.setPos (s.pos + 1)))) := by
  have hlt : s.pos.toNat < s.stream.length := (List.getElem?_eq_some_iff.mp hm).1
  have hfrom : streamFrom s = m :: s.stream.drop (s.pos.toNat + 1) := by
    rw [streamFrom, List.drop_eq_getElem_cons hlt, (List.getElem?_eq_some_iff.mp hm).2]
  obtain ⟨hread, hpos, hrest⟩ := streamRead8_of_cons hs hfrom
  have hsize : readCodeSize s = .done m.toNat (s.setPos (s.pos + 1)) := by
    have hrange : (decide (m.toNat < Config.minCodeSize) || decide (Config.maxCodeSize < m.toNat)) = false := by
      have hlow : ¬ m.toNat < Config.minCodeSize := Nat.not_lt.mpr h1
      have hhigh : ¬ Config.maxCodeSize < m.toNat := Nat.not_lt.mpr h2
      rw [decide_eq_false hlow, decide_eq_false hhigh, Bool.or_false]
    rw [readCodeSize, hread, Res.done_andThen, hrange]
    rfl
  obtain ⟨p, -, hskip⟩ := skipSubBlocks_spec (s.setPos (s.pos + 1)) hs
  rw [hrest, hends, if_pos rfl] at hskip
  refine ⟨hpos, p, ?_⟩
  show endCommand (decodeCommand s) = _
  rw [decodeCommand, if_pos hfits, hsize, Res.done_andThen]
  dsimp only
  rw [hskip]
  rfl

/-- Settles O53: DECODE's codes are decoded as the reference decodes them (`decodeCodes_matches`), the byte after stop
and the seek change POS only. -/
theorem decodeLeavesRegisters : Obligations.DecodeLeavesRegisters := by
  intro s m hs hfits hm h1 h2 hends
  obtain ⟨hpos, p, hexec⟩ := execDecode_eq hs hfits hm h1 h2 hends
  set s₁ := s.setPos (s.pos + 1) with hs₁
  have hfrom : streamFrom (startDecode m.toNat s₁) = s.stream.drop (s.pos.toNat + 1) := by
    obtain ⟨hstream, hp⟩ := startDecode_stream_pos m.toNat s₁
    rw [streamFrom, hstream, hp, ← hpos]
    rfl
  have hdata : dataLeft (startDecode m.toNat s₁) = payload 0 (s.stream.drop (s.pos.toNat + 1)) := by
    rw [dataLeft, hfrom]; rfl
  have hterm : terminated (startDecode m.toNat s₁) = true := by rw [terminated, hfrom]; exact hends
  obtain ⟨t, u, himage, ⟨hregs, used, hused, hshift, hover, htaken⟩, hl, hr⟩ :=
    decodeImage_matches (s := s₁) h1 h2 hs hterm
  rw [hdata] at himage hregs hused hover htaken
  rw [himage, seekAtEnd_endAs, endCommand_endAs] at hexec
  refine ⟨_, _, _, used, _, rfl, rfl, rfl, hused, hexec, ?_⟩
  show u.lzw.code.toNat = _ ∧ u.lzw.first = _ ∧ u.lzw.prevLen.toNat = _ ∧ u.lzw.initKs.toNat = _ ∧
    u.lzw.nentries.toNat = _ ∧ u.lzw.ks.toNat = _ ∧ u.lzw.full = _ ∧ u.lzw.grow = _ ∧ u.lzw.patchEn = _ ∧
    u.reader.shift.toNat = _ ∧ (_ → u.reader.sbRem = _ ∧ u.reader.curByte = _) ∧
    (_ → u.reader.sbRem.toNat = _ ∧ u.reader.curByte = _)
  rw [hl, hr]
  refine ⟨hregs.code, hregs.first, hregs.prevLen, hregs.initKs, hregs.table.nentries, hregs.table.ks, hregs.table.full,
    hregs.table.grow, hregs.patchEn, hshift, hover, fun hne => ?_⟩
  obtain ⟨-, hrem, hcur⟩ := (htaken hne).reader
  rw [blockAfter, hfrom] at hrem
  rw [hdata] at hcur
  exact ⟨hrem, hcur⟩

end Sys2Proof.Safety
end

/-! PROOF. What the host, the renderer and the stream provider get from the block between commands: the address bits the
register port decodes, the renderer's ports, and the moves in the stream (20_memory.md R38, R43 to R46, R51, R59). -/

section
namespace Sys2Proof.Machine

/-! The register port. -/

/-- The register at an address is told by address bits 7 to 2 (20_memory.md R38). -/
theorem regAt_eq_of_wordOffset {a b : Word} (h : a.toNat / 4 % 64 = b.toNat / 4 % 64) : regAt a = regAt b := by
  have hbits : a.extractLsb' 2 6 = b.extractLsb' 2 6 := BitVec.eq_of_toNat_eq (by
    simpa [BitVec.extractLsb'_toNat, Nat.shiftRight_eq_div_pow] using h)
  rw [regAt, regAt, hbits]

/-- Settles O10: a read and a write go by the register at the address. -/
theorem portIgnoresOtherAddressBits : Obligations.PortIgnoresOtherAddressBits := by
  intro a b v s h
  have hreg := regAt_eq_of_wordOffset h
  exact ⟨by rw [memRead, memRead, hreg], by rw [memWrite, memWrite, hreg]⟩

/-! The next interaction. -/

/-- A step with an interaction pending performs it and takes it off the list (70_reset_and_hazards.md R138). -/
theorem step_of_pending {s : State} {a : Interaction} {rest : List Interaction} (h : s.pending = a :: rest) :
    step s = interact a (s.setPending rest) := by
  rw [step, performNext, h]

/-! The renderer's ports. -/

/-- FrameRead of a cell that holds a value gives it (20_memory.md R59). -/
theorem framePort_of_some {s : State} {i : Nat} {v : Byte} (hi : i < s.cells) (h : s.frameAt i = some v) :
    framePort s i = .value v := by
  rw [framePort, if_pos hi, h]

/-- FrameRead of a cell nothing has written is a fault (70_reset_and_hazards.md R124). -/
theorem framePort_of_none {s : State} {i : Nat} (hi : i < s.cells) (h : s.frameAt i = none) :
    framePort s i = .faulted .unwrittenFrame := by
  rw [framePort, if_pos hi, h]

/-- CanvasRead of a cell that holds a colour gives it (20_memory.md R59). -/
theorem canvasPort_of_some {s : State} {i : Nat} {c : Color} (hi : i < s.cells) (h : s.canvasAt i = some c) :
    canvasPort s i = .value c := by
  rw [canvasPort, if_pos hi, h]

/-- CanvasRead of a cell nothing has written is a fault (70_reset_and_hazards.md R124). -/
theorem canvasPort_of_none {s : State} {i : Nat} (hi : i < s.cells) (h : s.canvasAt i = none) :
    canvasPort s i = .faulted .unwrittenCanvas := by
  rw [canvasPort, if_pos hi, h]

@[simp] theorem framePort_setPending (s : State) (rest : List Interaction) (i : Nat) :
    framePort (s.setPending rest) i = framePort s i := rfl
@[simp] theorem canvasPort_setPending (s : State) (rest : List Interaction) (i : Nat) :
    canvasPort (s.setPending rest) i = canvasPort s i := rfl
@[simp] theorem viewPort_setPending (s : State) (rest : List Interaction) (x y : Nat) :
    viewPort (s.setPending rest) x y = viewPort s x y := rfl

@[simp] theorem answerPort_value {α : Type} (v : α) (wrap : α → Reply) (s : State) :
    answerPort (.value v) wrap s = .next (s.reply (wrap v)) := rfl
@[simp] theorem answerPort_faulted {α : Type} (f : Fault) (wrap : α → Reply) (s : State) :
    answerPort (.faulted f) wrap s = .fault f := rfl

/-- A renderer read that answers adds one reply and changes nothing else. -/
theorem answerPort_eq_next {α : Type} {p : PortRead α} {wrap : α → Reply} {s t : State}
    (h : answerPort p wrap s = .next t) : ∃ r, t = s.reply r := by
  obtain ⟨v, -, e⟩ | ⟨f, -, e⟩ := answerPort_cases p wrap s
  · rw [e] at h; cases h; exact ⟨wrap v, rfl⟩
  · rw [e] at h; cases h

/-- FrameRead as a step: its port's value is answered, or its fault stops the run (70_reset_and_hazards.md R138). -/
theorem step_frameRead {s : State} {i : Nat} {rest : List Interaction} (h : s.pending = .frameRead i :: rest) :
    step s = answerPort (framePort s i) .pixel (s.setPending rest) := by
  rw [step_of_pending h, interact, framePort_setPending]

/-- CanvasRead as a step: its port's value is answered, or its fault stops the run (70_reset_and_hazards.md R138). -/
theorem step_canvasRead {s : State} {i : Nat} {rest : List Interaction} (h : s.pending = .canvasRead i :: rest) :
    step s = answerPort (canvasPort s i) .color (s.setPending rest) := by
  rw [step_of_pending h, interact, canvasPort_setPending]

/-- View as a step: its port's value is answered, or its fault stops the run (70_reset_and_hazards.md R138). -/
theorem step_view {s : State} {x y : Nat} {rest : List Interaction} (h : s.pending = .view x y :: rest) :
    step s = answerPort (viewPort s x y) .color (s.setPending rest) := by
  rw [step_of_pending h, interact, viewPort_setPending]

/-- Settles O7: a register read and a position query only reply, and so does a renderer read that answers
(`answerPort_eq_next`). -/
theorem readsChangeNoState : Obligations.ReadsChangeNoState := by
  intro s rest
  refine ⟨fun addr h => ?_, fun h => ?_, fun i x y t h ht => ?_⟩
  · rw [step_of_pending h]; rfl
  · rw [step_of_pending h]; rfl
  · obtain h | h | h := h
    · exact answerPort_eq_next (step_frameRead h ▸ ht)
    · exact answerPort_eq_next (step_canvasRead h ▸ ht)
    · exact answerPort_eq_next (step_view h ▸ ht)

/-- Settles O8: each port by the cell it reads, and each step by its port. -/
theorem rendererPortsReadCells : Obligations.RendererPortsReadCells := by
  refine ⟨fun s i rest hi => ⟨fun h => ?_, fun h => ?_⟩, fun s x y rest h => ?_⟩
  · rw [step_frameRead h]
    exact ⟨fun v hv => by rw [framePort_of_some hi hv, answerPort_value],
      fun hnone => by rw [framePort_of_none hi hnone, answerPort_faulted]⟩
  · rw [step_canvasRead h]
    exact ⟨fun c hc => by rw [canvasPort_of_some hi hc, answerPort_value],
      fun hnone => by rw [canvasPort_of_none hi hnone, answerPort_faulted]⟩
  · rw [step_view h]
    exact ⟨fun c hc => by rw [hc, answerPort_value], fun f hf => by rw [hf, answerPort_faulted]⟩

/-! The stream. -/

/-- Settles O14: what is left of the stream at POS is empty, or begins with the byte at POS. -/
theorem streamReadAndSeek : Obligations.StreamReadAndSeek := by
  intro s hs
  refine ⟨fun hend => Safety.streamRead8_of_nil (List.drop_eq_nil_of_le hend), fun b hb => ?_, fun p => ⟨rfl, rfl⟩⟩
  obtain ⟨hlt, rfl⟩ := List.getElem?_eq_some_iff.mp hb
  obtain ⟨hread, hpos, -⟩ := Safety.streamRead8_of_cons hs (List.drop_eq_getElem_cons hlt)
  exact ⟨_, hread, hpos, rfl⟩

/-- Settles O54: a seek by itself, a read by the two ways it can go (`hostStreamRead_cases`). -/
theorem hostStreamMoves : Obligations.HostStreamMoves := by
  intro s rest
  refine ⟨fun p h => ?_, fun h => ?_⟩
  · rw [step_of_pending h]; rfl
  rw [step_of_pending h, interact]
  obtain ⟨c, hc, hread⟩ | ⟨hnone, hread⟩ := hostStreamRead_cases (s.setPending rest) <;> rw [hread]
  · refine ⟨fun b hb => ?_, fun hend => ?_⟩
    · obtain rfl : c = b := Option.some.inj (hc.symm.trans hb)
      rfl
    · exact absurd hc (by simp [hend])
  · exact ⟨fun b hb => absurd (hnone.symm.trans hb) nofun, fun _ => rfl⟩

end Sys2Proof.Machine
end

/-! PROOF. The command words (30_encoding.md R60 to R63, R66 to R68): decoder and encoder as each other's inverse, the
reserved words, the lines of the pseudo-instructions, and the step that runs a placed word. -/

section
namespace Sys2Proof

/-! The fields of each format. -/

/-- Two fields side by side are a word exactly when they are its two parts. -/
theorem append_eq_iff {m n : Nat} {a : BitVec m} {b : BitVec n} {w : BitVec (m + n)} :
    a ++ b = w ↔ a = w.extractLsb' n m ∧ b = w.extractLsb' 0 n := by
  constructor
  · rintro rfl
    exact ⟨BitVec.extractLsb'_append_eq_left.symm, BitVec.extractLsb'_append_eq_right.symm⟩
  · rintro ⟨rfl, rfl⟩
    exact BitVec.extractLsb'_append_extractLsb'

/-- A field of a field is a field of the word. -/
theorem extractLsb'_extractLsb' {n : Nat} (w : BitVec n) (j l : Nat) {i k : Nat} (h : i + k ≤ l) :
    (w.extractLsb' j l).extractLsb' i k = w.extractLsb' (j + i) k := by
  ext b hb
  have hlt : i + b < l := by omega
  simp [hlt, Nat.add_assoc]

/-- The palette of a word is told by its bit SEL (30_encoding.md R61). -/
theorem eq_fieldSel_iff {w : Word} {sel : PalSel} : sel = fieldSel w ↔ selBit sel = w.extractLsb' 4 1 := by
  unfold fieldSel
  generalize w.extractLsb' 4 1 = b
  revert b
  cases sel <;> decide

section
variable {w : Word} {op : BitVec 4}

/-- Format N is the word with these fields (30_encoding.md R60). -/
theorem formatN_eq_iff : formatN op = w ↔ 0 = w.extractLsb' 4 28 ∧ op = fieldOp w := append_eq_iff

/-- Format P is the word with these fields (30_encoding.md R60, R61). -/
theorem formatP_eq_iff {color : Color} {index : Byte} {sel : PalSel} :
    formatP color index (selBit sel) op = w ↔
      color = fieldColor w ∧ index = fieldIndex w ∧ 0 = w.extractLsb' 5 3 ∧ sel = fieldSel w ∧ op = fieldOp w := by
  rw [formatP, append_eq_iff, append_eq_iff, append_eq_iff, append_eq_iff, eq_fieldSel_iff]
  simp only [extractLsb'_extractLsb', Nat.reduceAdd, Nat.reduceLeDiff, and_assoc]
  rfl

/-- Format K is the word with these fields (30_encoding.md R60, R61). -/
theorem formatK_eq_iff {width : BitVec 4} :
    formatK width op = w ↔ 0 = w.extractLsb' 8 24 ∧ width = fieldWidth w ∧ op = fieldOp w := by
  rw [formatK, append_eq_iff, append_eq_iff]
  simp only [extractLsb'_extractLsb', Nat.reduceAdd, Nat.reduceLeDiff, and_assoc]
  rfl

end

/-! The decoder and the encoder. -/

theorem requireZero_eq_instr {n : Nat} {mbz : BitVec n} {i j : Instr} :
    requireZero mbz i = .instr j ↔ 0 = mbz ∧ j = i := by
  unfold requireZero
  split
  next h => exact ⟨fun hi => ⟨h.symm, (Decoded.instr.inj hi).symm⟩, fun ⟨_, hj⟩ => hj ▸ rfl⟩
  next h => exact ⟨nofun, fun ⟨hz, _⟩ => absurd hz.symm h⟩

/-- The decoder reads every field where the encoder put it (30_encoding.md R60, R62). -/
theorem decodeWord_encode (i : Instr) : decodeWord (encode i) = .instr i := by
  cases i with
  | init | skip | decode | dispose | brReset => decide
  | palWrite sel index color =>
    obtain ⟨hcolor, hindex, hmbz, hsel, hop⟩ := formatP_eq_iff.mp (Eq.refl (encode (.palWrite sel index color)))
    rw [decodeWord, ← hop]
    exact requireZero_eq_instr.mpr ⟨hmbz, (Instr.palWrite.injEq ..).mpr ⟨hsel, hindex, hcolor⟩⟩
  | getKey w =>
    obtain ⟨hmbz, hwidth, hop⟩ := formatK_eq_iff.mp (Eq.refl (encode (.getKey w)))
    rw [decodeWord, ← hop]
    exact requireZero_eq_instr.mpr ⟨hmbz, congrArg Instr.getKey hwidth⟩

/-- A word that decodes is made of the fields the decoder read (30_encoding.md R60, R62). -/
theorem encode_of_decodeWord {w : Word} {i : Instr} (h : decodeWord w = .instr i) : encode i = w := by
  have hfieldOp {op : BitVec 4} (hop : (fieldOp w).toNat = op.toNat) : op = fieldOp w := (BitVec.eq_of_toNat_eq hop).symm
  unfold decodeWord at h
  split at h
  case h_5 hop =>
    obtain ⟨hmbz, rfl⟩ := requireZero_eq_instr.mp h
    exact formatP_eq_iff.mpr ⟨rfl, rfl, hmbz, rfl, hfieldOp hop⟩
  case h_7 hop =>
    obtain ⟨hmbz, rfl⟩ := requireZero_eq_instr.mp h
    exact formatK_eq_iff.mpr ⟨hmbz, rfl, hfieldOp hop⟩
  case h_8 => cases h
  all_goals
    next hop =>
    obtain ⟨hmbz, rfl⟩ := requireZero_eq_instr.mp h
    exact formatN_eq_iff.mpr ⟨hmbz, hfieldOp hop⟩

/-- Settles O1: the encoder undoes the decoder, and the decoder the encoder. -/
theorem wordDecodesIffEncoded : Obligations.WordDecodesIffEncoded :=
  fun _ _ => ⟨encode_of_decodeWord, fun h => h ▸ decodeWord_encode _⟩

/-- Settles O3: the words as printed, and each decodes because it is an encoding (`wordDecodesIffEncoded`). -/
theorem workedEncodings : Obligations.WorkedEncodings := by
  unfold Obligations.WorkedEncodings
  simp only [wordDecodesIffEncoded _ _]
  decide

/-! Reserved words. -/

/-- A word with a reserved OP or a must-be-zero bit that is one, as a number (30_encoding.md R62, R63). -/
def ReservedWord (n : Nat) : Prop :=
  n % 16 = 0 ∨ 8 ≤ n % 16 ∨ (n % 16 = 5 ∧ n / 32 % 8 ≠ 0) ∨ (n % 16 = 7 ∧ n / 256 ≠ 0) ∨
    (n % 16 ≠ 5 ∧ n % 16 ≠ 7 ∧ n / 16 ≠ 0)

/-- No encoding is a reserved word (30_encoding.md R62). -/
theorem encode_not_reserved (i : Instr) : ¬ ReservedWord (encode i).toNat := by
  unfold ReservedWord
  cases i with
  | init | skip | decode | dispose | brReset => decide
  | palWrite sel index color =>
    rw [encode, formatP_toNat]
    have := (selBit sel).isLt
    simp; omega
  | getKey w =>
    rw [encode, formatK_toNat]
    have := w.isLt
    simp; omega

/-- Settles O2: a reserved word is no encoding, so it decodes to nothing (`encode_of_decodeWord`). -/
theorem reservedWordChangesStatusOnly : Obligations.ReservedWordChangesStatusOnly := by
  intro w s hres
  have hnone : ∀ i, decodeWord w ≠ .instr i := by
    intro i hi
    obtain rfl := encode_of_decodeWord hi
    exact encode_not_reserved i hres
  obtain ⟨i, hi, -⟩ | ⟨-, -, hperform⟩ := Machine.performWord_cases w s
  · exact absurd hi (hnone i)
  · exact ⟨hnone, hperform, rfl⟩

end Sys2Proof

namespace Sys2Proof.Machine

/-! The lines of a host program. -/

/-- A WR line of a register other than CMD, as a step (30_encoding.md R66). -/
theorem step_wr {s : State} {r : Reg} {v : Word} {rest : List Interaction}
    (h : s.pending = (Line.wr r v).interaction :: rest) (hr : r ≠ .cmd) :
    step s = .next ((s.setPending rest).writeReg r v) := by
  rw [step_of_pending h, Line.interaction, interact]
  obtain ⟨hcmd, -⟩ | ⟨-, hwrite⟩ := memWrite_cases r.offset v (s.setPending rest)
  · rw [regAt_offset] at hcmd
    exact absurd hcmd hr
  · rw [hwrite, regAt_offset]

/-- The halves of FRAME_POS and FRAME_SIZE as SET_RECT puts them together (10_state.md R22, 30_encoding.md R67). -/
theorem halves_eq_append (hi lo : BitVec 16) : (hi.setWidth 32 <<< 16) ||| lo.setWidth 32 = hi ++ lo := by
  rw [← BitVec.setWidth_append_eq_shiftLeft_setWidth_or, BitVec.setWidth_eq]

/-- What FRAME_CTRL takes from the word of SET_CTRL (10_state.md R23, 30_encoding.md R67). -/
theorem FrameCtrl.ofWord_setCtrl (il lp : BitVec 1) :
    FrameCtrl.ofWord ((lp.setWidth 32 <<< 1) ||| il.setWidth 32) = { interlace := il == 1, lpalSel := lp == 1 } := by
  revert il lp
  decide

/-- What GCE takes from the word of SET_GCE (10_state.md R24, 30_encoding.md R67). -/
theorem Gce.ofWord_gceWord (d : BitVec 3) (t : BitVec 1) (ti : Byte) (dl : BitVec 16) :
    Gce.ofWord (gceWord d t ti dl) = { disposal := d, transp := t == 1, tindex := ti, delay := dl } := by
  have hbit : t[0] = (t == 1) := by revert t; decide
  simp only [Gce.ofWord, Gce.mk.injEq, gceWord]
  refine ⟨?_, by simp [hbit], ?_, ?_⟩ <;> ext i hi <;> interval_cases i <;> simp

/-- The platform finds a register at its offset, wherever the window is (20_memory.md R52). -/
theorem portAddress_hostAddress (r : Reg) : portAddress (hostAddress r) = r.offset := add_sub_cancel_left _ _

/-- Settles O13: each line is one register write (`step_wr`), whose word holds the operands as its fields. -/
theorem pseudoInstructionsWriteFields : Obligations.PseudoInstructionsWriteFields := by
  refine ⟨fun s x y w h rest hp => ?_, fun s il lp rest hp => ?_, fun s d t ti dl rest hp => ?_, fun r => ?_⟩
  · refine ⟨_, step_wr hp nofun, ?_⟩
    rw [step_wr (r := .frameSize) (rest := rest) rfl nofun]
    simp only [State.writeReg, halves_eq_append, BitVec.extractLsb'_append_eq_left, BitVec.extractLsb'_append_eq_right]
    rfl
  · rw [step_wr (rest := rest) hp nofun, State.writeReg, FrameCtrl.ofWord_setCtrl]
  · rw [step_wr (rest := rest) hp nofun, State.writeReg, Gce.ofWord_gceWord]
  · rw [portAddress_hostAddress, regAt_offset]

/-! A placed command. -/

/-- `withFetchWord` places exactly the word it is given. -/
theorem ofNat_toNat_mod (w : Word) : BitVec.ofNat 32 (w.toNat % 2 ^ 32) = w := by
  rw [Nat.mod_eq_of_lt w.isLt, BitVec.ofNat_toNat, BitVec.setWidth_eq]

/-- A command word performs its command (30_encoding.md R62). -/
theorem performWord_encode (i : Instr) (s : State) : performWord (encode i) s = exec i s := by
  rw [performWord, decodeWord_encode]

/-- The step after a CMD write is placed performs its word (10_state.md R31). -/
theorem step_withCommand (s : State) (w : Word) : step (s.withCommand w) = commandWrite w s := by
  rw [step_of_pending (s := s.withCommand w) rfl, interact]
  obtain ⟨-, hwrite⟩ | ⟨hcmd, -⟩ := memWrite_cases Reg.cmd.offset w ((s.withCommand w).setPending s.pending)
  · exact hwrite
  · exact absurd (regAt_offset .cmd) hcmd

/-- Settles O5: the word placed is the encoding (`ofNat_toNat_mod`), which decodes to its command. -/
theorem placedWordRunsNext : Obligations.PlacedWordRunsNext := by
  intro s i
  rw [State.withFetchWord, decodeTableWord, ofNat_toNat_mod, step_withCommand, commandWrite, performWord_encode,
    decodeWord_encode]
  exact ⟨rfl, rfl⟩

end Sys2Proof.Machine
end

/-! PROOF. The commands of the bit reader: SKIP, BR_RESET and GET_KEY, by what SkipSubBlocks and GetKey come to
(40_subblock_reader.md R69 to R77). -/

section
namespace Sys2Proof.Safety

open Sys2Proof.Machine

/-! GET_KEY: the width check, how the command ends by how its read ends, and the frame of each end. -/

theorem widthOk_iff (w : BitVec 4) : widthOk w = true ↔ 2 ≤ w.toNat ∧ w.toNat ≤ 12 := by
  rw [widthOk, Bool.and_eq_true, decide_eq_true_iff, decide_eq_true_iff]
  rfl

section
variable {s t : State} {w : BitVec 4}

/-- GET_KEY of a width in 2..12 reads a code into KEY_OUT (40_subblock_reader.md R77). -/
theorem exec_getKey_of_width (h1 : 2 ≤ w.toNat) (h2 : w.toNat ≤ 12) :
    exec (.getKey w) s = endCommand ((getKey w.toNat s).andThen fun k t => .done () (t.setKeyOut k)) := by
  rw [exec_eq_endCommand, commandPart, getKeyCommand, if_pos ((widthOk_iff w).mpr ⟨h1, h2⟩)]

/-- GET_KEY when its read succeeds: the code is in KEY_OUT (40_subblock_reader.md R77). -/
theorem exec_getKey_done (h1 : 2 ≤ w.toNat) (h2 : w.toNat ≤ 12) {k : Code} (h : getKey w.toNat s = .done k t) :
    exec (.getKey w) s = .next ((t.setKeyOut k).setStatus .ok) := by
  rw [exec_getKey_of_width h1 h2, h, Res.done_andThen, endCommand_done]

/-- GET_KEY when its read raises: KEY_OUT is not written (40_subblock_reader.md R77). -/
theorem exec_getKey_raised (h1 : 2 ≤ w.toNat) (h2 : w.toNat ≤ 12) {st : Status}
    (h : getKey w.toNat s = .raised st t) : exec (.getKey w) s = .next (t.setStatus st) := by
  rw [exec_getKey_of_width h1 h2, h, Res.raised_andThen, endCommand_raised]

/-- The frame of a raised read, with STATUS written. -/
theorem ReaderOnly.setStatus_eq (h : ReaderOnly s t) (st : Status) :
    t.setStatus st = { s with reader := t.reader, pos := t.pos, status := st } := by
  rw [h]; rfl

/-- The frame of a read that gave a code, with KEY_OUT and STATUS written. -/
theorem ReaderOnly.setKeyOut_setStatus_eq (h : ReaderOnly s t) (k : Code) (st : Status) :
    (t.setKeyOut k).setStatus st = { s with keyOut := k, reader := t.reader, pos := t.pos, status := st } := by
  rw [h]; rfl

end

/-! The commands. -/

/-- Settles O17: GetKey reads the next bits (`getKey_spec`), and the code they make has them as its bits and no others
(`codeBits_ofNat`, `bitsToNat_lt`). -/
theorem getKeyReadsNextBits : Obligations.GetKeyReadsNextBits := by
  intro s w hs h1 h2 hlen
  obtain ⟨t, hkey, hunread, hshift, -, -, hframe, hpos, hrem, hcur⟩ := getKey_spec w.toNat s hs h2 hlen
  have hcount : ((unreadBits s).take w.toNat).length = w.toNat := List.length_take_of_le hlen
  have hcode := codeBits_ofNat _ (hcount.trans_le h2)
  have hbound := bitsToNat_lt ((unreadBits s).take w.toNat)
  rw [hcount] at hcode hbound
  refine ⟨_, exec_getKey_done h1 h2 hkey, rfl, hcode, ?_, hunread, hshift, hpos, hrem, hcur,
    ReaderOnly.setKeyOut_setStatus_eq hframe _ _⟩
  exact (ofNat_bitsToNat_toNat _ (hcount.trans_le h2)).trans_lt hbound

/-- Settles O18: the read that the terminator cuts short (`getKey_short`). -/
theorem getKeyMeetsTerminator : Obligations.GetKeyMeetsTerminator := by
  intro s w hs h1 h2 hlen hterm
  obtain ⟨t, hshift, hframe, hends, -⟩ := getKey_short w.toNat s hs hlen
  obtain ⟨hkey, hrem, hpos, hcur⟩ := hends hterm
  exact ⟨_, exec_getKey_raised h1 h2 hkey, rfl, hpos, hrem, hshift, hcur, ReaderOnly.setStatus_eq hframe _⟩

/-- Settles O19: the read that the end of the stream cuts short (`getKey_short`). -/
theorem getKeyMeetsStreamEnd : Obligations.GetKeyMeetsStreamEnd := by
  intro s w hs h1 h2 hlen hterm
  obtain ⟨t, hshift, hframe, -, hends⟩ := getKey_short w.toNat s hs hlen
  obtain ⟨hkey, hpos, hcur, hrem⟩ := hends hterm
  exact ⟨_, exec_getKey_raised h1 h2 hkey, rfl, hpos, hshift, hcur, hrem, ReaderOnly.setStatus_eq hframe _⟩

/-- Settles O20: a width outside 2..12 fails the check (`widthOk_iff`) before the read. -/
theorem getKeyRefusesWidth : Obligations.GetKeyRefusesWidth := by
  intro s w hw
  have hbad : ¬ widthOk w = true := by
    rw [widthOk_iff]
    omega
  rw [exec_eq_endCommand, commandPart, getKeyCommand, if_neg hbad, endCommand_raised]

/-- Settles O16: SkipSubBlocks ends past the terminator or at the length byte it cannot read (`skipSubBlocks_spec`). -/
theorem skipDiscardsOneSequence : Obligations.SkipDiscardsOneSequence := by
  intro s hs
  obtain ⟨p, hpos, hskip⟩ := skipSubBlocks_spec s hs
  refine ⟨(s.setPos p).setStatus (if hasTerminator 0 (streamFrom s) then .ok else .streamEnd), ?_, hpos, rfl, rfl⟩
  rw [exec_eq_endCommand, commandPart, hskip]
  split
  · exact endCommand_done _ _
  · exact endCommand_raised _ _

/-- Settles O15: the word is the printed one, and BrReset writes the reader only. -/
theorem brResetClearsReader : Obligations.BrResetClearsReader :=
  ⟨by decide, fun s => exec_eq_endCommand .brReset s⟩

end Sys2Proof.Safety
end

/-! PROOF. Where DECODE puts its pixels (41_lzw.md R96 to R98): the interlace map as a permutation of the rows, one cell for
each offset of the rectangle, and the saturating OFF. -/

section
namespace Sys2Proof.Safety

open Sys2Proof.Machine

/-! The interlace passes (41_lzw.md R98). -/

/-- The rows of one pass in order: the first `k` of the rows `b`, `b + a`, `b + 2 * a` and so on. -/
theorem range_filter_mod {a b h k : Nat} (hb : b < a) (hk : ∀ i, i < k ↔ a * i + b < h) :
    (List.range h).filter (fun r => r % a = b) = (List.range k).map fun i => a * i + b := by
  have ha : 0 < a := by omega
  have hmono : StrictMono fun i => a * i + b := fun i j hij =>
    Nat.add_lt_add_right (Nat.mul_lt_mul_of_pos_left hij ha) b
  refine List.SortedLT.eq_of_mem_iff ((List.pairwise_lt_range.filter _).sortedLT)
    ((List.pairwise_lt_range.map _ fun _ _ hij => hmono hij).sortedLT) fun r => ?_
  simp only [List.mem_filter, List.mem_map, List.mem_range, decide_eq_true_eq]
  constructor
  · rintro ⟨hr, rfl⟩
    exact ⟨r / a, (hk _).mpr (by rwa [Nat.div_add_mod]), Nat.div_add_mod r a⟩
  · rintro ⟨i, hi, rfl⟩
    exact ⟨(hk i).mp hi, by rw [Nat.mul_add_mod, Nat.mod_eq_of_lt hb]⟩

/-- The stored rows, in order, are sent to the rows of the four passes. -/
theorem map_interlacedLine (h : Nat) : (List.range h).map (interlacedLine h) = passRows h := by
  have hrows : h = (h + 7) / 8 + (h + 3) / 8 + (h + 1) / 4 + h / 2 := by omega
  unfold passRows
  rw [range_filter_mod (k := (h + 7) / 8) (by decide) fun i => by omega,
    range_filter_mod (k := (h + 3) / 8) (by decide) fun i => by omega,
    range_filter_mod (k := (h + 1) / 4) (by decide) fun i => by omega,
    range_filter_mod (k := h / 2) (by decide) fun i => by omega]
  rw [show List.range h = List.range _ from congrArg List.range hrows]
  simp only [List.range_add, List.map_append, List.map_map]
  -- the rows of each pass take the branch of `interlacedLine` that is theirs
  refine congrArg₂ _ (congrArg₂ _ (congrArg₂ _ ?_ ?_) ?_) ?_ <;> refine List.map_congr_left fun i hi => ?_
  all_goals
    rw [List.mem_range] at hi
    simp only [Function.comp, interlacedLine]
    split_ifs <;> omega

/-- The passes take every row exactly once. -/
theorem passRows_nodup (h : Nat) : (passRows h).Nodup := by
  have hpass : ∀ p : Nat → Bool, ((List.range h).filter p).Nodup := fun p => List.nodup_range.filter p
  unfold passRows
  simp only [List.nodup_append', List.disjoint_left, List.mem_append, List.mem_filter, List.mem_range, decide_eq_true_eq]
  refine ⟨⟨⟨hpass _, hpass _, ?_⟩, hpass _, ?_⟩, hpass _, ?_⟩ <;> intro r hr <;> omega

theorem passRows_perm (h : Nat) : (passRows h).Perm (List.range h) := by
  refine (List.perm_ext_iff_of_nodup (passRows_nodup h) List.nodup_range).mpr fun r => ?_
  simp only [passRows, List.mem_append, List.mem_filter, List.mem_range, decide_eq_true_eq]
  omega

/-- Two stored rows go to one display row only if they are the same row. -/
theorem interlacedLine_inj {h y y' : Nat} (hy : y < h) (hy' : y' < h) (he : interlacedLine h y = interlacedLine h y') :
    y = y' :=
  List.inj_on_of_nodup_map (by rw [map_interlacedLine]; exact passRows_nodup h) (List.mem_range.mpr hy)
    (List.mem_range.mpr hy') he

/-- Settles O34: the stored rows are those of the passes in order (`map_interlacedLine`), and each row is in one pass. -/
theorem interlaceFollowsPasses : Obligations.InterlaceFollowsPasses :=
  fun h => ⟨map_interlacedLine h, passRows_perm h, by omega⟩

end Sys2Proof.Safety

namespace Sys2Proof.Machine

/-! One pixel (41_lzw.md R97). -/

section
variable {s : State}

/-- FW * FH, the offsets of the rectangle, is below the saturated OFF (41_lzw.md R96). -/
theorem State.area_lt (s : State) : s.rect.fw.toNat * s.rect.fh.toNat < 2 ^ 32 - 1 :=
  (Nat.mul_le_mul (Nat.le_of_lt_succ s.rect.fw.isLt) (Nat.le_of_lt_succ s.rect.fh.isLt)).trans_lt (by decide)

theorem putPixel_of_le {p : Nat} (h : s.rect.fw.toNat * s.rect.fh.toNat ≤ p) (v : Byte) : putPixel p v s = s := by
  rw [putPixel, if_pos h]

theorem putPixel_of_lt {p : Nat} (h : p < s.rect.fw.toNat * s.rect.fh.toNat) (v : Byte) :
    putPixel p v s = s.writeFrame (s.pixelCell p) v := by
  rw [putPixel, if_neg (Nat.not_le.mpr h)]

/-- The column and the row, in the rectangle, of an offset below FW * FH (41_lzw.md R97). -/
theorem State.column_row_lt {p : Nat} (hp : p < s.rect.fw.toNat * s.rect.fh.toNat) :
    p % s.rect.fw.toNat < s.rect.fw.toNat ∧ s.displayRow (p / s.rect.fw.toNat) < s.rect.fh.toNat :=
  ⟨Nat.mod_lt _ (Nat.pos_of_mul_pos_right (Nat.zero_lt_of_lt hp)), s.displayRow_lt (Nat.div_lt_of_lt_mul hp)⟩

theorem State.displayRow_inj {y y' : Nat} (hy : y < s.rect.fh.toNat) (hy' : y' < s.rect.fh.toNat)
    (h : s.displayRow y = s.displayRow y') : y = y' := by
  unfold State.displayRow at h
  split at h
  · exact Safety.interlacedLine_inj hy hy' h
  · exact h

/-- Two offsets of a rectangle that fits share a cell only if they are the same (41_lzw.md R97). -/
theorem State.pixelCell_inj (hf : s.rectFits = true) {p q : Nat} (hp : p < s.rect.fw.toNat * s.rect.fh.toNat)
    (hq : q < s.rect.fw.toNat * s.rect.fh.toNat) (h : s.pixelCell q = s.pixelCell p) : q = p := by
  obtain ⟨hx, -⟩ := s.rectFits_iff.mp hf
  obtain ⟨hpx, -⟩ := State.column_row_lt hp
  obtain ⟨hqx, -⟩ := State.column_row_lt hq
  obtain ⟨hcol, hrow⟩ := State.cellIndex_inj (by omega) (by omega) h
  have hdiv := State.displayRow_inj (Nat.div_lt_of_lt_mul hq) (Nat.div_lt_of_lt_mul hp) (Nat.add_left_cancel hrow)
  rw [← Nat.div_add_mod q s.rect.fw.toNat, hdiv, Nat.add_left_cancel hcol, Nat.div_add_mod]

/-- Every cell after one pixel (41_lzw.md R97). -/
theorem frameAt_putPixel (s : State) (p : Nat) (v : Byte) (i : Nat) :
    (putPixel p v s).frameAt i =
      if p < s.rect.fw.toNat * s.rect.fh.toNat ∧ i = s.pixelCell p then some v else s.frameAt i := by
  by_cases hp : p < s.rect.fw.toNat * s.rect.fh.toNat
  · rw [putPixel_of_lt hp, State.frameAt_writeFrame]
    simp only [hp, true_and]
  · rw [putPixel_of_le (Nat.not_lt.mp hp), if_neg fun h => hp h.1]

end

/-- Settles O33: the cell of an offset is that of its column and display row, which lie inside the rectangle, and no two
offsets have the same (`State.pixelCell_inj`). -/
theorem putPixelPlacement : Obligations.PutPixelPlacement := by
  intro s p v hf
  refine ⟨fun hp => putPixel_of_le hp v, fun hp => ?_⟩
  obtain ⟨hx, hy⟩ := State.column_row_lt hp
  refine ⟨_, s.displayRow (p / s.rect.fw.toNat), rfl, rfl, hx, hy, (Nat.add_assoc _ _ _).symm, s.pixelCell_lt hf hp,
    Safety.putPixel_frameOnly p v s, ?_, fun i hi => ?_, fun q hq hcell => State.pixelCell_inj hf hp hq hcell⟩
  · rw [frameAt_putPixel, if_pos ⟨hp, rfl⟩]
  · rw [frameAt_putPixel, if_neg fun h => hi h.2]

/-- OFF after a string, without wrapping (41_lzw.md R96). -/
theorem Lzw.resolved_off (l : Lzw) (len : BitVec 16) (first : Byte) :
    (l.resolved len first).off.toNat = min (l.off.toNat + len.toNat) (2 ^ 32 - 1) := by
  show (BitVec.ofNat 32 (min (l.off.toNat + len.toNat) 4294967295)).toNat = _
  rw [BitVec.toNat_ofNat]
  omega

/-- Settles O35: the sum is bounded before it is stored, and a saturated OFF is past every rectangle (`State.area_lt`). -/
theorem offsetSaturates : Obligations.OffsetSaturates := by
  refine fun l len first => ⟨l.resolved_off len first, fun s k v hoff => putPixel_of_le ?_ v⟩
  have := s.area_lt
  omega

end Sys2Proof.Machine
end

/-! PROOF. DECODE's table step, data code and rounds, each by itself (41_lzw.md R84 to R92, R99). -/

section
namespace Sys2Proof.Machine

/-! The table step (41_lzw.md R84 to R87). -/

/-- FULL after an append that leaves room or fills the table (41_lzw.md R86). -/
theorem Lzw.appended_full {l : Lzw} (hf : l.full = false) : l.appended.full = true ↔ l.nentries.toNat + 1 = 4096 := by
  unfold Lzw.appended
  split
  next hcap => exact iff_of_true rfl hcap
  next hcap =>
    refine iff_of_false ?_ hcap
    split <;> simp [hf]

/-- GROW after an append: 0 at a full table, 1 at any other power of two, else as it was (41_lzw.md R86). -/
theorem Lzw.appended_grow (l : Lzw) :
    l.appended.grow =
      if l.nentries.toNat + 1 = 4096 then false else if isPow2 (l.nentries.toNat + 1) then true else l.grow := by
  unfold Lzw.appended
  split
  next hcap => exact (if_pos hcap).symm
  next hcap =>
    rw [if_neg (show ¬ l.nentries.toNat + 1 = 4096 from hcap)]
    split <;> rfl

/-- Settles O30, by the three cases of the table step (`tableStep_clear`, `tableStep_append`, `tableStep_frozen`). -/
theorem tableStepCases : Obligations.TableStepCases := by
  intro m s h1 h2
  refine ⟨fun hc => ⟨_, tableStep_clear hc, rfl, Safety.firstFree_toNat h1 h2, rfl, rfl, rfl, rfl⟩,
    fun hc hf hn => ⟨_, tableStep_append hc hf hn.ne, ?_⟩, fun hc hf => tableStep_frozen hc hf⟩
  have hlzw : (appendEntry s).lzw = s.lzw.appended := rfl
  rw [hlzw]
  refine ⟨?_, Lzw.appended_patchEn _, Lzw.appended_full hf, fun hcap => ?_, fun hcap hpow => ?_, fun hpow => ?_, ?_,
    fun j hj => ?_, ?_⟩
  · rw [Lzw.appended_nentries, BitVec.toNat_ofNat]
    omega
  · rw [Lzw.appended_grow, if_pos hcap]
  · rw [Lzw.appended_grow, if_neg hcap, if_pos ((isPow2_iff _).mpr hpow)]
  · have hcap : s.lzw.nentries.toNat + 1 ≠ 4096 := fun h => hpow ⟨12, h⟩
    rw [Lzw.appended_grow, if_neg hcap, if_neg fun h => hpow ((isPow2_iff _).mp h)]
  · rw [appendEntry_entryAt, if_pos rfl]
    rfl
  · rw [appendEntry_entryAt, if_neg hj]
  · rw [Lzw.appended_nentries, Lzw.appended_patchEn]
    exact congrArg (State.setLzw _) s.lzw.appended_eq

/-! A data code (41_lzw.md R89 to R92). -/

/-- A data code that is done has passed its check, and the registers are those after the growth and a string
(41_lzw.md R89 to R91). -/
theorem dataCode_lzw {s t : State} (h : dataCode s = .done () t) :
    ∃ len first, t.lzw = s.lzw.applyGrowth.resolved len first := by
  unfold dataCode at h
  split at h
  · cases h
  obtain ⟨_, u, hres, hfix⟩ := Res.andThen_eq_done h
  cases hfix
  obtain ⟨first, v, hwalk, hput⟩ := Res.andThen_eq_done hres
  cases hput
  have hkeep := walkChain_leaves (P := fun w => w.lzw = s.lzw.applyGrowth)
    (fun p v w h => (putPixel_lzw p v w).trans h) Config.tableCap (s.setLzw s.lzw.applyGrowth).lzw.code.toNat
    (s := s.setLzw s.lzw.applyGrowth) rfl
  rw [hwalk, Res.leaves_done] at hkeep
  refine ⟨(s.entryAt s.lzw.applyGrowth.code.toNat).len, first, ?_⟩
  rw [fixUp_lzw, State.setLzw_lzw, hkeep]
  rfl

@[simp] theorem Lzw.applyGrowth_full (l : Lzw) : l.applyGrowth.full = l.full := by
  rw [l.applyGrowth_eq]

/-- KS grows by one when a growth was signalled and there is a wider code (41_lzw.md R90). -/
theorem Lzw.applyGrowth_ks {l : Lzw} (h : l.grow = true → l.ks.toNat < 12) :
    l.applyGrowth.ks.toNat = l.ks.toNat + l.grow.toNat := by
  unfold Lzw.applyGrowth
  cases hg : l.grow with
  | false => rfl
  | true =>
    have hks := h hg
    show (l.ks + 1).toNat = l.ks.toNat + 1
    rw [BitVec.toNat_add, Nat.mod_eq_of_lt]
    · rfl
    · show l.ks.toNat + 1 < 16
      omega

/-- Settles O31: the check comes first, and the registers after a data code are those after the growth but for the
string's own (`dataCode_lzw`). -/
theorem growthFollowsCheckedCode : Obligations.GrowthFollowsCheckedCode := by
  refine fun s => ⟨fun hbad => by rw [dataCode, if_pos hbad], fun t _ hgrow hdone => ?_⟩
  obtain ⟨len, first, hl⟩ := dataCode_lzw hdone
  rw [hl]
  exact ⟨Lzw.applyGrowth_ks hgrow, Lzw.applyGrowth_grow _, Lzw.applyGrowth_nentries _, Lzw.applyGrowth_full _,
    Lzw.applyGrowth_code _⟩

/-- Settles O32: the entries after the fix-up (`fixUp_entryAt`). -/
theorem fixUpWritesLastSuffix : Obligations.FixUpWritesLastSuffix := by
  refine fun s => ⟨fun hp => ⟨Safety.fixUp_tableOnly s, ?_, fun j hj => ?_⟩, fun hp => ?_⟩
  · rw [fixUp_entryAt, if_pos ⟨hp, rfl⟩]
  · rw [fixUp_entryAt, if_neg fun h => hj h.2]
  · rw [fixUp, if_neg (by rw [hp]; nofun)]

end Sys2Proof.Machine

namespace Sys2Proof.Safety

open Sys2Proof.Machine

/-! A round (41_lzw.md R99). -/

/-- Settles O28: the loop is entered with its invariant (`loopInvariant_of_firstCode`), and every round that goes on keeps
it (`LoopInvariant.decodeRound`). -/
theorem loopInvariantHolds : Obligations.LoopInvariantHolds := by
  refine ⟨fun m s t h1 h2 hcode => loopInvariant_of_firstCode h1 h2 hcode ?_, fun m s t => LoopInvariant.decodeRound⟩
  obtain ⟨-, hle, -⟩ := clearCode_bounds h1 h2
  rw [BitVec.toNat_ofNat]
  exact Nat.mod_eq_of_lt (hle.trans_lt (by decide))

/-- From a state that meets the loop invariant a round is done, or ends with EndOfData, StreamEnd or BadCode: the table
step is done, a code is read or the data is over, and a data code is bad or its chain ends at a literal
(41_lzw.md R99). -/
theorem LoopInvariant.decodeRound_cases {m : Nat} {s : State} (h : LoopInvariant m s) :
    (∃ goOn t, Machine.decodeRound m s = .done goOn t) ∨
      ∃ st t, Machine.decodeRound m s = .raised st t ∧ (st = .endOfData ∨ st = .streamEnd ∨ st = .badCode) := by
  obtain ⟨u, hstep, hu⟩ := h.tableStep
  unfold Machine.decodeRound
  rw [hstep, Res.done_andThen]
  obtain ⟨k, v, hcode, -, -, -⟩ | ⟨st, v, hcode, hst, -⟩ := nextCode_cases u hu.ks_le <;> rw [hcode]
  swap
  · exact .inr ⟨st, v, rfl, hst.imp_right .inl⟩
  rw [Res.done_andThen]
  have hv := hu.nextCode hcode
  have hk := nextCode_code hcode
  by_cases hclear : k.toNat = clearCode m
  · rw [if_pos hclear]
    exact .inl ⟨true, v, rfl⟩
  rw [if_neg hclear]
  by_cases hstop : k.toNat = stopCode m
  · rw [if_pos hstop]
    exact .inl ⟨false, v, rfl⟩
  rw [if_neg hstop]
  by_cases hbad : v.lzw.nentries.toNat ≤ v.lzw.code.toNat
  · rw [dataCode, if_pos hbad]
    exact .inr ⟨.badCode, v, rfl, .inr (.inr rfl)⟩
  · rw [hv.dataCode ⟨Nat.not_le.mp hbad, by rw [hk]; exact hclear, by rw [hk]; exact hstop⟩]
    exact .inl ⟨true, _, rfl⟩

/-- Settles O29, by everything a round can come to (`LoopInvariant.decodeRound_cases`). -/
theorem roundNeverOverflowsTable : Obligations.RoundNeverOverflowsTable := by
  intro m s h
  obtain ⟨goOn, t, hround⟩ | ⟨st, t, hround, hst⟩ := h.decodeRound_cases <;> rw [hround]
  · exact ⟨fun _ => nofun, fun _ => nofun⟩
  · refine ⟨fun t' hraised => ?_, fun _ => nofun⟩
    obtain ⟨rfl, rfl⟩ := Res.raised.inj hraised
    simp at hst

end Sys2Proof.Safety
end

/-! PROOF. The pixels DECODE has put into FRAME, as a list (41_lzw.md R91, R96, R97): what each part of the loop does to
them. -/

section
namespace Sys2Proof.Machine

@[simp] theorem Lzw.appended_off (l : Lzw) : l.appended.off = l.off := by
  rw [l.appended_eq]

/-! Cells that a run of pixels writes. -/

theorem State.frameAt_congr {s t : State} (h : t.frame = s.frame) (i : Nat) : t.frameAt i = s.frameAt i := by
  unfold State.frameAt; rw [h]

@[simp] theorem putPixel_rect (p : Nat) (v : Byte) (s : State) : (putPixel p v s).rect = s.rect := by
  rw [Safety.putPixel_frameOnly, State.setFrame_rect]

@[simp] theorem putPixel_rectFits (p : Nat) (v : Byte) (s : State) : (putPixel p v s).rectFits = s.rectFits := by
  rw [Safety.putPixel_frameOnly]; rfl

@[simp] theorem putPixel_pixelCell (p : Nat) (v : Byte) (s : State) (q : Nat) :
    (putPixel p v s).pixelCell q = s.pixelCell q := by
  rw [Safety.putPixel_frameOnly]; rfl

theorem DecodeOnly.pixelCell {s t : State} (h : DecodeOnly s t) (p : Nat) : t.pixelCell p = s.pixelCell p := by
  rw [h]; rfl

theorem DecodeOnly.rect {s t : State} (h : DecodeOnly s t) : t.rect = s.rect := by
  rw [h]

end Sys2Proof.Machine

namespace Sys2Proof.Safety

open Sys2Proof.Machine

/-- A cell of the rectangle after a run of pixels from offset `off` on: its pixel of the run, if it has one
(41_lzw.md R91, R97). -/
theorem frameAt_putReversed {s : State} (hf : s.rectFits = true) (off : Nat) (l : List Byte) {p : Nat}
    (hp : p < s.rect.fw.toNat * s.rect.fh.toNat) :
    (putReversed off l s).frameAt (s.pixelCell p) =
      if p < off then s.frameAt (s.pixelCell p) else l.reverse[p - off]?.or (s.frameAt (s.pixelCell p)) := by
  induction l generalizing s with
  | nil => simp [putReversed]
  | cons v rest ih =>
    have hrest := ih (s := putPixel (off + rest.length) v s) (by simpa using hf) (by simpa using hp)
    rw [putPixel_pixelCell] at hrest
    have hown : off + rest.length < s.rect.fw.toNat * s.rect.fh.toNat ∧ s.pixelCell p = s.pixelCell (off + rest.length) ↔
        p = off + rest.length :=
      ⟨fun ⟨hq, he⟩ => State.pixelCell_inj hf hq hp he, fun he => he ▸ ⟨hp, rfl⟩⟩
    rw [putReversed, hrest, frameAt_putPixel, List.reverse_cons]
    simp only [hown]
    by_cases hbefore : p < off
    · rw [if_pos hbefore, if_pos hbefore, if_neg (by omega)]
    rw [if_neg hbefore, if_neg hbefore]
    obtain hlt | rfl | hgt := Nat.lt_trichotomy p (off + rest.length)
    · rw [if_neg hlt.ne, List.getElem?_append_left (by rw [List.length_reverse]; omega)]
    · rw [if_pos rfl, Nat.add_sub_cancel_left, List.getElem?_eq_none (l := rest.reverse) (by simp),
        List.getElem?_append_right (by simp)]
      simp
    · have hpast : rest.length < p - off := by omega
      rw [if_neg hgt.ne', List.getElem?_eq_none (l := rest.reverse) (by simpa using hpast.le),
        List.getElem?_eq_none (l := rest.reverse ++ [v]) (by simpa using hpast)]

/-- A cell of no offset of the rectangle is left alone (41_lzw.md R97). -/
theorem frameAt_putReversed_other {s : State} (off : Nat) (l : List Byte) {i : Nat}
    (hi : ∀ p, p < s.rect.fw.toNat * s.rect.fh.toNat → s.pixelCell p ≠ i) :
    (putReversed off l s).frameAt i = s.frameAt i := by
  induction l generalizing s with
  | nil => rfl
  | cons v rest ih =>
    rw [putReversed, ih (by simpa using hi), frameAt_putPixel, if_neg fun h => hi _ h.1 h.2.symm]

/-! Pixels from the start of an image. -/

/-- Since `b`, DECODE has put the pixels of a list, from offset 0 on, and OFF counts them; only what DECODE may write has
changed (41_lzw.md R78, R96, R97). -/
structure PixelsPut (b : State) (pixels : List Byte) (t : State) : Prop where
  only : DecodeOnly b t
  off : t.lzw.off.toNat = min pixels.length (2 ^ 32 - 1)
  cells : ∀ p, p < b.rect.fw.toNat * b.rect.fh.toNat →
    t.frameAt (b.pixelCell p) = pixels[p]?.or (b.frameAt (b.pixelCell p))
  others : ∀ i, (∀ p, p < b.rect.fw.toNat * b.rect.fh.toNat → b.pixelCell p ≠ i) → t.frameAt i = b.frameAt i

namespace PixelsPut

variable {b s t : State} {pixels : List Byte}

/-- A cell that none of the pixels went to keeps its value. -/
theorem kept (h : PixelsPut b pixels t) {i : Nat}
    (hi : ∀ p, p < b.rect.fw.toNat * b.rect.fh.toNat → p < pixels.length → b.pixelCell p ≠ i) :
    t.frameAt i = b.frameAt i := by
  by_cases hcell : ∃ p, p < b.rect.fw.toNat * b.rect.fh.toNat ∧ b.pixelCell p = i
  · obtain ⟨p, hp, rfl⟩ := hcell
    have hend : pixels.length ≤ p := Nat.not_lt.mp fun hlt => hi p hp hlt rfl
    rw [h.cells p hp, List.getElem?_eq_none hend, Option.none_or]
  · exact h.others i fun p hp he => hcell ⟨p, hp, he⟩

/-- A part of DECODE that writes neither FRAME nor OFF. -/
theorem congr (h : PixelsPut b pixels s) (ho : DecodeOnly s t) (hf : t.frame = s.frame) (hoff : t.lzw.off = s.lzw.off) :
    PixelsPut b pixels t :=
  ⟨h.only.trans ho, by rw [hoff]; exact h.off, fun p hp => by rw [State.frameAt_congr hf]; exact h.cells p hp,
    fun i hi => by rw [State.frameAt_congr hf]; exact h.others i hi⟩

/-- Before the first code no pixel is put (41_lzw.md R82). -/
theorem startDecode (m : Nat) (s : State) : PixelsPut s [] (startDecode m s) := by
  have hframe : (Machine.startDecode m s).frame = s.frame := by
    unfold Machine.startDecode
    rw [writeLiterals_tableOnly]
    rfl
  refine ⟨startDecode_decodeOnly m s, by rw [startDecode_lzw]; rfl, fun p _ => ?_, fun i _ => ?_⟩
  · rw [State.frameAt_congr hframe, List.getElem?_nil, Option.none_or]
  · rw [State.frameAt_congr hframe]

/-- The table step puts no pixel (41_lzw.md R84 to R87). -/
theorem tableStep (h : PixelsPut b pixels s) (m : Nat) : (tableStep m s).Leaves (PixelsPut b pixels) := by
  unfold Machine.tableStep
  split
  · exact h.congr ((DecodeOnly.refl s).setLzw _) rfl rfl
  · split
    · exact h.congr ((DecodeOnly.refl s).setLzw _) rfl rfl
    · split
      · exact h
      · exact h.congr (((DecodeOnly.refl s).writeEntry _ _).setLzw _) rfl (Lzw.appended_off _)

/-- The read of a code puts no pixel (41_lzw.md R88). -/
theorem nextCode (h : PixelsPut b pixels s) : (nextCode s).Leaves (PixelsPut b pixels) := by
  have hread : ∀ u, ReaderOnly s u → PixelsPut b pixels u := fun u hro =>
    h.congr hro.decodeOnly (by rw [hro]; rfl) (by rw [hro]; rfl)
  exact (getKey_readerOnly _ s).andThen (fun _ u _ hro => hread u hro) fun _ u _ hro =>
    (hread u hro).congr ((DecodeOnly.refl u).setLzw _) rfl rfl

/-- A data code puts the pixels of its string (41_lzw.md R91, R96). -/
theorem afterDataCode {m : Nat} (h : PixelsPut b pixels s) (hf : b.rectFits = true) (hs : TableInvariant m s)
    (hk : DataCode m s.lzw s.lzw.code.toNat) :
    PixelsPut b (pixels ++ entryString s s.lzw.code.toNat) (afterDataCode s) := by
  have hframe : (Safety.afterDataCode s).frame =
      (putReversed s.lzw.off.toNat (chainPixels s Config.tableCap s.lzw.code.toNat)
        (s.setLzw s.lzw.applyGrowth)).frame := by
    rw [afterDataCode_eq]; rfl
  have hfits : (s.setLzw s.lzw.applyGrowth).rectFits = true := h.only.rectFits hf
  have hrect : (s.setLzw s.lzw.applyGrowth).rect = b.rect := h.only.rect
  have hcell : ∀ p, (s.setLzw s.lzw.applyGrowth).pixelCell p = b.pixelCell p := h.only.pixelCell
  refine ⟨?_, ?_, fun p hp => ?_, fun i hi => ?_⟩
  · rw [afterDataCode_eq]
    unfold DecodeOnly
    rw [h.only]
    rfl
  · rw [afterDataCode_lzw, resolved_lzw, Lzw.resolved_off, Lzw.applyGrowth_off, h.off, List.length_append,
      hs.entryString_length hk]
    omega
  · have hput := frameAt_putReversed hfits s.lzw.off.toNat (chainPixels s Config.tableCap s.lzw.code.toNat)
      (p := p) (by rw [hrect]; exact hp)
    have hold : (s.setLzw s.lzw.applyGrowth).frameAt (b.pixelCell p) = _ := h.cells p hp
    have harea := b.area_lt
    rw [hcell, hold] at hput
    rw [State.frameAt_congr hframe, hput, h.off, entryString]
    by_cases hlt : p < pixels.length
    · rw [if_pos (by omega), List.getElem?_append_left hlt]
    · have hoff : min pixels.length (2 ^ 32 - 1) = pixels.length := by omega
      rw [hoff, if_neg hlt, List.getElem?_append_right (Nat.not_lt.mp hlt),
        List.getElem?_eq_none (l := pixels) (Nat.not_lt.mp hlt), Option.none_or]
  · rw [State.frameAt_congr hframe, frameAt_putReversed_other _ _ (by simpa only [hrect, hcell] using hi)]
    exact h.others i hi

end PixelsPut

end Sys2Proof.Safety
end

/-! PROOF. DECODE up to its image: the rectangle, the code-size byte and the pre-scan (41_lzw.md R79 to R81). -/

section
namespace Sys2Proof.Safety

open Sys2Proof.Machine

/-! The code-size byte and the pre-scan. -/

section
variable {s : State}

theorem exec_decode (s : State) : exec .decode s = endCommand (decodeCommand s) := rfl

/-- A stream read below S_LEN (20_memory.md R44). -/
theorem streamRead8_of_some {b : Byte} (h : s.stream[s.pos.toNat]? = some b) :
    streamRead8 s = .done b (s.setPos (s.pos + 1)) := by
  rw [streamRead8, h]

/-- DECODE of a rectangle that fits goes on to the code-size byte (41_lzw.md R79). -/
theorem decodeCommand_of_fits (hf : s.rectFits = true) :
    decodeCommand s = (readCodeSize s).andThen fun m t =>
      (skipSubBlocks t).andThen fun _ u => seekAtEnd u.pos (decodeImage m (u.setPos t.pos)) := by
  rw [decodeCommand, if_pos hf]
  rfl

/-- The code-size byte has been read and POS is past it; outside 2..8 it is refused (41_lzw.md R80). -/
theorem readCodeSize_of_some {m : Byte} (h : s.stream[s.pos.toNat]? = some m) :
    readCodeSize s =
      if 2 ≤ m.toNat ∧ m.toNat ≤ 8 then .done m.toNat (s.setPos (s.pos + 1))
      else .raised .badCodeSize (s.setPos (s.pos + 1)) := by
  have hrange : (decide (m.toNat < Config.minCodeSize) || decide (Config.maxCodeSize < m.toNat)) = true ↔
      ¬ (2 ≤ m.toNat ∧ m.toNat ≤ 8) := by
    rw [Bool.or_eq_true, decide_eq_true_iff, decide_eq_true_iff]
    show m.toNat < 2 ∨ 8 < m.toNat ↔ _
    omega
  rw [readCodeSize, streamRead8_of_some h, Res.done_andThen]
  simp only [hrange, ite_not]

/-- What stands before the image when the rectangle fits and the code-size byte is in 2..8: the pre-scan from the byte after
that one, which ends past the terminator and rewinds, or ends DECODE at the length byte it cannot read
(41_lzw.md R80, R81). -/
theorem decodeCommand_of_codeSize {m : Byte} (hs : streamWf s.stream = true) (hf : s.rectFits = true)
    (hm : s.stream[s.pos.toNat]? = some m) (h1 : 2 ≤ m.toNat) (h2 : m.toNat ≤ 8) :
    streamFrom (s.setPos (s.pos + 1)) = s.stream.drop (s.pos.toNat + 1) ∧
    ∃ p : BitVec 32, p.toNat = s.pos.toNat + 1 + discardLength 0 (s.stream.drop (s.pos.toNat + 1)) ∧
      decodeCommand s =
        if hasTerminator 0 (s.stream.drop (s.pos.toNat + 1)) then
          seekAtEnd p (decodeImage m.toNat (s.setPos (s.pos + 1)))
        else .raised .streamEnd (s.setPos p) := by
  have hlt : s.pos.toNat < s.stream.length := (List.getElem?_eq_some_iff.mp hm).1
  have hlen := streamWf_le hs
  have hpos : (s.pos + 1).toNat = s.pos.toNat + 1 := pos_add_toNat (show s.pos.toNat + 1 < 2 ^ 32 by omega)
  have hfrom : streamFrom (s.setPos (s.pos + 1)) = s.stream.drop (s.pos.toNat + 1) := by rw [← hpos]; rfl
  obtain ⟨p, hp, hskip⟩ := skipSubBlocks_spec (s.setPos (s.pos + 1)) hs
  rw [hfrom] at hp hskip
  refine ⟨hfrom, p, hp.trans (congrArg (· + _) hpos), ?_⟩
  rw [decodeCommand_of_fits hf, readCodeSize_of_some hm, if_pos ⟨h1, h2⟩, Res.done_andThen, hskip]
  split <;> rfl

end

/-! How DECODE is refused. -/

/-- Settles O21: DECODE and DISPOSE check the rectangle first (`State.rectFits_iff`). -/
theorem rectOutsideCanvasRefused : Obligations.RectOutsideCanvasRefused := by
  intro s hout
  have hf : ¬ s.rectFits = true := by
    rw [State.rectFits_iff]
    unfold State.width State.height
    omega
  constructor
  · rw [exec_decode, decodeCommand, if_neg hf, endCommand_raised]
  · rw [exec_eq_endCommand, commandPart, disposeCommand, if_neg hf, endCommand_raised]

/-- Settles O22: there is no byte to read, or it is read and fails its check (`readCodeSize_of_some`). -/
theorem codeSizeByteChecked : Obligations.CodeSizeByteChecked := by
  intro s hf
  refine ⟨fun hnone => ?_, fun m hm hbad => ?_⟩ <;> rw [exec_decode, decodeCommand_of_fits hf]
  · have hread : streamRead8 s = .raised .streamEnd s := by rw [streamRead8, hnone]
    rw [readCodeSize, hread, Res.raised_andThen, Res.raised_andThen, endCommand_raised]
  · rw [readCodeSize_of_some hm, if_neg (by omega), Res.raised_andThen, endCommand_raised]

/-- Settles O23: the pre-scan ends DECODE (`decodeCommand_of_codeSize`). -/
theorem truncatedImageRefused : Obligations.TruncatedImageRefused := by
  intro s m hs hf hm h1 h2 hends
  obtain ⟨-, p, hp, hcommand⟩ := decodeCommand_of_codeSize hs hf hm h1 h2
  rw [hends, if_neg Bool.false_ne_true] at hcommand
  exact ⟨_, by rw [exec_decode, hcommand, endCommand_raised], rfl, hp, rfl⟩

end Sys2Proof.Safety
end

/-! PROOF. DECODE's pixels against those of the string decoder, and how DECODE ends (41_lzw.md R78, R83 to R97, R99). -/

section
namespace Sys2Proof.Safety

open Sys2Proof.Machine

/-! The loop. -/

section
variable {m : Nat} {b s₀ s : State} {l₀ : Lzw} {dict : List (List Byte)} {fresh : Bool} {e : ImageEnd} {used : Nat}

/-- The head of the loop after a clear code (41_lzw.md R84). -/
theorem headMatches_afterClear (hinv : LoopInvariant m s) (hlast : LastMatches l₀ e s.lzw) (htaken : BitsTaken s₀ s used)
    (hrest : e.rest = unreadBits s) (hclear : s.lzw.code.toNat = clearCode m) :
    HeadMatches m s₀ l₀ [] true e used s :=
  ⟨hinv, hlast, htaken, hrest, fun _ => ⟨hclear, rfl⟩, nofun⟩

/-- A data code puts the reference's string (41_lzw.md R91, R96). -/
theorem TableStepMatches.pixelsPut {prev : Option (List Byte)} {u v : State} {k : Code}
    (hu : TableStepMatches m dict prev s u) (ht : v.table = u.table) (hl : v.lzw = { u.lzw with code := k })
    (hk : DataCode m u.lzw k.toNat) (hf : b.rectFits = true) {pixels : List Byte} (hput : PixelsPut b pixels v) :
    PixelsPut b (pixels ++ stringOf m dict (prev.getD []) k.toNat) (afterDataCode v) := by
  have hcode : v.lzw.code = k := by rw [hl]
  have hstr : entryString v v.lzw.code.toNat = stringOf m dict (prev.getD []) k.toNat := by
    rw [hcode, entryString_congr ht, hu.strings _ hk]
  rw [← hstr]
  exact hput.afterDataCode hf (hu.inv.setCode hl ht) (by rw [hcode, hl]; exact hk)

/-- DECODE's loop puts the pixels the reference makes (41_lzw.md R84 to R92, R96, R97). -/
theorem HeadMatches.decodeLoop_pixels (hs : streamWf s₀.stream = true) (hends : terminated s₀ = true)
    (hf : b.rectFits = true) (fuel fuel' : Nat) (h : HeadMatches m s₀ l₀ dict fresh e used s)
    (hput : PixelsPut b e.pixels s) (hfuel : e.rest.length < fuel') :
    (Machine.decodeLoop m fuel s).Leaves (PixelsPut b (referenceCodes m fuel' dict fresh e).pixels) := by
  induction fuel' generalizing fuel dict fresh e used s with
  | zero => omega
  | succ fuel' ih =>
    obtain _ | fuel := fuel
    · trivial
    rw [referenceCodes_succ]
    unfold Machine.decodeLoop Machine.decodeRound
    dsimp only
    set prev := prevString fresh e with hprev
    set w := codeWidth (entriesAfter m dict prev) with hw
    have hw1 : 1 ≤ w := Nat.le_add_left 1 _
    obtain ⟨u, hstep, hu, hread⟩ := h.readCode hs hends hprev hw
    have huput := hput.tableStep m
    rw [hstep, Res.leaves_done] at huput
    have hcodeput := huput.nextCode
    rw [hstep, Res.done_andThen]
    obtain ⟨hlen, t, hcode, -⟩ | ⟨hlen, k, v, hcode, hk, hregs, htaken, hrest⟩ := hread <;> rw [hcode] at hcodeput ⊢
    · rw [if_pos hlen]
      exact hcodeput
    rw [Res.leaves_done] at hcodeput
    obtain ⟨hl, htable⟩ := nextCode_done hcode
    have hv := hu.inv.nextCode hcode
    have hvcode : v.lzw.code = k := nextCode_code hcode
    have hless : (e.rest.drop w).length < fuel' := by rw [List.length_drop]; omega
    rw [if_neg (Nat.not_lt.mpr hlen), Res.done_andThen, ← hk]
    by_cases hclear : k.toNat = clearCode m
    · rw [if_pos hclear, if_pos hclear]
      have hvclear : v.lzw.code.toNat = clearCode m := by rw [hvcode, hclear]
      exact ih fuel (headMatches_afterClear (loopInvariant_iff.mpr ⟨hv, .inl hvclear⟩) hregs.toLastMatches htaken hrest
        hvclear) hcodeput hless
    rw [if_neg hclear, if_neg hclear]
    by_cases hstop : k.toNat = stopCode m
    · rw [if_pos hstop, if_pos hstop]
      exact hcodeput
    rw [if_neg hstop, if_neg hstop]
    by_cases hbad : entriesAfter m dict prev ≤ k.toNat
    · rw [if_pos hbad, dataCode, if_pos (by rw [hvcode, hl, hu.registers.nentries]; exact hbad)]
      exact hcodeput
    rw [if_neg hbad]
    have hdata : DataCode m u.lzw k.toNat := ⟨by rw [hu.registers.nentries]; omega, hclear, hstop⟩
    rw [hv.dataCode (by rw [hvcode, hl]; exact hdata)]
    exact ih fuel (headMatches_afterDataCode hu htable hl hdata htaken hrest (congrArg some hk.symm))
      (hu.pixelsPut htable hl hdata hf hcodeput) hless

end

/-! The image. -/

section
variable {m : Nat} {s : State} (h1 : 2 ≤ m) (h2 : m ≤ 8)
include h1 h2

/-- The first code and the loop put the pixels the reference makes (41_lzw.md R83). -/
theorem decodeCodes_pixels (hs : streamWf s.stream = true) (hends : terminated (startDecode m s) = true)
    (hf : s.rectFits = true) :
    (decodeCodes m (startDecode m s)).Leaves
      (PixelsPut s (referenceImage m ((dataLeft (startDecode m s)).flatMap byteBits)).pixels) := by
  set s₀ := startDecode m s with hs₀
  set bits := (dataLeft s₀).flatMap byteBits
  have hs' : streamWf s₀.stream = true := by rw [hs₀, (startDecode_stream_pos m s).1]; exact hs
  have htaken : BitsTaken s₀ s₀ 0 := BitsTaken.refl rfl
  have hunread : bits = unreadBits s₀ := htaken.bits.symm
  have hks : s₀.lzw.ks.toNat = m + 1 := by rw [hs₀, startDecode_lzw]; exact start_initKs h2 s.lzw
  have hput := (PixelsPut.startDecode m s).nextCode
  rw [← hs₀] at hput
  rw [referenceImage_eq]
  unfold decodeCodes
  dsimp only
  by_cases hlen : bits.length < m + 1
  · rw [if_pos hlen]
    obtain ⟨t, hcode, -⟩ := htaken.nextCode_short hs' hends (by rw [hks, ← hunread]; exact hlen)
    rw [hcode] at hput ⊢
    exact hput
  rw [if_neg hlen]
  obtain ⟨k, v, hcode, hk, hvtaken⟩ := htaken.nextCode hs' (by omega) (by rw [hks, ← hunread]; omega)
  rw [hks, ← hunread] at hk
  rw [hks] at hvtaken
  rw [hcode, Res.leaves_done] at hput
  rw [hcode, Res.done_andThen, ← hk]
  by_cases hclear : k.toNat = clearCode m
  · rw [if_pos hclear, if_pos hclear]
    have hvregs : RegistersMatch m s.lzw ((imageStart m bits).codeTaken (m + 1)) v.lzw := by
      rw [(nextCode_done hcode).1, hs₀, startDecode_lzw]
      exact (registersMatch_start h1 h2 s.lzw bits).codeTaken hk
    refine (headMatches_afterClear (loopInvariant_of_firstCode h1 h2 hcode hclear) hvregs.toLastMatches hvtaken ?_
      (by rw [nextCode_code hcode, hclear])).decodeLoop_pixels hs' hends hf _ _ hput ?_
    · rw [hvtaken.bits, Nat.zero_add]
      rfl
    · exact Nat.lt_succ_of_le (List.length_drop.trans_le (Nat.sub_le _ _))
  · rw [if_neg hclear, if_neg hclear]
    exact hput

/-- An image ends as the reference ends, with the pixels it makes (41_lzw.md R82, R83, R94). -/
theorem decodeImage_pixels (hs : streamWf s.stream = true) (hends : terminated (startDecode m s) = true)
    (hf : s.rectFits = true) :
    ∃ t, decodeImage m s = endAs (referenceImage m ((dataLeft (startDecode m s)).flatMap byteBits)).status t ∧
      PixelsPut s (referenceImage m ((dataLeft (startDecode m s)).flatMap byteBits)).pixels t := by
  obtain ⟨-, t, himage, -⟩ := decodeImage_matches h1 h2 hs hends
  refine ⟨t, himage, ?_⟩
  have hput : (decodeImage m s).Leaves
      (PixelsPut s (referenceImage m ((dataLeft (startDecode m s)).flatMap byteBits)).pixels) :=
    (decodeCodes_pixels h1 h2 hs hends hf).andThen (fun _ _ _ h => h) fun _ u _ h =>
      ((streamRead8_posOnly u).mono fun v hpos => h.congr hpos.decodeOnly (by rw [hpos]; rfl) (by rw [hpos]; rfl)).andThen
        (fun _ _ _ h => h) fun _ _ _ h => h
  rw [himage] at hput
  unfold endAs at hput
  split at hput <;> exact hput

end

/-! The command. -/

/-- The status an image ends with (41_lzw.md R94, R95). -/
def EndsImage (st : Status) : Prop := st = .ok ∨ st = .noClearCode ∨ st = .badCode ∨ st = .endOfData

theorem referenceCodes_endsImage (m fuel : Nat) (dict : List (List Byte)) (fresh : Bool) {e : ImageEnd}
    (h : EndsImage e.status) : EndsImage (referenceCodes m fuel dict fresh e).status := by
  induction fuel generalizing dict fresh e with
  | zero => exact h
  | succ fuel ih =>
    rw [referenceCodes_succ]
    dsimp only
    split
    · exact .inr (.inr (.inr rfl))
    split
    · exact ih _ _ h
    split
    · exact .inl rfl
    split
    · exact .inr (.inr (.inl rfl))
    · exact ih _ _ h

/-- The string decoder ends with one of four statuses (41_lzw.md R94, R95). -/
theorem referenceImage_endsImage (m : Nat) (bits : List Bool) : EndsImage (referenceImage m bits).status := by
  rw [referenceImage_eq]
  dsimp only
  split
  · exact .inr (.inr (.inr rfl))
  split
  · exact referenceCodes_endsImage m _ _ _ (.inr (.inr (.inr rfl)))
  · exact .inr (.inl rfl)

/-- Settles O24: the pre-scan sets the end (`decodeCommand_of_codeSize`), and the image ends with the status and the pixels
of the reference (`decodeImage_pixels`). -/
theorem decodeAgreesWithStringLzw : Obligations.DecodeAgreesWithStringLzw := by
  intro s m hs hf hm h1 h2 hends
  obtain ⟨hfrom, p, hp, hcommand⟩ := decodeCommand_of_codeSize hs hf hm h1 h2
  set s₁ := s.setPos (s.pos + 1)
  have hstart : streamFrom (startDecode m.toNat s₁) = s.stream.drop (s.pos.toNat + 1) := by
    obtain ⟨hstream, hpos⟩ := startDecode_stream_pos m.toNat s₁
    rw [← hfrom, streamFrom, streamFrom, hstream, hpos]
  have hdata : dataLeft (startDecode m.toNat s₁) = payload 0 (s.stream.drop (s.pos.toNat + 1)) := by
    rw [dataLeft, hstart]; rfl
  have hterm : terminated (startDecode m.toNat s₁) = true := by rw [terminated, hstart]; exact hends
  obtain ⟨t, himage, hput⟩ := decodeImage_pixels (s := s₁) h1 h2 hs hterm hf
  rw [hdata] at himage hput
  rw [hends, if_pos rfl, himage, seekAtEnd_endAs] at hcommand
  have hexec := (exec_decode s).trans (congrArg endCommand hcommand)
  rw [endCommand_endAs] at hexec
  refine ⟨_, _, rfl, hexec, rfl, hp, hput.off, fun q v hq hv => ?_,
    fun i hi => hput.kept hi⟩
  have hcell := hput.cells q hq
  rw [hv] at hcell
  exact hcell

/-- Settles O25: DECODE ends as the string decoder ends (`decodeAgreesWithStringLzw`), which has four ends
(`referenceImage_endsImage`). -/
theorem decodeEndsAtImageEnd : Obligations.DecodeEndsAtImageEnd := by
  intro s m hs hf hm h1 h2 hends
  obtain ⟨e, t, rfl, hexec, hstatus, hpos, -⟩ := decodeAgreesWithStringLzw s m hs hf hm h1 h2 hends
  exact ⟨t, hexec, hpos, hstatus ▸ referenceImage_endsImage _ _⟩

end Sys2Proof.Safety
end

/-! PROOF. What DECODE leaves alone, and what CODE holds after an error, from every state (41_lzw.md R78, R83, R89, R97). -/

section
namespace Sys2Proof.Machine

/-! Properties that every write of DECODE keeps. -/

/-- `P` is kept by the reads of the stream and by every write of DECODE: the registers, T, and PutPixel. -/
structure DecodeKeeps (P : State → Prop) : Prop where
  readerOnly : ∀ {s t : State}, P s → ReaderOnly s t → P t
  setLzw : ∀ {s : State} (l : Lzw), P s → P (s.setLzw l)
  setTable : ∀ {s : State} (tbl : Memory Entry), P s → P (s.setTable tbl)
  putPixel : ∀ {s : State} (p : Nat) (v : Byte), P s → P (putPixel p v s)

namespace DecodeKeeps

variable {P : State → Prop} {s : State} (k : DecodeKeeps P)
include k

theorem posOnly {t : State} (h : P s) (hpos : PosOnly s t) : P t := k.readerOnly h hpos.readerOnly

theorem startDecode (m : Nat) (h : P s) : P (startDecode m s) := by
  unfold Machine.startDecode
  rw [writeLiterals_tableOnly]
  exact k.readerOnly (k.setLzw _ (k.setTable _ h)) ((ReaderOnly.refl _).setReader _)

theorem tableStep (m : Nat) (h : P s) : (tableStep m s).Leaves P := by
  unfold Machine.tableStep
  split
  · exact k.setLzw _ h
  · split
    · exact k.setLzw _ h
    · split
      · exact h
      · exact k.setLzw _ (k.setTable _ h)

theorem nextCode (h : P s) : (nextCode s).Leaves P :=
  (getKey_readerOnly _ s).andThen (fun _ _ _ hro => k.readerOnly h hro) fun _ _ _ hro => k.setLzw _ (k.readerOnly h hro)

theorem dataCode (h : P s) : (dataCode s).Leaves P := by
  unfold Machine.dataCode
  split
  · exact h
  · have hwalk : (resolveCode (s.setLzw s.lzw.applyGrowth)).Leaves P :=
      (walkChain_leaves (fun p v _ => k.putPixel p v) _ _ (k.setLzw _ h)).andThen (fun _ _ _ h => h)
        fun _ _ _ h => k.setLzw _ h
    refine hwalk.andThen (fun _ _ _ h => h) fun _ t _ h => ?_
    rw [Safety.fixUp_tableOnly]
    exact k.setTable _ h

theorem decodeRound (m : Nat) (h : P s) : (decodeRound m s).Leaves P :=
  (k.tableStep m h).andThen (fun _ _ _ h => h) fun _ _ _ h =>
    (k.nextCode h).andThen (fun _ _ _ h => h) fun _ _ _ h => by
      split
      · exact h
      · split
        · exact h
        · exact (k.dataCode h).andThen (fun _ _ _ h => h) fun _ _ _ h => h

theorem decodeLoop (m fuel : Nat) (h : P s) : (decodeLoop m fuel s).Leaves P := by
  induction fuel generalizing s with
  | zero => trivial
  | succ fuel ih =>
    refine (k.decodeRound m h).andThen (fun _ _ _ h => h) fun goOn _ _ h => ?_
    cases goOn with
    | false => exact h
    | true => exact ih h

theorem decodeCodes (m : Nat) (h : P s) : (decodeCodes m s).Leaves P :=
  (k.nextCode h).andThen (fun _ _ _ h => h) fun _ _ _ h => by
    split
    · exact k.decodeLoop m _ h
    · exact h

theorem decodeImage (m : Nat) (h : P s) : (decodeImage m s).Leaves P :=
  (k.decodeCodes m (k.startDecode m h)).andThen (fun _ _ _ h => h) fun _ t _ h =>
    (streamRead8_posOnly t).andThen (fun _ _ _ hpos => k.posOnly h hpos) fun _ _ _ hpos => k.posOnly h hpos

theorem decodeCommand (h : P s) : (decodeCommand s).Leaves P := by
  unfold Machine.decodeCommand
  split
  · refine (readCodeSize_posOnly s).andThen (fun _ _ _ hpos => k.posOnly h hpos) fun m t _ hpos => ?_
    have ht := k.posOnly h hpos
    refine (skipSubBlocks_posOnly t).andThen (fun _ _ _ hpos => k.posOnly ht hpos) fun _ u _ hpos => ?_
    exact seekAtEnd_leaves (k.decodeImage m (k.posOnly (k.posOnly ht hpos) ((PosOnly.refl u).setPos _)))
      fun v hv => k.posOnly hv ((PosOnly.refl v).setPos _)
  · exact h

end DecodeKeeps

/-! The frame. -/

/-- A pixel of the rectangle goes to the cell of a canvas pixel inside the rectangle (41_lzw.md R97). -/
theorem State.pixelCell_ne_of_outside {s : State} (hf : s.rectFits = true) {p : Nat}
    (hp : p < s.rect.fw.toNat * s.rect.fh.toNat) {x y : Nat} (hx : x < s.width) (hout : s.inRect x y = false) :
    s.cellIndex x y ≠ s.pixelCell p := by
  intro he
  obtain ⟨hcol, hrow⟩ := State.column_row_lt hp
  obtain ⟨hfx, -⟩ := s.rectFits_iff.mp hf
  obtain ⟨rfl, rfl⟩ := State.cellIndex_inj hx (by omega) he
  have hin := (s.inRect_iff _ _).mpr ⟨⟨Nat.le_add_right _ _, Nat.add_lt_add_left hcol _⟩, Nat.le_add_right _ _,
    Nat.add_lt_add_left hrow _⟩
  rw [hin] at hout
  cases hout

theorem DecodeOnly.setTable {s t : State} (h : DecodeOnly s t) (tbl : Memory Entry) : DecodeOnly s (t.setTable tbl) := by
  unfold DecodeOnly at *; rw [h]; rfl

/-- `t` is what DECODE may make of `s`, and FRAME holds what it held at every canvas pixel outside the rectangle. -/
def OutsideKept (s t : State) : Prop :=
  DecodeOnly s t ∧ ∀ x y, x < s.width → s.inRect x y = false → t.frameAt (s.cellIndex x y) = s.frameAt (s.cellIndex x y)

theorem outsideKept_decodeKeeps {s : State} (hf : s.rectFits = true) : DecodeKeeps (OutsideKept s) where
  readerOnly := fun ⟨ho, hout⟩ hro => ⟨ho.trans hro.decodeOnly, by rw [hro]; exact hout⟩
  setLzw l := fun ⟨ho, hout⟩ => ⟨ho.setLzw l, hout⟩
  setTable tbl := fun ⟨ho, hout⟩ => ⟨ho.setTable tbl, hout⟩
  putPixel p v := fun ⟨ho, hout⟩ => by
    refine ⟨ho.putPixel p v, fun x y hx hxy => ?_⟩
    rw [frameAt_putPixel, ho.rect, ho.pixelCell, if_neg fun ⟨hp, he⟩ => State.pixelCell_ne_of_outside hf hp hx hxy he]
    exact hout x y hx hxy

theorem decodeCommand_outsideKept (s : State) : (decodeCommand s).Leaves (OutsideKept s) := by
  have hstart : OutsideKept s s := ⟨DecodeOnly.refl s, fun _ _ _ _ => rfl⟩
  by_cases hf : s.rectFits = true
  · exact (outsideKept_decodeKeeps hf).decodeCommand hstart
  · rw [decodeCommand, if_neg hf]
    exact hstart

/-- Settles O26: only PutPixel writes FRAME, and it writes inside the rectangle (`decodeCommand_outsideKept`). -/
theorem decodeFrameCondition : Obligations.DecodeFrameCondition := by
  intro s t ht
  obtain ⟨u, st, ⟨ho, hout⟩, rfl⟩ := (decodeCommand_outsideKept s).of_next ht
  exact ⟨by rw [ho]; rfl, fun x y hx _ hxy => hout x y hx hxy⟩

/-! What a part raises. -/

section
variable {α β : Type} {Q : Status → State → Prop}

/-- Every status the part raises, with the state it is raised in, is as `Q` says. -/
def Res.Raises (Q : Status → State → Prop) (r : Res α) : Prop := ∀ st t, r = .raised st t → Q st t

theorem Res.raises_done (a : α) (s : State) : (Res.done a s).Raises Q := fun _ _ h => nomatch h
theorem Res.raises_faulted (f : Fault) : (Res.faulted f : Res α).Raises Q := fun _ _ h => nomatch h
theorem Res.raises_raised {st : Status} {s : State} (h : Q st s) : (Res.raised st s : Res α).Raises Q := by
  rintro _ _ ⟨⟩
  exact h

theorem Res.Raises.andThen {r : Res α} {next : α → State → Res β} (h : r.Raises Q)
    (hn : ∀ a s, r = .done a s → (next a s).Raises Q) : (r.andThen next).Raises Q := by
  intro st t hraised
  obtain hr | ⟨a, s, hr, hnext⟩ := Res.andThen_eq_raised hraised
  · exact h st t hr
  · exact hn a s hr st t hnext

end

/-- After BadCode CODE is at or above NENTRIES, and after NoClearCode it is not the clear code (41_lzw.md R83, R89). -/
def CodeFailsTest (st : Status) (t : State) : Prop :=
  (st = .badCode → t.lzw.nentries.toNat ≤ t.lzw.code.toNat) ∧
    (st = .noClearCode → t.lzw.code.toNat ≠ 2 ^ (t.lzw.initKs.toNat - 1))

theorem streamRead8_raises (s : State) : (streamRead8 s).Raises CodeFailsTest := by
  obtain ⟨b, -, h⟩ | ⟨-, h⟩ := streamRead8_cases s <;> rw [h]
  · exact Res.raises_done _ _
  · exact Res.raises_raised ⟨nofun, nofun⟩

theorem readCodeSize_raises (s : State) : (readCodeSize s).Raises CodeFailsTest :=
  (streamRead8_raises s).andThen fun m t _ => by
    split
    · exact Res.raises_raised ⟨nofun, nofun⟩
    · exact Res.raises_done _ _

theorem skipLoop_raises (fuel : Nat) (s : State) : (skipLoop fuel s).Raises CodeFailsTest := by
  induction fuel generalizing s with
  | zero => exact Res.raises_faulted _
  | succ fuel ih =>
    refine (streamRead8_raises s).andThen fun len t _ => ?_
    split
    · exact Res.raises_done _ _
    · exact ih _

theorem getKey_raises (w : Nat) (s : State) : (getKey w s).Raises CodeFailsTest := by
  unfold getKey
  refine Res.Raises.andThen ?_ fun _ _ _ => Res.raises_done _ _
  obtain ⟨k, t, h, -⟩ | ⟨st, t, h, hst⟩ := Safety.getKeyLoop_cases w w 0 0 s (Nat.zero_le _) le_rfl Nat.one_pos <;> rw [h]
  · exact Res.raises_done _ _
  · obtain rfl | rfl := hst <;> exact Res.raises_raised ⟨nofun, nofun⟩

theorem nextCode_raises (s : State) : (nextCode s).Raises CodeFailsTest :=
  (getKey_raises _ s).andThen fun _ _ _ => Res.raises_done _ _

theorem tableStep_raises (m : Nat) (s : State) : (tableStep m s).Raises CodeFailsTest := by
  unfold tableStep
  split
  · exact Res.raises_done _ _
  · split
    · exact Res.raises_done _ _
    · split
      · exact Res.raises_raised ⟨nofun, nofun⟩
      · exact Res.raises_done _ _

theorem walkChain_raises (fuel e : Nat) (s : State) : (walkChain fuel e s).Raises CodeFailsTest := by
  induction fuel generalizing e s with
  | zero => exact Res.raises_faulted _
  | succ fuel ih =>
    unfold walkChain
    dsimp only
    split
    · exact Res.raises_done _ _
    · exact ih _ _

/-- BadCode is raised with the CODE that failed its check (41_lzw.md R89). -/
theorem dataCode_raises (s : State) : (dataCode s).Raises CodeFailsTest := by
  unfold dataCode
  split
  next hbad => exact Res.raises_raised ⟨fun _ => hbad, nofun⟩
  next =>
    exact ((walkChain_raises _ _ _).andThen fun _ _ _ => Res.raises_done _ _).andThen fun _ _ _ => Res.raises_done _ _

theorem decodeRound_raises (m : Nat) (s : State) : (decodeRound m s).Raises CodeFailsTest :=
  (tableStep_raises m s).andThen fun _ t _ => (nextCode_raises t).andThen fun _ u _ => by
    split
    · exact Res.raises_done _ _
    · split
      · exact Res.raises_done _ _
      · exact (dataCode_raises u).andThen fun _ _ _ => Res.raises_done _ _

theorem decodeLoop_raises (m fuel : Nat) (s : State) : (decodeLoop m fuel s).Raises CodeFailsTest := by
  induction fuel generalizing s with
  | zero => exact Res.raises_faulted _
  | succ fuel ih =>
    refine (decodeRound_raises m s).andThen fun goOn t _ => ?_
    cases goOn with
    | false => exact Res.raises_done _ _
    | true => exact ih t

/-- NoClearCode is raised with a first code that is not the clear code (41_lzw.md R83). -/
theorem decodeCodes_raises {m : Nat} {s : State} (hm : s.lzw.initKs.toNat = m + 1) :
    (decodeCodes m s).Raises CodeFailsTest :=
  (nextCode_raises s).andThen fun k t hcode => by
    split
    next => exact decodeLoop_raises m _ t
    next hclear =>
      refine Res.raises_raised ⟨nofun, fun _ => ?_⟩
      rw [(nextCode_done hcode).1]
      show k.toNat ≠ 2 ^ (s.lzw.initKs.toNat - 1)
      rw [hm]
      exact hclear

theorem seekAtEnd_raises (p : BitVec 32) {r : Res Unit} (h : r.Raises CodeFailsTest) :
    (seekAtEnd p r).Raises CodeFailsTest := by
  cases r with
  | done a s => exact Res.raises_done _ _
  | raised st s => exact Res.raises_raised (h st s rfl)
  | faulted f => exact Res.raises_faulted _

theorem decodeCommand_raises (s : State) : (decodeCommand s).Raises CodeFailsTest := by
  unfold decodeCommand
  split
  · refine (readCodeSize_raises s).andThen fun m t hm => (skipLoop_raises _ t).andThen fun _ u _ => ?_
    have hinit : (startDecode m (streamSeek (streamPos t) u)).lzw.initKs.toNat = m + 1 := by
      rw [startDecode_lzw]
      exact Safety.start_initKs (Safety.readCodeSize_range hm).2 _
    exact seekAtEnd_raises _ ((decodeCodes_raises hinit).andThen fun _ v _ =>
      (streamRead8_raises v).andThen fun _ _ _ => Res.raises_done _ _)
  · exact Res.raises_raised ⟨nofun, nofun⟩

/-- Settles O27: BadCode is raised by a data code only and NoClearCode by the first code only, each with the CODE that
failed its test (`decodeCommand_raises`). -/
theorem codeAfterErrorFailsItsTest : Obligations.CodeAfterErrorFailsItsTest := by
  intro s t ht
  obtain ⟨u, -, he⟩ | ⟨st, u, hraised, he⟩ | ⟨f, -, he⟩ := endCommand_cases (decodeCommand s)
  · obtain rfl := Host.Outcome.next.inj (he.symm.trans ht)
    exact ⟨nofun, nofun⟩
  · obtain rfl := Host.Outcome.next.inj (he.symm.trans ht)
    exact decodeCommand_raises s st u hraised
  · cases he.symm.trans ht

end Sys2Proof.Machine
end

/-! PROOF. INIT and PAL_WRITE, and what DISPOSE does to one canvas cell (42_compositor.md R102 to R108). -/

section
namespace Sys2Proof.Machine

/-! Reads of one palette after a write of the other. -/

@[simp] theorem State.gpalAt_writeLpal (s : State) (i : Byte) (c : Color) (j : Byte) :
    (s.writeLpal i c).gpalAt j = s.gpalAt j := rfl
@[simp] theorem State.lpalAt_writeGpal (s : State) (i : Byte) (c : Color) (j : Byte) :
    (s.writeGpal i c).lpalAt j = s.lpalAt j := rfl

/-! INIT. -/

/-- INIT fills FRAME with BG_INDEX (42_compositor.md R103). -/
theorem frameAt_initState {s : State} {i : Nat} (hi : i < s.cells) : (initState s).frameAt i = some s.bg :=
  (Memory.read_filled frameUnlisted s.cells s.bg i).trans (if_pos hi)

/-- INIT fills CANVAS with GPAL[BG_INDEX] (42_compositor.md R103). -/
theorem canvasAt_initState {s : State} {i : Nat} (hi : i < s.cells) :
    (initState s).canvasAt i = some (s.gpalAt s.bg) :=
  (Memory.read_filled canvasUnlisted s.cells (s.gpalAt s.bg) i).trans (if_pos hi)

/-- INIT's writes side by side (42_compositor.md R103). -/
theorem initState_eq (s : State) :
    initState s =
      { s with
        frame := Memory.filled s.cells s.bg, canvas := Memory.filled s.cells (s.gpalAt s.bg),
        rect := { fx := 0, fy := 0, fw := 0, fh := 0 }, ctrl := { interlace := false, lpalSel := false },
        gce := { disposal := 0, transp := false, tindex := 0, delay := 0 } } := by
  ext1 <;> simp [initState]

theorem exec_init (s : State) : exec .init s = .next ((initState s).setStatus .ok) := rfl

/-- Settles O36: the filled buffers are read cell by cell (`frameAt_initState`, `canvasAt_initState`), and the
other fields follow from `initState_eq`. -/
theorem initFillsBuffers : Obligations.InitFillsBuffers := by
  refine ⟨by decide, fun s => ⟨_, exec_init s, fun i hi => ⟨?_, ?_⟩, rfl, rfl, rfl, rfl, ?_⟩⟩
  · exact frameAt_initState hi
  · exact canvasAt_initState hi
  · rw [initState_eq]
    rfl

/-! PAL_WRITE. -/

theorem gpalAt_palWriteState (sel : PalSel) (index : Byte) (color : Color) (s : State) (i : Byte) :
    (palWriteState sel index color s).gpalAt i = if sel = .gpal ∧ i = index then color else s.gpalAt i := by
  cases sel with
  | gpal => simp [palWriteState, State.gpalAt_writeGpal]
  | lpal => simp [palWriteState]

theorem lpalAt_palWriteState (sel : PalSel) (index : Byte) (color : Color) (s : State) (i : Byte) :
    (palWriteState sel index color s).lpalAt i = if sel = .lpal ∧ i = index then color else s.lpalAt i := by
  cases sel with
  | gpal => simp [palWriteState]
  | lpal => simp [palWriteState, State.lpalAt_writeLpal]

theorem palWriteState_eq (sel : PalSel) (index : Byte) (color : Color) (s : State) :
    palWriteState sel index color s =
      { s with gpal := (palWriteState sel index color s).gpal, lpal := (palWriteState sel index color s).lpal } := by
  cases sel <;> rfl

theorem selBit_toNat (sel : PalSel) : (selBit sel).toNat * 16 = if sel = .gpal then 0 else 16 := by
  cases sel <;> rfl

theorem exec_palWrite (sel : PalSel) (index : Byte) (color : Color) (s : State) :
    exec (.palWrite sel index color) s = .next ((palWriteState sel index color s).setStatus .ok) := rfl

/-- Settles O37: the word's fields as a number (`formatP_toNat`), and each palette entry after the write. -/
theorem palWriteStoresOneEntry : Obligations.PalWriteStoresOneEntry := by
  intro s sel index color
  refine ⟨?_, _, exec_palWrite sel index color s, rfl, gpalAt_palWriteState sel index color s,
    lpalAt_palWriteState sel index color s, congrArg (State.setStatus · .ok) (palWriteState_eq sel index color s)⟩
  rw [encode, formatP_toNat, selBit_toNat]
  rfl

/-! DISPOSE as one rule for every canvas cell. -/

/-- What DISPOSE leaves in canvas cell `i` that held `old`: by the disposal method inside a rectangle that fits, `old`
elsewhere (42_compositor.md R105 to R108). -/
def disposedOver (s : State) (i : Nat) (old : Option Color) : Option Color :=
  if s.rectFits = true ∧ i ∈ s.rectCells then
    if s.gce.disposal = 2 then some (s.actAt s.bg)
    else if s.gce.disposal = 3 then old
    else drawnOver s ((s.frameAt i).getD 0) old
  else old

/-- Every FRAME cell that DISPOSE reads holds a value (70_reset_and_hazards.md R124). -/
def Drawable (s : State) : Prop :=
  s.rectFits = true → s.gce.disposal ≠ 2 → s.gce.disposal ≠ 3 → ∀ i ∈ s.rectCells, s.frameAt i ≠ none

/-- `t` is `s` after DISPOSE: every canvas cell by `disposedOver`, STATUS, and nothing else. -/
structure Disposed (s t : State) : Prop where
  cells : ∀ i, t.canvasAt i = disposedOver s i (s.canvasAt i)
  others : t = (s.setCanvas t.canvas).setStatus (if s.rectFits then .ok else .badRect)

section
variable {s t : State}

theorem disposedOver_outside {i : Nat} (h : i ∉ s.rectCells) (old : Option Color) : disposedOver s i old = old :=
  if_neg fun ⟨_, hi⟩ => h hi

theorem disposedOver_badRect (hf : s.rectFits = false) (i : Nat) (old : Option Color) : disposedOver s i old = old :=
  if_neg fun ⟨ht, _⟩ => Bool.false_ne_true (hf.symm.trans ht)

theorem disposedOver_background (hf : s.rectFits = true) (h2 : s.gce.disposal = 2) (i : Nat) (old : Option Color) :
    disposedOver s i old = if i ∈ s.rectCells then some (s.actAt s.bg) else old := by
  simp only [disposedOver, hf, h2, true_and, if_true]

theorem disposedOver_previous (h3 : s.gce.disposal = 3) (i : Nat) (old : Option Color) : disposedOver s i old = old := by
  rw [disposedOver, h3]
  exact ite_self old

theorem disposedOver_drawn (hf : s.rectFits = true) (h2 : s.gce.disposal ≠ 2) (h3 : s.gce.disposal ≠ 3) (i : Nat)
    (old : Option Color) :
    disposedOver s i old = if i ∈ s.rectCells then drawnOver s ((s.frameAt i).getD 0) old else old := by
  simp only [disposedOver, hf, h2, h3, true_and, if_false]

theorem drawnOver_drawnOver (s : State) (idx : Byte) (old : Option Color) :
    drawnOver s idx (drawnOver s idx old) = drawnOver s idx old := by
  unfold drawnOver
  split <;> rfl

/-- DISPOSE of what DISPOSE left changes no cell. -/
theorem disposedOver_disposedOver (s : State) (i : Nat) (old : Option Color) :
    disposedOver s i (disposedOver s i old) = disposedOver s i old := by
  unfold disposedOver
  split
  · split
    · rfl
    · split
      · rfl
      · exact drawnOver_drawnOver _ _ _
  · rfl

/-- Everything DISPOSE can come to: every cell by `disposedOver` when the cells it reads hold values, else a fault
(42_compositor.md R104 to R108, 70_reset_and_hazards.md R124). -/
theorem exec_dispose_cases (s : State) :
    (Drawable s ∧ ∃ t, exec .dispose s = .next t ∧ Disposed s t) ∨
      (¬ Drawable s ∧ exec .dispose s = .fault .unwrittenFrame) := by
  rw [exec_eq_endCommand, commandPart]
  obtain ⟨hf, e⟩ | ⟨hf, h2, e⟩ | ⟨hf, h3, e⟩ | ⟨hf, h2, h3, e⟩ := disposeCommand_cases s <;> rw [e]
  · exact .inl ⟨fun ht => absurd (hf.symm.trans ht) Bool.false_ne_true, _, rfl,
      fun i => (disposedOver_badRect hf i _).symm, by rw [hf]; rfl⟩
  · refine .inl ⟨fun _ hne => absurd h2 hne, _, rfl, fun i => ?_, by rw [hf]; rfl⟩
    exact (Memory.read_fillAt ..).trans (disposedOver_background hf h2 i _).symm
  · exact .inl ⟨fun _ _ hne => absurd h3 hne, _, rfl, fun i => (disposedOver_previous h3 i _).symm, by rw [hf]; rfl⟩
  · rw [disposeByDrawing]
    by_cases hd : ∀ i ∈ s.rectCells, s.frameAt i ≠ none
    · obtain ⟨c, hc, hcells⟩ := drawCells_spec s s.rectCells hd s.canvas
      rw [hc]
      exact .inl ⟨fun _ _ _ => hd, _, rfl, fun i => (hcells i).trans (disposedOver_drawn hf h2 h3 i _).symm,
        by rw [hf]; rfl⟩
    · refine .inr ⟨fun h => hd (h hf h2 h3), ?_⟩
      push Not at hd
      obtain ⟨i, hi, hnone⟩ := hd
      rw [drawCells_none s _ hi hnone]
      rfl

theorem Drawable.exec_dispose (h : Drawable s) : ∃ t, exec .dispose s = .next t ∧ Disposed s t := by
  obtain ⟨-, ht⟩ | ⟨hn, -⟩ := exec_dispose_cases s
  · exact ht
  · exact absurd h hn

theorem disposed_of_exec (h : exec .dispose s = .next t) : Drawable s ∧ Disposed s t := by
  obtain ⟨hd, u, hu, hs⟩ | ⟨-, hfault⟩ := exec_dispose_cases s
  · cases hu.symm.trans h
    exact ⟨hd, hs⟩
  · cases hfault.symm.trans h

theorem Disposed.status_ok (h : Disposed s t) (hf : s.rectFits = true) : t.status = .ok := by
  rw [h.others, hf]
  rfl

theorem Disposed.canvas_status (h : Disposed s t) : t = { s with canvas := t.canvas, status := t.status } := by
  rw [h.others]
  rfl

theorem Disposed.past_cells (h : Disposed s t) (hf : s.rectFits = true) {i : Nat} (hi : s.cells ≤ i) :
    t.canvasAt i = s.canvasAt i :=
  (h.cells i).trans (disposedOver_outside (fun hm => absurd (State.rectCells_lt hf hm) (not_lt.mpr hi)) _)

end

/-! The disposal methods. -/

/-- Settles O39: the branch of disposal 3 is the state as it was (`disposeCommand_eq`). -/
theorem disposeToPreviousKeepsCanvas : Obligations.DisposeToPreviousKeepsCanvas := by
  intro s hf h3
  rw [exec_eq_endCommand, commandPart, disposeCommand_eq, hf, h3]
  rfl

/-- Settles O38: no FRAME cell is read, and the cells follow `disposedOver_background`. -/
theorem disposeToBackgroundFills : Obligations.DisposeToBackgroundFills := by
  intro s hf h2
  obtain ⟨t, ht, hs⟩ := Drawable.exec_dispose (s := s) fun _ hne => absurd h2 hne
  refine ⟨t, ht, hs.status_ok hf, fun x y hx _ => ?_, fun i hi => hs.past_cells hf hi, hs.canvas_status⟩
  rw [hs.cells, disposedOver_background hf h2]
  simp only [State.cellIndex_mem_rectCells hf hx]
  rfl

/-- Settles O40: the premise is `Drawable`, and the cells follow `disposedOver_drawn`. -/
theorem disposeRenderOverDraws : Obligations.DisposeRenderOverDraws := by
  intro s hf h2 h3 hframe
  have hd : Drawable s := fun _ _ _ i hi => by
    obtain ⟨x, y, hr, rfl⟩ := (s.mem_rectCells i).mp hi
    exact hframe x y hr
  obtain ⟨t, ht, hs⟩ := hd.exec_dispose
  refine ⟨t, ht, hs.status_ok hf, fun x y idx hr hidx => ?_, fun x y hx _ hr => ?_, fun i hi => hs.past_cells hf hi,
    hs.canvas_status⟩
  · rw [hs.cells, disposedOver_drawn hf h2 h3, if_pos ((s.mem_rectCells _).mpr ⟨x, y, hr, rfl⟩), hidx, Option.getD_some,
      drawnOver]
    simp only [State.transparent, Bool.and_eq_true, beq_iff_eq]
    rfl
  · rw [hs.cells, disposedOver_outside]
    rw [State.cellIndex_mem_rectCells hf hx, hr]
    exact Bool.false_ne_true

/-- Settles O42: the second DISPOSE finds the same frame, and the rule of a cell is idempotent
(`disposedOver_disposedOver`). -/
theorem disposeTwiceIsOnce : Obligations.DisposeTwiceIsOnce := by
  intro s t h
  obtain ⟨hd, hs⟩ := disposed_of_exec h
  have hdt : Drawable t := by rw [hs.others]; exact hd
  have hover : disposedOver t = disposedOver s := by rw [hs.others]; rfl
  have hstatus : (if t.rectFits then .ok else .badRect) = t.status := by rw [hs.others]; rfl
  obtain ⟨u, hu, hsu⟩ := hdt.exec_dispose
  refine ⟨u, hu, fun i => ?_, ?_⟩
  · rw [hsu.cells, hover, hs.cells, disposedOver_disposedOver]
  · exact hsu.others.trans (congrArg (State.setStatus _) hstatus)

end Sys2Proof.Machine
end

/-! PROOF. The composite view (42_compositor.md R109). -/

section
namespace Sys2Proof.Machine

section
variable {s t : State} {x y : Nat}

/-- CanvasRead depends on the canvas's size and on the one cell (20_memory.md R59). -/
theorem canvasPort_congr {i : Nat} (hcells : t.cells = s.cells) (h : t.canvasAt i = s.canvasAt i) :
    canvasPort t i = canvasPort s i := by
  rw [canvasPort, hcells, h, canvasPort]

/-- Nothing is laid over a pixel outside the frame rectangle or of a rectangle that does not fit. -/
theorem viewPort_outside (hx : x < s.width) (hy : y < s.height) (h : s.rectFits = false ∨ s.inRect x y = false) :
    viewPort s x y = canvasPort s (s.cellIndex x y) := by
  have hno : (s.rectFits && s.inRect x y) = false := Bool.and_eq_false_iff.mpr h
  simp [viewPort, hx, hy, hno]

/-- In the rectangle the view is the frame's pixel, or the canvas where that pixel is transparent. -/
theorem viewPort_inside (hf : s.rectFits = true) (hr : s.inRect x y = true) {idx : Byte}
    (hidx : s.frameAt (s.cellIndex x y) = some idx) :
    viewPort s x y = if s.transparent idx then canvasPort s (s.cellIndex x y) else .value (s.actAt idx) := by
  obtain ⟨hx, hy⟩ := State.inRect_lt hf hr
  simp [viewPort, hx, hy, hf, hr, hidx]

end

/-- Settles O43: in the rectangle by what drawing does to the cell (`disposedOver_drawn`), elsewhere DISPOSE keeps it. -/
theorem viewIsFrameDrawnOver : Obligations.ViewIsFrameDrawnOver := by
  intro s t hf h x y hx hy
  obtain ⟨hd, hs⟩ := disposed_of_exec h
  have hcells : t.cells = s.cells := by rw [hs.others]; rfl
  have hcell : t.canvasAt (s.cellIndex x y) =
      if s.cellIndex x y ∈ s.rectCells then
        drawnOver s ((s.frameAt (s.cellIndex x y)).getD 0) (s.canvasAt (s.cellIndex x y))
      else s.canvasAt (s.cellIndex x y) :=
    (hs.cells _).trans (disposedOver_drawn (s := s.setGce { s.gce with disposal := 0 }) hf (by simp) (by simp) _ _)
  simp only [State.cellIndex_mem_rectCells hf hx] at hcell
  cases hr : s.inRect x y with
  | false =>
    rw [viewPort_outside hx hy (.inr hr)]
    exact (canvasPort_congr hcells (by simpa [hr] using hcell)).symm
  | true =>
    obtain ⟨idx, hidx⟩ := Option.ne_none_iff_exists'.mp
      (hd hf (by simp) (by simp) (s.cellIndex x y) ((State.cellIndex_mem_rectCells hf hx).mpr hr))
    replace hidx : s.frameAt (s.cellIndex x y) = some idx := hidx
    rw [hr, if_pos rfl, hidx, Option.getD_some, drawnOver] at hcell
    rw [viewPort_inside hf hr hidx]
    split at hcell
    next htrans => rw [if_pos htrans, canvasPort_congr hcells hcell]
    next hdrawn => rw [if_neg hdrawn, canvasPort_of_some (hcells ▸ State.cellIndex_lt hx hy) hcell]

/-- Settles O44: the rectangle INIT leaves is empty, and INIT has filled the canvas (`initFillsBuffers`). -/
theorem viewWithoutFrameIsCanvas : Obligations.ViewWithoutFrameIsCanvas := by
  refine ⟨fun s x y hf hx hy => viewPort_outside hx hy (.inl hf), fun s t x y h hx hy => ?_⟩
  obtain ⟨u, hu, hfill, hrect, -, -, -, hothers⟩ := initFillsBuffers.2 s
  obtain rfl : u = t := Host.Outcome.next.inj (hu.symm.trans h)
  have hwidth : u.width = s.width := by rw [hothers]; rfl
  have hheight : u.height = s.height := by rw [hothers]; rfl
  have hcells : u.cells = s.cells := congrArg₂ (· * ·) hwidth hheight
  rw [← hwidth] at hx
  rw [← hheight] at hy
  have hempty : u.inRect x y = false := by
    rw [Bool.eq_false_iff, Ne, State.inRect_iff, hrect]
    rintro ⟨⟨hle, hlt⟩, -⟩
    exact absurd hlt (Nat.not_lt.mpr hle)
  have hi := State.cellIndex_lt hx hy
  rw [viewPort_outside hx hy (.inr hempty), canvasPort_of_some hi (hfill _ (hcells ▸ hi)).2]

end Sys2Proof.Machine
end

/-! PROOF. What the host sees of a command's end: the registers it reads (10_state.md R18 to R31), the idle block, and
that every command ends with a status the table of status codes names for it (60_exceptions.md R111, R113, R122). -/

section
namespace Sys2Proof.Machine

/-! The read-only registers as numbers. -/

/-- LZW_STATE is the sum of its fields (10_state.md R26). -/
theorem Lzw.stateWord_toNat (l : Lzw) :
    l.stateWord.toNat = l.nentries.toNat + 2 ^ 16 * l.ks.toNat + 2 ^ 20 * l.initKs.toNat + 2 ^ 24 * l.full.toNat +
      2 ^ 25 * l.grow.toNat + 2 ^ 26 * l.patchEn.toNat := by
  simp only [Lzw.stateWord, toNat_append_fields, BitVec.toNat_ofBool, BitVec.ofNat_eq_ofNat, BitVec.toNat_ofNat,
    Nat.zero_mod]
  ring

/-- LZW_LAST is the sum of its fields (10_state.md R29). -/
theorem Lzw.lastWord_toNat (l : Lzw) : l.lastWord.toNat = l.code.toNat + 2 ^ 16 * l.first.toNat := by
  simp only [Lzw.lastWord, toNat_append_fields, BitVec.ofNat_eq_ofNat, BitVec.toNat_ofNat, Nat.zero_mod]
  ring

/-- BR_STATE is the sum of its fields (10_state.md R27). -/
theorem BitReader.toWord_toNat (r : BitReader) :
    r.toWord.toNat = r.sbRem.toNat + 2 ^ 8 * r.curByte.toNat + 2 ^ 16 * r.shift.toNat := by
  simp only [BitReader.toWord, toNat_append_fields, BitVec.ofNat_eq_ofNat, BitVec.toNat_ofNat, Nat.zero_mod]
  ring

/-- CANVAS_DIM is the sum of its fields (10_state.md R20). -/
theorem canvasDim_toNat (s : State) :
    (s.readReg .canvasDim).toNat = s.canvasW.toNat + 2 ^ 16 * s.canvasH.toNat := by
  rw [State.readReg, toNat_append_fields]
  ring

/-- Every word offset from 0x38 / 4 on is a reserved register (10_state.md R18). -/
theorem regAt_eq_reserved {a : Word} (h : 14 ≤ a.toNat / 4 % 64) : regAt a = .reserved := by
  have hoffset : 14 ≤ (a.extractLsb' 2 6).toNat := (toNat_field a 2 6).symm ▸ h
  unfold regAt
  split
  case h_15 => rfl
  all_goals omega

/-- Settles O12: each offset is a register's (`memRead_offset`), and the register's word is the sum of its fields. -/
theorem readOnlyRegisterFields : Obligations.ReadOnlyRegisterFields := by
  refine ⟨by decide, fun s a ha => congrArg s.readReg (regAt_eq_reserved ha), fun s => ?_⟩
  have hread (r : Reg) : (memRead r.offset s).toNat = (s.readReg r).toNat := congrArg _ (memRead_offset r s)
  exact ⟨(hread .status).trans (BitVec.toNat_setWidth_of_le (by decide)),
    (hread .canvasDim).trans (canvasDim_toNat s),
    (hread .keyOut).trans (BitVec.toNat_setWidth_of_le (by decide)),
    (hread .lzwState).trans s.lzw.stateWord_toNat,
    (hread .brState).trans s.reader.toWord_toNat,
    hread .lzwOff,
    (hread .lzwLast).trans s.lzw.lastWord_toNat,
    (hread .lzwPlen).trans (BitVec.toNat_setWidth_of_le (by decide)),
    memRead_offset .cmd s⟩

/-! The idle block. -/

/-- Settles O6: with nothing pending `performNext` answers the state itself. -/
theorem idleStepHoldsState : Obligations.IdleStepHoldsState := by
  intro s h
  rw [step, performNext, h]

/-! DISPOSE. -/

/-- The cells DISPOSE reads are those of the rectangle's pixels. -/
theorem drawable_iff (s : State) :
    Drawable s ↔ (s.rectFits = true → s.gce.disposal ≠ 2 → s.gce.disposal ≠ 3 →
      ∀ x y, s.inRect x y = true → s.frameAt (s.cellIndex x y) ≠ none) := by
  refine ⟨fun h hf h2 h3 x y hr => h hf h2 h3 _ ((s.mem_rectCells _).mpr ⟨x, y, hr, rfl⟩), fun h hf h2 h3 i hi => ?_⟩
  obtain ⟨x, y, hr, rfl⟩ := (s.mem_rectCells i).mp hi
  exact h hf h2 h3 x y hr

end Sys2Proof.Machine

namespace Sys2Proof.Safety

open Sys2Proof.Machine

/-! How each command ends. -/

/-- The command answers a next state, with a status that 60_exceptions.md R111 names for it. -/
def EndsNamed (i : Instr) (s : State) : Prop := ∃ t, exec i s = .next t ∧ mayEndWith i t.status = true

section
variable {i : Instr} {s t : State}

theorem endsNamed_of_next {st : Status} (h : exec i s = .next t) (hst : t.status = st) (hmay : mayEndWith i st = true) :
    EndsNamed i s := ⟨t, h, hst ▸ hmay⟩

/-- SKIP ends OK or StreamEnd (`skipDiscardsOneSequence`). -/
theorem skip_endsNamed (hs : streamWf s.stream = true) : EndsNamed .skip s := by
  obtain ⟨t, h, -, hst, -⟩ := skipDiscardsOneSequence s hs
  refine endsNamed_of_next h hst ?_
  split <;> rfl

/-- GET_KEY is refused for its width, or its code stream has the bits, or a terminator or the end of the stream cuts the
read short (40_subblock_reader.md R77). -/
theorem getKey_endsNamed (hs : streamWf s.stream = true) (w : BitVec 4) : EndsNamed (.getKey w) s := by
  by_cases hw : 2 ≤ w.toNat ∧ w.toNat ≤ 12
  · obtain ⟨h1, h2⟩ := hw
    obtain hlen | hlen := Nat.lt_or_ge (unreadBits s).length w.toNat
    · cases hterm : hasTerminator s.reader.sbRem.toNat (s.stream.drop s.pos.toNat) with
      | true =>
        obtain ⟨t, h, hst, -⟩ := getKeyMeetsTerminator s w hs h1 h2 hlen hterm
        exact endsNamed_of_next h hst rfl
      | false =>
        obtain ⟨t, h, hst, -⟩ := getKeyMeetsStreamEnd s w hs h1 h2 hlen hterm
        exact endsNamed_of_next h hst rfl
    · obtain ⟨t, h, hst, -⟩ := getKeyReadsNextBits s w hs h1 h2 hlen
      exact endsNamed_of_next h hst rfl
  · exact endsNamed_of_next (getKeyRefusesWidth s w (by omega)) rfl rfl

/-- An image whose pre-scan finds its terminator ends at it, with one of four statuses (`decodeEndsAtImageEnd`). -/
theorem decode_endsNamed_of_codeSize (hs : streamWf s.stream = true) (hf : s.rectFits = true) {m : Byte}
    (hm : s.stream[s.pos.toNat]? = some m) (h1 : 2 ≤ m.toNat) (h2 : m.toNat ≤ 8) : EndsNamed .decode s := by
  cases hterm : hasTerminator 0 (s.stream.drop (s.pos.toNat + 1)) with
  | false =>
    obtain ⟨t, h, hst, -⟩ := truncatedImageRefused s m hs hf hm h1 h2 hterm
    exact endsNamed_of_next h hst rfl
  | true =>
    obtain ⟨t, h, -, hst⟩ := decodeEndsAtImageEnd s m hs hf hm h1 h2 hterm
    obtain hst | hst | hst | hst := hst <;> exact endsNamed_of_next h hst rfl

/-- DECODE is refused for its rectangle or its code-size byte, or it comes to its pre-scan (41_lzw.md R79 to R81). -/
theorem decode_endsNamed (hs : streamWf s.stream = true) : EndsNamed .decode s := by
  cases hf : s.rectFits with
  | false => exact endsNamed_of_next (by rw [exec_decode, decodeCommand, hf]; rfl) rfl rfl
  | true =>
    obtain ⟨hnone, hbad⟩ := codeSizeByteChecked s hf
    cases hm : s.stream[s.pos.toNat]? with
    | none => exact endsNamed_of_next (hnone hm) rfl rfl
    | some m =>
      by_cases hrange : 2 ≤ m.toNat ∧ m.toNat ≤ 8
      · obtain ⟨h1, h2⟩ := hrange
        exact decode_endsNamed_of_codeSize hs hf hm h1 h2
      · exact endsNamed_of_next (hbad m hm (by omega)) rfl rfl

/-- DISPOSE ends OK or BadRect when the cells it reads hold values (`Drawable.exec_dispose`). -/
theorem dispose_endsNamed (hd : Drawable s) : EndsNamed .dispose s := by
  obtain ⟨t, h, hs⟩ := hd.exec_dispose
  refine endsNamed_of_next h (congrArg State.status hs.others) ?_
  rw [State.setStatus]
  split <;> rfl

end

/-- Settles O46, command by command: INIT, PAL_WRITE and BR_RESET always end OK. -/
theorem everyCommandEnds : Obligations.EveryCommandEnds := by
  intro i s hs hframe
  cases i with
  | init => exact endsNamed_of_next (exec_init s) rfl rfl
  | skip => exact skip_endsNamed hs
  | decode => exact decode_endsNamed hs
  | dispose => exact dispose_endsNamed ((drawable_iff s).mpr (hframe rfl))
  | palWrite sel index color => exact endsNamed_of_next (exec_palWrite sel index color s) rfl rfl
  | brReset => exact endsNamed_of_next (brResetClearsReader.2 s) rfl rfl
  | getKey w => exact getKey_endsNamed hs w

end Sys2Proof.Safety
end

/-! PROOF. Reads of cells that nothing has written, and that no step meets one once every cell of FRAME and CANVAS
holds a value (70_reset_and_hazards.md R124, R136, R138). -/

section
namespace Sys2Proof.Machine

/-- Settles O41: the pixel's cell is one that DISPOSE reads (`drawable_iff`), so of its two ends
(`exec_dispose_cases`) the fault is left. -/
theorem disposeOfUnwrittenFrameFaults : Obligations.DisposeOfUnwrittenFrameFaults := by
  intro s x y hf h2 h3 hr hnone
  obtain ⟨hd, -⟩ | ⟨-, hfault⟩ := exec_dispose_cases s
  · exact absurd hnone ((drawable_iff s).mp hd hf h2 h3 x y hr)
  · exact hfault

theorem drawnOver_ne_none (s : State) (idx : Byte) {old : Option Color} (h : old ≠ none) :
    drawnOver s idx old ≠ none := by
  unfold drawnOver
  split
  · exact h
  · exact Option.some_ne_none _

/-- DISPOSE takes no value away from a canvas cell (42_compositor.md R105 to R108). -/
theorem disposedOver_ne_none (s : State) (i : Nat) {old : Option Color} (h : old ≠ none) :
    disposedOver s i old ≠ none := by
  unfold disposedOver
  split
  · split
    · exact Option.some_ne_none _
    · split
      · exact h
      · exact drawnOver_ne_none s _ h
  · exact h

end Sys2Proof.Machine

namespace Sys2Proof.Safety

open Sys2Proof.Machine

section
variable {s t : State}

/-! Every command keeps the cells written. -/

/-- Whether every cell holds a value depends on the canvas's size, FRAME and CANVAS alone. -/
theorem AllWritten.congr (h : AllWritten s) (hw : t.canvasW = s.canvasW) (hh : t.canvasH = s.canvasH)
    (hframe : t.frame = s.frame) (hcanvas : t.canvas = s.canvas) : AllWritten t := by
  unfold AllWritten State.cells State.width State.height State.frameAt State.canvasAt
  rw [hw, hh, hframe, hcanvas]
  exact h

theorem AllWritten.writeReg (h : AllWritten s) (r : Reg) (v : Word) : AllWritten (s.writeReg r v) := by
  rw [State.writeReg_frame]
  exact h

theorem AllWritten.writeFrame (h : AllWritten s) (i : Nat) (v : Byte) : AllWritten (s.writeFrame i v) := by
  intro j hj
  obtain ⟨hframe, hcanvas⟩ := h j hj
  refine ⟨?_, hcanvas⟩
  rw [State.frameAt_writeFrame]
  split
  · exact Option.some_ne_none v
  · exact hframe

theorem AllWritten.putPixel (h : AllWritten s) (p : Nat) (v : Byte) : AllWritten (putPixel p v s) := by
  unfold Machine.putPixel
  split
  · exact h
  · exact h.writeFrame _ v

/-- DECODE writes FRAME by PutPixel alone, and CANVAS not at all. -/
theorem allWritten_decodeKeeps : DecodeKeeps AllWritten where
  readerOnly h hro := by rw [hro]; exact h
  setLzw _ h := h
  setTable _ h := h
  putPixel p v h := h.putPixel p v

theorem initState_allWritten (s : State) : AllWritten (initState s) := by
  intro i hi
  have hcells : (initState s).cells = s.cells := by rw [initState_eq]; rfl
  rw [hcells] at hi
  rw [frameAt_initState hi, canvasAt_initState hi]
  exact ⟨Option.some_ne_none _, Option.some_ne_none _⟩

/-- INIT leaves a value in every cell, whatever stood there (42_compositor.md R103). -/
theorem exec_init_allWritten (ht : exec .init s = .next t) : AllWritten t := by
  obtain rfl : (initState s).setStatus .ok = t := Host.Outcome.next.inj ((exec_init s).symm.trans ht)
  exact initState_allWritten s

theorem exec_dispose_allWritten (h : AllWritten s) (ht : exec .dispose s = .next t) : AllWritten t := by
  obtain ⟨-, hs⟩ := disposed_of_exec ht
  have hcells : t.cells = s.cells := by rw [hs.others]; rfl
  intro i hi
  obtain ⟨hframe, hcanvas⟩ := h i (hcells ▸ hi)
  refine ⟨?_, ?_⟩
  · rw [hs.others]
    exact hframe
  · rw [hs.cells]
    exact disposedOver_ne_none s i hcanvas

/-- A command that writes neither FRAME nor CANVAS (`eachStateHasItsWriters`). -/
theorem exec_allWritten_of_other {i : Instr} (h : AllWritten s) (ht : exec i s = .next t) (hinit : i ≠ .init)
    (hdecode : i ≠ .decode) (hdispose : i ≠ .dispose) : AllWritten t := by
  obtain ⟨hframe, hcanvas, -, -, -, -, -, -, -, -, hw, hh, -⟩ := eachStateHasItsWriters i s t ht
  exact h.congr hw hh (hframe hinit hdecode) (hcanvas hinit hdispose)

theorem exec_allWritten (i : Instr) (h : AllWritten s) (ht : exec i s = .next t) : AllWritten t := by
  cases i with
  | init => exact exec_init_allWritten ht
  | decode =>
    obtain ⟨u, st, hu, rfl⟩ := (allWritten_decodeKeeps.decodeCommand h).of_next ht
    exact hu
  | dispose => exact exec_dispose_allWritten h ht
  | skip | palWrite | brReset | getKey => exact exec_allWritten_of_other h ht nofun nofun nofun

/-! Every interaction answers, and keeps the cells written. -/

/-- The outcome is a next state with a value in every cell. -/
def AnswersWritten (o : Host.Outcome State Fault Refusal) : Prop := ∃ t, o = .next t ∧ AllWritten t

/-- The cells DISPOSE reads are cells of the canvas. -/
theorem AllWritten.drawable (h : AllWritten s) : Drawable s := fun hf _ _ i hi => (h i (State.rectCells_lt hf hi)).1

/-- With a legal stream every command ends (`everyCommandEnds`), DISPOSE because its cells hold values. -/
theorem exec_answersWritten (hs : streamWf s.stream = true) (h : AllWritten s) (i : Instr) :
    AnswersWritten (exec i s) := by
  obtain ⟨t, ht, -⟩ := everyCommandEnds i s hs fun _ => (drawable_iff s).mp h.drawable
  exact ⟨t, ht, exec_allWritten i h ht⟩

/-- The STATUS a command left joins the record, and the cells stay. -/
theorem AnswersWritten.recordStatus {o : Host.Outcome State Fault Refusal} (h : AnswersWritten o) :
    AnswersWritten (recordStatus o) := by
  obtain ⟨t, rfl, ht⟩ := h
  exact ⟨t.logStatus, rfl, ht⟩

theorem memWrite_answersWritten (hs : streamWf s.stream = true) (h : AllWritten s) (addr v : Word) :
    AnswersWritten (memWrite addr v s) := by
  obtain ⟨-, hcommand⟩ | ⟨-, hfields⟩ := memWrite_cases addr v s
  · rw [hcommand, commandWrite]
    refine AnswersWritten.recordStatus ?_
    obtain ⟨i, -, hexec⟩ | ⟨r, -, hreject⟩ := performWord_cases v s
    · rw [hexec]
      exact exec_answersWritten hs h i
    · exact ⟨_, hreject, h⟩
  · exact ⟨_, hfields, h.writeReg _ v⟩

theorem hostStreamRead_allWritten (h : AllWritten s) : AllWritten (hostStreamRead s) := by
  obtain ⟨b, -, e⟩ | ⟨-, e⟩ := hostStreamRead_cases s
  · rw [e]
    exact h
  · rw [e]
    exact h

/-- A port that gives a value adds a reply and nothing else. -/
theorem answerPort_answersWritten {α : Type} {p : PortRead α} (h : AllWritten s) (hp : ∃ v, p = .value v)
    (wrap : α → Reply) : AnswersWritten (answerPort p wrap s) := by
  obtain ⟨v, rfl⟩ := hp
  exact ⟨_, answerPort_value v wrap s, h⟩

theorem AllWritten.framePort (h : AllWritten s) {i : Nat} (hi : i < s.cells) : ∃ v, framePort s i = .value v := by
  obtain ⟨v, hv⟩ := Option.ne_none_iff_exists'.mp (h i hi).1
  exact ⟨v, framePort_of_some hi hv⟩

theorem AllWritten.canvasPort (h : AllWritten s) {i : Nat} (hi : i < s.cells) : ∃ c, canvasPort s i = .value c := by
  obtain ⟨c, hc⟩ := Option.ne_none_iff_exists'.mp (h i hi).2
  exact ⟨c, canvasPort_of_some hi hc⟩

/-- View reads the pixel's FRAME cell inside a rectangle that fits, and its CANVAS cell where nothing is laid over it
(42_compositor.md R109). -/
theorem AllWritten.viewPort (h : AllWritten s) {x y : Nat} (hx : x < s.width) (hy : y < s.height) :
    ∃ c, viewPort s x y = .value c := by
  have hcell : s.cellIndex x y < s.cells := State.cellIndex_lt hx hy
  by_cases hover : s.rectFits = true ∧ s.inRect x y = true
  · obtain ⟨hf, hr⟩ := hover
    obtain ⟨idx, hidx⟩ := Option.ne_none_iff_exists'.mp (h _ hcell).1
    rw [viewPort_inside hf hr hidx]
    split
    · exact h.canvasPort hcell
    · exact ⟨_, rfl⟩
  · rw [not_and_or, Bool.not_eq_true, Bool.not_eq_true] at hover
    rw [viewPort_outside hx hy hover]
    exact h.canvasPort hcell

theorem interact_answersWritten (hs : streamWf s.stream = true) (h : AllWritten s) {a : Interaction}
    (hin : InRange s a) (hreset : a ≠ .hardReset) : AnswersWritten (interact a s) := by
  cases a with
  | writeReg addr v => exact memWrite_answersWritten hs h addr v
  | readReg addr => exact ⟨_, rfl, h⟩
  | streamRead => exact ⟨_, rfl, hostStreamRead_allWritten h⟩
  | streamSeek p => exact ⟨_, rfl, h⟩
  | streamPos => exact ⟨_, rfl, h⟩
  | frameRead i => exact answerPort_answersWritten h (h.framePort hin) .pixel
  | canvasRead i => exact answerPort_answersWritten h (h.canvasPort hin) .color
  | view x y =>
    obtain ⟨hx, hy⟩ := hin
    exact answerPort_answersWritten h (h.viewPort hx hy) .color
  | hardReset => exact absurd rfl hreset

end

/-- Settles O52: INIT fills every cell (`exec_init_allWritten`); an idle step holds the state, and any other step is its
interaction (`interact_answersWritten`). -/
theorem writtenBuffersNeverFault : Obligations.WrittenBuffersNeverFault := by
  refine ⟨fun _ _ ht => exec_init_allWritten ht, fun s ⟨⟨_, hstream⟩, _⟩ h hpending => ?_⟩
  cases hp : s.pending with
  | nil => exact ⟨s, idleStepHoldsState s hp, h⟩
  | cons a rest =>
    obtain ⟨hin, hreset⟩ := hpending a rest hp
    rw [step_of_pending hp]
    exact interact_answersWritten (s := s.setPending rest) hstream h hin hreset

end Sys2Proof.Safety
end
